-- ==== Sys2Proof/Word.lean ====
section
/-! DEFINITION. The widths of the block's values (00_scope.md R15, R16; 10_state.md R80). -/

namespace Sys2Proof

/-- One cell, one port transaction, one latch register: 8 bits (00_scope.md R15). -/
abbrev Byte := BitVec 8

/-- One nibble-channel read (00_scope.md R15). -/
abbrev Nibble := BitVec 4

/-- A store address after the 6-bit mask (00_scope.md R13 `ADDR_MASK`, 40_register_store.md R170). -/
abbrev CellAddr := BitVec 6

/-- A memory-size word or the checksum (00_scope.md R15). -/
abbrev Word16 := BitVec 16

/-- A port number (00_scope.md R16). -/
abbrev Port := BitVec 16

end Sys2Proof
end

