-- ==== Sys2Proof/Syntax.lean ====
section
/-! DEFINITION. The block's 32 operations, one constructor per row of opcode_table.json, operands in wire order
(30_encoding.md R145). An `int` operand is an integer, a `sel` or `enum8` operand a byte, `bytes` and `snap64` operands byte
strings (30_encoding.md R140, R141). -/

namespace Sys2Proof

/-- One request to the block (30_encoding.md R145). -/
inductive Instr where
  /-- 0x01 READ_CELL (R175). -/
  | readCell (addr : Int)
  /-- 0x02 WRITE_CELL (R177). -/
  | writeCell (addr value : Int)
  /-- 0x03 BCD_DECODE (R194). -/
  | bcdDecode (raw : Int) (mode : Byte)
  /-- 0x04 BCD_ENCODE (R195). -/
  | bcdEncode (n : Int) (mode : Byte)
  /-- 0x10 READ_TIME (R215). -/
  | readTime
  /-- 0x11 WRITE_TIME (R225). -/
  | writeTime (h m sec : Int)
  /-- 0x12 WRITE_DATE (R228). -/
  | writeDate (day month year : Int)
  /-- 0x13 WRITE_DOW (R231). -/
  | writeDow (n : Int)
  /-- 0x14 READ_ALARM (R235). -/
  | readAlarm
  /-- 0x15 WRITE_ALARM (R241). -/
  | writeAlarm (h m sec : Int)
  /-- 0x16 SET_ALARM_ENABLED (R245). -/
  | setAlarmEnabled (enable : Byte)
  /-- 0x20 READ_STATUS (R260). -/
  | readStatus
  /-- 0x30 GET_FLOPPY (R285). -/
  | getFloppy (drive : Byte)
  /-- 0x31 SET_FLOPPY (R287). -/
  | setFloppy (drive : Byte) (type : Int)
  /-- 0x32 GET_HARDDISK (R290). -/
  | getHarddisk (drive : Byte)
  /-- 0x33 SET_HARDDISK (R292). -/
  | setHarddisk (drive : Byte) (type : Int)
  /-- 0x34 GET_EQUIP (R296). -/
  | getEquip
  /-- 0x35 SET_EQUIP (R299). -/
  | setEquip (field : Byte) (value : Int)
  /-- 0x36 GET_MEMWORD (R305). -/
  | getMemword (which : Byte)
  /-- 0x37 SET_MEMWORD (R307). -/
  | setMemword (which : Byte) (value : Int)
  /-- 0x38 GET_DIAG (R312). -/
  | getDiag
  /-- 0x39 CLEAR_DIAG (R313). -/
  | clearDiag
  /-- 0x3A GET_SHUTDOWN (R317). -/
  | getShutdown
  /-- 0x40 CK_COMPUTE (R331). -/
  | ckCompute
  /-- 0x41 CK_VERIFY (R334). -/
  | ckVerify
  /-- 0x42 CK_UPDATE (R337). -/
  | ckUpdate
  /-- 0x50 LATCH_READ (R351). -/
  | latchRead (channel : Byte)
  /-- 0x51 PLATFORM_STATUS (R357). -/
  | platformStatus
  /-- 0x60 EXPORT_SNAPSHOT (R371). -/
  | exportSnapshot
  /-- 0x61 IMPORT_SNAPSHOT (R374). -/
  | importSnapshot (data : List Byte)
  /-- 0x62 FACTORY_RESET (R380). -/
  | factoryReset
  /-- 0x63 DIFF (R385). -/
  | diff (a b : List Byte)
deriving DecidableEq, Repr

end Sys2Proof
end

