-- ==== Sys2Proof/WellFormed.lean ====
section
/-! DEFINITION. Which requests the wire form can spell (30_encoding.md R141). -/

namespace Sys2Proof

/-- An `int` operand fits its 4 wire bytes: −2^31 .. 2^31−1 (30_encoding.md R141). -/
def intOk (n : Int) : Bool := decide (-2147483648 ≤ n) && decide (n ≤ 2147483647)

/-- A `bytes` operand fits its 2-byte length (30_encoding.md R141). -/
def bytesOk (l : List Byte) : Bool := decide (l.length ≤ 65535)

/-- A `snap64` operand is exactly 64 bytes (30_encoding.md R141). -/
def snapOk (l : List Byte) : Bool := decide (l.length = 64)

/-- Every operand is inside the wire range; a request that is not "is refused by the encoder" (30_encoding.md R141). The
ranges of the operations' own rules are no part of this: those are checked by the operations (30_encoding.md R143). -/
def Instr.wf : Instr → Bool
  | .readCell addr => intOk addr
  | .writeCell addr value => intOk addr && intOk value
  | .bcdDecode raw _ => intOk raw
  | .bcdEncode n _ => intOk n
  | .readTime => true
  | .writeTime h m sec => intOk h && intOk m && intOk sec
  | .writeDate day month year => intOk day && intOk month && intOk year
  | .writeDow n => intOk n
  | .readAlarm => true
  | .writeAlarm h m sec => intOk h && intOk m && intOk sec
  | .setAlarmEnabled _ => true
  | .readStatus => true
  | .getFloppy _ => true
  | .setFloppy _ type => intOk type
  | .getHarddisk _ => true
  | .setHarddisk _ type => intOk type
  | .getEquip => true
  | .setEquip _ value => intOk value
  | .getMemword _ => true
  | .setMemword _ value => intOk value
  | .getDiag => true
  | .clearDiag => true
  | .getShutdown => true
  | .ckCompute => true
  | .ckVerify => true
  | .ckUpdate => true
  | .latchRead _ => true
  | .platformStatus => true
  | .exportSnapshot => true
  | .importSnapshot data => bytesOk data
  | .factoryReset => true
  | .diff a b => snapOk a && snapOk b

end Sys2Proof
end

