-- ==== Sys2Proof/Decode.lean ====
section
/-! DEFINITION. The request's wire form: the decoder, total on any byte string, and after it the encoder (30_encoding.md R140-R146). -/

namespace Sys2Proof

/-- Why a byte string is no request (30_encoding.md R143). -/
inductive DecodeError where
  /-- No operation-code byte. -/
  | empty
  /-- The operation code is not in the map (30_encoding.md R154). -/
  | unknownOpcode (op : Byte)
  /-- The request ends before its last operand byte. -/
  | cutShort (op : Byte)
deriving DecidableEq, Repr

/-- The little-endian value of a byte string. -/
def leValue : List Byte → Nat
  | [] => 0
  | b :: r => b.toNat + 256 * leValue r

/-- The `n` low bytes of a value, least significant first. -/
def leBytes : (n : Nat) → (v : Nat) → List Byte
  | 0, _ => []
  | n + 1, v => BitVec.ofNat 8 v :: leBytes n (v / 256)

/-- The next `n` bytes, and the rest. -/
def takeRaw (n : Nat) (l : List Byte) : Option (List Byte × List Byte) :=
  if n ≤ l.length then some (l.take n, l.drop n) else none

/-- An `enum8` or `sel` operand: 1 byte (30_encoding.md R141). -/
def takeByte : List Byte → Option (Byte × List Byte)
  | [] => none
  | b :: r => some (b, r)

/-- An `int` operand: 4 bytes, two's complement, little-endian (30_encoding.md R141). -/
def takeInt (l : List Byte) : Option (Int × List Byte) :=
  (takeRaw 4 l).map fun p => ((BitVec.ofNat 32 (leValue p.1)).toInt, p.2)

/-- A `bytes` operand: a 2-byte little-endian length, then that many bytes (30_encoding.md R141). -/
def takeBytes (l : List Byte) : Option (List Byte × List Byte) :=
  (takeRaw 2 l).bind fun p => takeRaw (leValue p.1) p.2

/-- A `snap64` operand: exactly 64 bytes (30_encoding.md R141). -/
def takeSnap (l : List Byte) : Option (List Byte × List Byte) := takeRaw 64 l

/-- The request an operation code stands for, read from the bytes after it; `none` for a code not in the map
(30_encoding.md R145, R154). The inner `none` is a request cut short. -/
def decodeOperands (op : Byte) (l : List Byte) : Option (Option (Instr × List Byte)) :=
  match op.toNat with
  | 0x01 => some ((takeInt l).map fun a => (.readCell a.1, a.2))
  | 0x02 => some ((takeInt l).bind fun a => (takeInt a.2).map fun v => (.writeCell a.1 v.1, v.2))
  | 0x03 => some ((takeInt l).bind fun a => (takeByte a.2).map fun m => (.bcdDecode a.1 m.1, m.2))
  | 0x04 => some ((takeInt l).bind fun a => (takeByte a.2).map fun m => (.bcdEncode a.1 m.1, m.2))
  | 0x10 => some (some (.readTime, l))
  | 0x11 => some ((takeInt l).bind fun h => (takeInt h.2).bind fun m => (takeInt m.2).map fun c =>
      (.writeTime h.1 m.1 c.1, c.2))
  | 0x12 => some ((takeInt l).bind fun d => (takeInt d.2).bind fun m => (takeInt m.2).map fun y =>
      (.writeDate d.1 m.1 y.1, y.2))
  | 0x13 => some ((takeInt l).map fun n => (.writeDow n.1, n.2))
  | 0x14 => some (some (.readAlarm, l))
  | 0x15 => some ((takeInt l).bind fun h => (takeInt h.2).bind fun m => (takeInt m.2).map fun c =>
      (.writeAlarm h.1 m.1 c.1, c.2))
  | 0x16 => some ((takeByte l).map fun e => (.setAlarmEnabled e.1, e.2))
  | 0x20 => some (some (.readStatus, l))
  | 0x30 => some ((takeByte l).map fun d => (.getFloppy d.1, d.2))
  | 0x31 => some ((takeByte l).bind fun d => (takeInt d.2).map fun t => (.setFloppy d.1 t.1, t.2))
  | 0x32 => some ((takeByte l).map fun d => (.getHarddisk d.1, d.2))
  | 0x33 => some ((takeByte l).bind fun d => (takeInt d.2).map fun t => (.setHarddisk d.1 t.1, t.2))
  | 0x34 => some (some (.getEquip, l))
  | 0x35 => some ((takeByte l).bind fun f => (takeInt f.2).map fun v => (.setEquip f.1 v.1, v.2))
  | 0x36 => some ((takeByte l).map fun w => (.getMemword w.1, w.2))
  | 0x37 => some ((takeByte l).bind fun w => (takeInt w.2).map fun v => (.setMemword w.1 v.1, v.2))
  | 0x38 => some (some (.getDiag, l))
  | 0x39 => some (some (.clearDiag, l))
  | 0x3A => some (some (.getShutdown, l))
  | 0x40 => some (some (.ckCompute, l))
  | 0x41 => some (some (.ckVerify, l))
  | 0x42 => some (some (.ckUpdate, l))
  | 0x50 => some ((takeByte l).map fun c => (.latchRead c.1, c.2))
  | 0x51 => some (some (.platformStatus, l))
  | 0x60 => some (some (.exportSnapshot, l))
  | 0x61 => some ((takeBytes l).map fun d => (.importSnapshot d.1, d.2))
  | 0x62 => some (some (.factoryReset, l))
  | 0x63 => some ((takeSnap l).bind fun a => (takeSnap a.2).map fun b => (.diff a.1 b.1, b.2))
  | _ => none

/-- The request at the head of a byte string, and the bytes after it; a byte string that is no request is refused by name
(30_encoding.md R142, R143). -/
def decode : List Byte → Except DecodeError (Instr × List Byte)
  | [] => .error .empty
  | op :: l =>
    match decodeOperands op l with
    | none => .error (.unknownOpcode op)
    | some none => .error (.cutShort op)
    | some (some r) => .ok r

/-! ## The encoder -/

/-- The operation code (30_encoding.md R145). -/
def Instr.opcode : Instr → Byte
  | .readCell _ => 0x01#8
  | .writeCell _ _ => 0x02#8
  | .bcdDecode _ _ => 0x03#8
  | .bcdEncode _ _ => 0x04#8
  | .readTime => 0x10#8
  | .writeTime _ _ _ => 0x11#8
  | .writeDate _ _ _ => 0x12#8
  | .writeDow _ => 0x13#8
  | .readAlarm => 0x14#8
  | .writeAlarm _ _ _ => 0x15#8
  | .setAlarmEnabled _ => 0x16#8
  | .readStatus => 0x20#8
  | .getFloppy _ => 0x30#8
  | .setFloppy _ _ => 0x31#8
  | .getHarddisk _ => 0x32#8
  | .setHarddisk _ _ => 0x33#8
  | .getEquip => 0x34#8
  | .setEquip _ _ => 0x35#8
  | .getMemword _ => 0x36#8
  | .setMemword _ _ => 0x37#8
  | .getDiag => 0x38#8
  | .clearDiag => 0x39#8
  | .getShutdown => 0x3A#8
  | .ckCompute => 0x40#8
  | .ckVerify => 0x41#8
  | .ckUpdate => 0x42#8
  | .latchRead _ => 0x50#8
  | .platformStatus => 0x51#8
  | .exportSnapshot => 0x60#8
  | .importSnapshot _ => 0x61#8
  | .factoryReset => 0x62#8
  | .diff _ _ => 0x63#8

/-- An `int` operand's wire bytes (30_encoding.md R141). -/
def putInt (n : Int) : List Byte := leBytes 4 (BitVec.ofInt 32 n).toNat

/-- A `bytes` operand's wire bytes (30_encoding.md R141). -/
def putBytes (l : List Byte) : List Byte := leBytes 2 l.length ++ l

/-- The operands' wire bytes, in wire order (30_encoding.md R141, R145). -/
def Instr.operandBytes : Instr → List Byte
  | .readCell addr => putInt addr
  | .writeCell addr value => putInt addr ++ putInt value
  | .bcdDecode raw mode => putInt raw ++ [mode]
  | .bcdEncode n mode => putInt n ++ [mode]
  | .readTime => []
  | .writeTime h m sec => putInt h ++ (putInt m ++ putInt sec)
  | .writeDate day month year => putInt day ++ (putInt month ++ putInt year)
  | .writeDow n => putInt n
  | .readAlarm => []
  | .writeAlarm h m sec => putInt h ++ (putInt m ++ putInt sec)
  | .setAlarmEnabled enable => [enable]
  | .readStatus => []
  | .getFloppy drive => [drive]
  | .setFloppy drive type => drive :: putInt type
  | .getHarddisk drive => [drive]
  | .setHarddisk drive type => drive :: putInt type
  | .getEquip => []
  | .setEquip field value => field :: putInt value
  | .getMemword which => [which]
  | .setMemword which value => which :: putInt value
  | .getDiag => []
  | .clearDiag => []
  | .getShutdown => []
  | .ckCompute => []
  | .ckVerify => []
  | .ckUpdate => []
  | .latchRead channel => [channel]
  | .platformStatus => []
  | .exportSnapshot => []
  | .importSnapshot data => putBytes data
  | .factoryReset => []
  | .diff a b => a ++ b

/-- The wire form of a well-formed request: the operation-code byte, then the operands (30_encoding.md R141). -/
def encode (i : Instr) : List Byte := i.opcode :: i.operandBytes

/-- The encoder as the spec has it: "A value outside the wire range cannot be spelled and is refused by the encoder"
(30_encoding.md R141). -/
def encodeChecked (i : Instr) : Option (List Byte) := if i.wf then some (encode i) else none

/-! ## Words numbered as opcode_table.json numbers them -/

/-- How many bytes the request that begins with these bytes has, bytes past the end read as zero (30_encoding.md R142):
1 + the operands' width for each operation code. -/
def requestLength (l : List Byte) : Nat :=
  match (l.getD 0 0#8).toNat with
  | 0x01 => 5
  | 0x02 => 9
  | 0x03 => 6
  | 0x04 => 6
  | 0x11 => 13
  | 0x12 => 13
  | 0x13 => 5
  | 0x15 => 13
  | 0x16 => 2
  | 0x30 => 2
  | 0x31 => 6
  | 0x32 => 2
  | 0x33 => 6
  | 0x35 => 6
  | 0x36 => 2
  | 0x37 => 6
  | 0x50 => 2
  | 0x61 => 3 + ((l.getD 1 0#8).toNat + 256 * (l.getD 2 0#8).toNat)
  | 0x63 => 129
  | _ => 1

/-- The bytes of a request whose first `nbits` bits are `w`, the first byte lowest, every bit above them 0. -/
def tableRequest (nbits w : Nat) : List Byte :=
  let given := leBytes (nbits / 8) w
  given ++ List.replicate (requestLength given - given.length) 0#8

/-- The request the decoder reads from an instruction word of the opcode table. -/
def decodeTableWord (nbits w : Nat) : Option Instr :=
  match decode (tableRequest nbits w) with
  | .ok (i, _) => some i
  | .error _ => none

end Sys2Proof
end

