-- ==== Sys2Proof/Config.lean ====
section
/-! DEFINITION. What a launch or an implementation fixes: the chip's own cells, the parameters of a launch with their defaults
and the constraints on them, the display names, and the free values. -/

namespace Sys2Proof.Config

/-! ## The chip's own cells (10_state.md R44, R81, R82, R85) -/

/-- Seconds: the chip's own cell, and the default of `CELL_MAP` (10_state.md R44, R85). -/
abbrev SEC : CellAddr := 0x00#6
/-- Minutes: the chip's own cell, and the default of `CELL_MAP` (10_state.md R44, R85). -/
abbrev MIN : CellAddr := 0x02#6
/-- Hours: the chip's own cell, and the default of `CELL_MAP` (10_state.md R44, R85). -/
abbrev HOUR : CellAddr := 0x04#6
/-- Day of week: the chip's own cell, and the default of `CELL_MAP` (10_state.md R44, R85). -/
abbrev DOW : CellAddr := 0x06#6
/-- Day of month: the chip's own cell, and the default of `CELL_MAP` (10_state.md R44, R85). -/
abbrev DOM : CellAddr := 0x07#6
/-- Month: the chip's own cell, and the default of `CELL_MAP` (10_state.md R44, R85). -/
abbrev MONTH : CellAddr := 0x08#6
/-- Two-digit year: the chip's own cell, and the default of `CELL_MAP` (10_state.md R44, R85). -/
abbrev YEAR : CellAddr := 0x09#6
/-- Register A: the chip's own cell, and the default of `CELL_MAP` (10_state.md R44, R81, R82). -/
abbrev REG_A : CellAddr := 0x0A#6
/-- Register B: the chip's own cell, and the default of `CELL_MAP` (10_state.md R44, R82, R85). -/
abbrev REG_B : CellAddr := 0x0B#6
/-- Register C, cell 12, in every launch (00_scope.md R13). -/
abbrev REG_C : CellAddr := 0x0C#6
/-- Register D, cell 13, in every launch (00_scope.md R13). -/
abbrev REG_D : CellAddr := 0x0D#6

/-- The first checksum-covered cell (00_scope.md R13). -/
abbrev CK_FIRST : CellAddr := 0x10#6
/-- The last checksum-covered cell (00_scope.md R13). -/
abbrev CK_LAST : CellAddr := 0x2D#6

/-! ## The maps (00_scope.md R14; log entry 5) -/

/-- `CELL_MAP`: where the block finds the time, alarm and status cells; Registers C and D are fixed (10_state.md R44). -/
structure CellMap where
  sec : CellAddr
  secAlm : CellAddr
  min : CellAddr
  minAlm : CellAddr
  hour : CellAddr
  hourAlm : CellAddr
  dow : CellAddr
  dom : CellAddr
  month : CellAddr
  year : CellAddr
  regA : CellAddr
  regB : CellAddr
deriving DecidableEq, Repr, Inhabited

/-- `CFG_MAP`: where the block finds the configuration cells (10_state.md R45). -/
structure CfgMap where
  diag : CellAddr
  shutdown : CellAddr
  floppy : CellAddr
  hdd : CellAddr
  equip : CellAddr
  basememLo : CellAddr
  basememHi : CellAddr
  extmemLo : CellAddr
  extmemHi : CellAddr
  hddExt0 : CellAddr
  hddExt1 : CellAddr
deriving DecidableEq, Repr, Inhabited

/-- The default of `CELL_MAP`: the MC146818 layout (10_state.md R44). -/
def defaultCellMap : CellMap where
  sec := 0x00#6
  secAlm := 0x01#6
  min := 0x02#6
  minAlm := 0x03#6
  hour := 0x04#6
  hourAlm := 0x05#6
  dow := 0x06#6
  dom := 0x07#6
  month := 0x08#6
  year := 0x09#6
  regA := 0x0A#6
  regB := 0x0B#6

/-- The default of `CFG_MAP`: the IBM-AT layout (10_state.md R45). -/
def defaultCfgMap : CfgMap where
  diag := 0x0E#6
  shutdown := 0x0F#6
  floppy := 0x10#6
  hdd := 0x12#6
  equip := 0x14#6
  basememLo := 0x15#6
  basememHi := 0x16#6
  extmemLo := 0x17#6
  extmemHi := 0x18#6
  hddExt0 := 0x19#6
  hddExt1 := 0x1A#6

/-- The default of `SHUTDOWN_TABLE`: the IBM-AT codes, display data only (44_config_fields.md R318). -/
def defaultShutdownTable : List (Byte × String) :=
  [(0x00#8, "soft reset or unexpected shutdown"),
   (0x01#8, "shutdown after memory size determination"),
   (0x02#8, "shutdown after memory test"),
   (0x03#8, "shutdown after memory error"),
   (0x04#8, "shutdown with boot loader request"),
   (0x05#8, "jump via 40:67 with EOI and interrupt initialisation"),
   (0x06#8, "protected-mode test passed"),
   (0x07#8, "protected-mode test failed"),
   (0x08#8, "protected-mode test 1 failed"),
   (0x09#8, "block move (INT 15h) shutdown"),
   (0x0A#8, "jump via 40:67 without EOI")]

/-! ## Fixed values (00_scope.md R13) -/

/-- A raw alarm byte from here on means "don't care". -/
abbrev WILDCARD_MIN : Byte := 0xC0#8
/-- The byte written for a wildcard field. -/
abbrev WILDCARD_WRITE : Byte := 0xC0#8

/-! ## Display names -/

/-- The floppy type names, display data only (44_config_fields.md R286). -/
def floppyTypeNames : List String :=
  ["no drive", "360 KB 5.25-inch", "1.2 MB 5.25-inch", "720 KB 3.5-inch", "1.44 MB 3.5-inch"]

/-- The video mode names, display data only (44_config_fields.md R297). -/
def videoModeNames : List String :=
  ["adapter with its own BIOS (EGA/VGA)", "CGA 40-column", "CGA 80-column", "monochrome 80-column"]

/-- The diagnostic flag names, bit 0 first, display data only (44_config_fields.md R315). -/
def diagFlagNames : List (Option String) :=
  [none, none, some "time invalid", some "fixed disk or controller failed initialisation",
   some "memory size mismatch", some "invalid configuration", some "CMOS checksum bad", some "RTC lost power"]

/-! ## The parameters (00_scope.md R14; a field of State, log entry 4) -/

/-- `LATCH_TRANSPORT[c]` with the ports or cells that go with it (10_state.md R90, 46_amstrad_latch.md R356). -/
inductive Transport where
  | port (sel nib : Port)
  | store (sel nib : CellAddr)
deriving DecidableEq, Repr, Inhabited

/-- The parameters of one nibble channel (46_amstrad_latch.md R356). -/
structure LatchParams where
  /-- `LATCH_TRANSPORT[c]` and its ports or cells. -/
  transport : Transport
  /-- `LATCH_SEL_BIT[c]`: the toggled selector bit. -/
  selBit : Fin 8
  /-- `LATCH_FIRST_SEL[c]`: the selector bit's value for the first read. -/
  firstSel : Bool
  /-- `LATCH_FIRST_IS_HI[c]`: whether the first read is the high nibble. -/
  firstIsHi : Bool
  /-- `LATCH_NIB_SHIFT[c]`: position of the nibble in the read byte. -/
  nibShift : Fin 5
deriving DecidableEq, Repr, Inhabited

/-- An inclusive range of cells (47_snapshot.md R381.3). -/
structure CellRange where
  lo : CellAddr
  hi : CellAddr
deriving DecidableEq, Repr, Inhabited

/-- The two nibble channels (10_state.md R88, R90). -/
inductive Channel where
  | c0
  | c1
deriving DecidableEq, Repr, Inhabited

/-- The parameters of a launch, fixed for its whole run (00_scope.md R14, 70_reset_and_hazards.md R455.1). -/
structure Params where
  /-- `CELL_MAP` (10_state.md R44). -/
  cellMap : CellMap
  /-- `CFG_MAP` (10_state.md R45). -/
  cfgMap : CfgMap
  /-- `CK_HI_ADDR` (10_state.md R46). -/
  ckHiAddr : CellAddr
  /-- `CK_LO_ADDR` (10_state.md R46). -/
  ckLoAddr : CellAddr
  /-- `CENTURY_ADDR` (10_state.md R47). -/
  centuryAddr : CellAddr
  /-- `RTC_ADDR_PORT` (20_memory.md R115). -/
  rtcAddrPort : Port
  /-- `RTC_DATA_PORT` (20_memory.md R115). -/
  rtcDataPort : Port
  /-- `SHUTDOWN_TABLE` (44_config_fields.md R318). -/
  shutdownTable : List (Byte × String)
  /-- `UIP_POLL_MAX` (42_time_alarm.md R211). -/
  uipPollMax : Nat
  /-- `SET_CLEARS_UIE` (10_state.md R55). -/
  setClearsUie : Bool
  /-- `LATCH_*[0]`. -/
  latch0 : LatchParams
  /-- `LATCH_*[1]`. -/
  latch1 : LatchParams
  /-- `PLAT_PORT` (10_state.md R91). -/
  platPort : Port
  /-- `PLAT_LANG_SHIFT`. -/
  platLangShift : Fin 6
  /-- `PLAT_DISP_HI_BIT`. -/
  platDispHiBit : Fin 8
  /-- `PLAT_DISP_LO_BIT`. -/
  platDispLoBit : Fin 8
  /-- `PLAT_DIP_BIT`. -/
  platDipBit : Fin 8
  /-- `LANG_NAME[0..7]`, an undefined entry being none (46_amstrad_latch.md R358). -/
  langName : Vector (Option String) 8
  /-- `DISP_NAME[0]` (46_amstrad_latch.md R358). -/
  dispName0 : Option String
  /-- `DISP_NAME[2]`. -/
  dispName2 : Option String
  /-- `DISP_NAME[3]`. -/
  dispName3 : Option String
  /-- `FACTORY_TABLE` (47_snapshot.md R381). -/
  factoryTable : List (CellAddr × Byte)
  /-- The first of `FACTORY_ZERO_RANGES`. -/
  zeroRange0 : CellRange
  /-- The second of `FACTORY_ZERO_RANGES`. -/
  zeroRange1 : CellRange
deriving DecidableEq, Repr, Inhabited

/-- The parameters of channel `c`. -/
def Params.latch (p : Params) : Channel → LatchParams
  | .c0 => p.latch0
  | .c1 => p.latch1

/-! ## The constraints on the parameters (70_reset_and_hazards.md R455.1) -/

/-- A cell a STORE channel may use: neither 12 nor 13, outside 0x10-0x2F (46_amstrad_latch.md R350). -/
def latchCellOk (a : CellAddr) : Bool :=
  a != REG_C && a != REG_D && !(0x10#6 ≤ a && a ≤ 0x2F#6)

/-- The constraint on one channel's transport (46_amstrad_latch.md R350). -/
def Params.transportOk (p : Params) : Transport → Bool
  | .port sel nib =>
    sel != p.rtcAddrPort && sel != p.rtcDataPort && nib != p.rtcAddrPort && nib != p.rtcDataPort
  | .store sel nib => sel != nib && latchCellOk sel && latchCellOk nib

/-- The constraint on the checksum cells: distinct, outside 0x10-0x2D, neither 12 nor 13 (45_checksum.md R333). -/
def Params.checksumOk (p : Params) : Bool :=
  p.ckHiAddr != p.ckLoAddr &&
  [p.ckHiAddr, p.ckLoAddr].all fun a => a != REG_C && a != REG_D && !(CK_FIRST ≤ a && a ≤ CK_LAST)

/-- The bit positions the parameters of the platform status register name (10_state.md R91). -/
def Params.platBits (p : Params) : List Nat :=
  [p.platLangShift.val, p.platLangShift.val + 1, p.platLangShift.val + 2,
   p.platDispHiBit.val, p.platDispLoBit.val, p.platDipBit.val]

/-- The alarm and configuration cells, Registers A and B apart (10_state.md R44, R45). -/
def Params.alarmConfigCells (p : Params) : List CellAddr :=
  [p.cellMap.secAlm, p.cellMap.minAlm, p.cellMap.hourAlm, p.cfgMap.diag, p.cfgMap.shutdown, p.cfgMap.floppy, p.cfgMap.hdd] ++
  [p.cfgMap.equip, p.cfgMap.basememLo, p.cfgMap.basememHi, p.cfgMap.extmemLo, p.cfgMap.extmemHi, p.cfgMap.hddExt0,
   p.cfgMap.hddExt1]

/-- The time cells as the block finds them (10_state.md R44). -/
def Params.timeCells (p : Params) : List CellAddr :=
  [p.cellMap.sec, p.cellMap.min, p.cellMap.hour, p.cellMap.dow, p.cellMap.dom, p.cellMap.month, p.cellMap.year]

/-- The cells a factory table must have (47_snapshot.md R381.2). -/
def Params.factoryRequired (p : Params) : List CellAddr :=
  p.cellMap.regA :: p.cellMap.regB :: p.centuryAddr :: (p.timeCells ++ p.alarmConfigCells)

/-- The cells 10_state.md R44 to R47 name, Registers C and D apart. -/
def Params.namedCells (p : Params) : List CellAddr :=
  p.cellMap.regA :: p.cellMap.regB :: p.ckHiAddr :: p.ckLoAddr :: p.centuryAddr :: (p.timeCells ++ p.alarmConfigCells)

/-- The reserved or unused cells: those no rule names (10_state.md R48). -/
def Params.reservedCell (p : Params) (a : CellAddr) : Bool :=
  !p.namedCells.contains a && a != REG_C && a != REG_D

/-- The cells of an inclusive range, ascending (00_scope.md R24). -/
def cellsFromTo (lo hi : CellAddr) : List CellAddr :=
  (List.range' lo.toNat (hi.toNat + 1 - lo.toNat)).map (BitVec.ofNat 6)

/-- A zero range holds reserved cells only, none of the factory table's (47_snapshot.md R381.3). DESIGN CHOICE (log entry 22):
a pair with `lo` above `hi` is accepted as a range of no cells, whatever its end points; the spec does not say. -/
def Params.zeroRangeOk (p : Params) (r : CellRange) : Bool :=
  (cellsFromTo r.lo r.hi).all fun a => p.reservedCell a && (p.factoryTable.all fun e => e.1 != a)

/-- The constraint on a map's memory words: each is split across two adjacent cells, the high byte's after the low byte's
(10_state.md R78, 20_memory.md R101). -/
def CfgMap.wordsAdjacent (m : CfgMap) : Bool :=
  m.basememHi.toNat == m.basememLo.toNat + 1 && m.extmemHi.toNat == m.extmemLo.toNat + 1

/-- A valid instance of the parameters: every constraint of 10_state.md R78 and R91, 45_checksum.md R333, 46_amstrad_latch.md R350
and 47_snapshot.md R381 holds (of R91's "five distinct bit positions": log entry 16). -/
def Params.valid (p : Params) : Bool :=
  p.transportOk p.latch0.transport && p.transportOk p.latch1.transport && p.checksumOk &&
  decide (5 ≤ p.platBits.dedup.length) &&
  decide ((p.factoryTable.map Prod.fst).Pairwise (· < ·)) &&
  (p.factoryTable.all fun e => e.1 != REG_C && e.1 != REG_D) &&
  (p.factoryRequired.all fun a => (p.factoryTable.map Prod.fst).contains a) &&
  p.zeroRangeOk p.zeroRange0 && p.zeroRangeOk p.zeroRange1 && p.cfgMap.wordsAdjacent

/-! ## The free values -/

/-- What the clock agent does in one step, each part at its choice (10_state.md R85): set `uip_now`, replace time cells
(while SET is clear), set bits 7:4 of Register C. `none` is "not this one". -/
structure ClockAct where
  uip : Option Bool
  sec : Option Byte
  min : Option Byte
  hour : Option Byte
  dow : Option Byte
  dom : Option Byte
  month : Option Byte
  year : Option Byte
  setFlags : Option Nibble
deriving DecidableEq, Repr, Inhabited

/-- What the environment chooses around one bus event: the clock agent's step before it, and the values a read of the event
may draw (10_state.md R86, R89). -/
structure Draw where
  /-- The clock agent's step before the event. -/
  clock : ClockAct
  /-- VRT, if the event reads Register D (10_state.md R64). -/
  vrt : Bool
  /-- Bits 3:0 of Register C, if the event reads it: as stored, or drawn (log entry 8). -/
  cLow : Option Nibble
  /-- Bits 6:0 of Register D, if the event reads it: as stored, or drawn (log entry 8). -/
  dLow : Option (BitVec 7)
  /-- The byte an absent device answers (10_state.md R86). -/
  absent : Byte
  /-- The bits of a nibble read outside the nibble (10_state.md R89). -/
  nibOther : Byte
deriving DecidableEq, Repr, Inhabited

/-- The environment's draw number `n`: nothing constrains it (10_state.md R85, R86; log entry 2). -/
opaque freeDraw : Nat → Draw

/-- The launch's parameters as they come, with no constraint (log entry 4). -/
opaque launchParams : Params

/-- A valid instance: the defaults of 00_scope.md R14, and OPEN parameters in the style of 46_amstrad_latch.md R355 and R357 and
95_test_vectors.md V60, which are no defaults. It shows that the constraints can be met, and stands for the launch's
parameters where those are no valid instance. -/
def illustrativeParams : Params where
  cellMap := defaultCellMap
  cfgMap := defaultCfgMap
  ckHiAddr := 0x2E#6
  ckLoAddr := 0x2F#6
  centuryAddr := 0x32#6
  rtcAddrPort := 0x70#16
  rtcDataPort := 0x71#16
  shutdownTable := defaultShutdownTable
  uipPollMax := 3
  setClearsUie := false
  latch0 := ⟨.port 0x0200#16 0x0201#16, 3, true, true, 0⟩
  latch1 := ⟨.store 0x3E#6 0x3F#6, 3, true, true, 0⟩
  platPort := 0x0202#16
  platLangShift := 0
  platDispHiBit := 7
  platDispLoBit := 6
  platDipBit := 5
  langName := Vector.replicate 8 (some "")
  dispName0 := some ""
  dispName2 := some ""
  dispName3 := some ""
  factoryTable :=
    [(0x00#6, 0x00#8), (0x01#6, 0x00#8), (0x02#6, 0x00#8), (0x03#6, 0x00#8), (0x04#6, 0x00#8), (0x05#6, 0x00#8)] ++
    [(0x06#6, 0x01#8), (0x07#6, 0x01#8), (0x08#6, 0x01#8), (0x09#6, 0x80#8), (0x0A#6, 0x26#8), (0x0B#6, 0x02#8)] ++
    [(0x0E#6, 0x00#8), (0x0F#6, 0x00#8), (0x10#6, 0x40#8), (0x11#6, 0x00#8), (0x12#6, 0x00#8), (0x13#6, 0x00#8)] ++
    [(0x14#6, 0x01#8), (0x15#6, 0x80#8), (0x16#6, 0x02#8), (0x17#6, 0x00#8), (0x18#6, 0x00#8)] ++
    [(0x19#6, 0x00#8), (0x1A#6, 0x00#8), (0x32#6, 0x19#8)]
  zeroRange0 := ⟨0x1B#6, 0x2D#6⟩
  zeroRange1 := ⟨0x33#6, 0x3F#6⟩

/-- The parameters of a launch: any valid instance (70_reset_and_hazards.md R455.1, log entry 4). -/
def params : Params :=
  if launchParams.valid then launchParams else illustrativeParams

end Sys2Proof.Config
end

