-- ==== Sys2Proof/Machine/State.lean ====
section
/-! DEFINITION. The machine's state: the RTC and its store, the Amstrad latch hardware, the launch inputs, the host's side of
the request interface, and the environment's draws. -/

namespace Sys2Proof.Machine

open Sys2Proof.Config

/-! ## Memory and devices -/

/-- A store as (address, byte) pairs, addresses strictly rising, no entry equal to what an unlisted address reads as. -/
abbrev Memory := List Host.Cell

/-- The device registers of one nibble channel (10_state.md R88, R89). -/
structure Latch where
  /-- `SEL[c]`, of a PORT channel. -/
  sel : Byte
  /-- `N[c][0]`. -/
  n0 : Nibble
  /-- `N[c][1]`. -/
  n1 : Nibble
deriving DecidableEq, Repr, Inhabited

/-- One recorded bus event (20_memory.md R116). -/
inductive BusEvent where
  | out (p : Port) (v : Byte)
  | inp (p : Port) (v : Byte)
  | barrier
deriving DecidableEq, Repr

/-! ## Results (00_scope.md R25, 42_time_alarm.md R214) -/

/-- The encoding of the time and alarm cells (10_state.md R57). -/
inductive Mode where
  | bcd
  | bin
deriving DecidableEq, Repr

/-- A decoded day of week, month or floppy type (42_time_alarm.md R218, 44_config_fields.md R285). -/
inductive Field where
  | known (n : Nat)
  | unknown (n : Nat)
deriving DecidableEq, Repr

/-- A decoded alarm field (42_time_alarm.md R214). -/
inductive AlarmField where
  | wildcard
  | value (n : Nat)
deriving DecidableEq, Repr

/-- READ_TIME's result (42_time_alarm.md R215). -/
structure TimeRecord where
  seconds : Nat
  minutes : Nat
  hours : Nat
  dayOfWeek : Field
  dayOfMonth : Nat
  month : Field
  year2 : Nat
  century : Nat
  is24h : Bool
  isBinary : Bool
deriving DecidableEq, Repr

/-- READ_ALARM's result (42_time_alarm.md R235). -/
structure AlarmRecord where
  hours : AlarmField
  minutes : AlarmField
  seconds : AlarmField
deriving DecidableEq, Repr

/-- The oscillator-divider names (10_state.md R52). -/
inductive DvName where
  | tb4194304Hz
  | tb1048576Hz
  | tb32768Hz
  | test
  | dividerReset
deriving DecidableEq, Repr

/-- Register A decoded (43_status.md R262). -/
structure RegA where
  uip : Bool
  dv : BitVec 3
  dvName : DvName
  rs : Nibble
  rateHz : Option Nat
deriving DecidableEq, Repr

/-- Register B decoded (43_status.md R263). -/
structure RegB where
  set : Bool
  pie : Bool
  aie : Bool
  uie : Bool
  sqwe : Bool
  binary : Bool
  h24 : Bool
  dse : Bool
deriving DecidableEq, Repr

/-- Register C decoded (43_status.md R264). -/
structure RegC where
  irqf : Bool
  pf : Bool
  af : Bool
  uf : Bool
deriving DecidableEq, Repr

/-- Register D decoded (43_status.md R265). -/
structure RegD where
  vrt : Bool
deriving DecidableEq, Repr

/-- READ_STATUS's result (43_status.md R260). -/
structure StatusRecord where
  regA : RegA
  regB : RegB
  regC : RegC
  regD : RegD
  rawA : Byte
  rawB : Byte
  rawC : Byte
  rawD : Byte
deriving DecidableEq, Repr

/-- GET_HARDDISK's result (44_config_fields.md R290). -/
structure HardDiskRecord where
  type : Nat
  extended : Option Byte
deriving DecidableEq, Repr

/-- GET_EQUIP's result (44_config_fields.md R296). -/
structure EquipRecord where
  floppyPresent : Bool
  fpu : Bool
  video : BitVec 2
  floppyCount : Nat
  raw : Byte
deriving DecidableEq, Repr

/-- GET_DIAG's result; flag `i` of the list is bit `i` (44_config_fields.md R312). -/
structure DiagRecord where
  raw : Byte
  flags : List Bool
  healthy : Bool
deriving DecidableEq, Repr

/-- GET_SHUTDOWN's result (44_config_fields.md R317). -/
inductive ShutdownCode where
  | known (code : Byte) (meaning : String)
  | raw (code : Byte)
deriving DecidableEq, Repr

/-- A code with its name from a lookup table, or out of the table (46_amstrad_latch.md R358). -/
inductive NamedCode where
  | known (code : Nat) (name : String)
  | unknown (code : Nat)
deriving DecidableEq, Repr

/-- PLATFORM_STATUS's result (46_amstrad_latch.md R357). -/
structure PlatformRecord where
  language : NamedCode
  display : NamedCode
  dipLatchSelect : Bool
  raw : Byte
deriving DecidableEq, Repr

/-- One difference of two snapshots: address, the first's byte, the second's (47_snapshot.md R385). -/
structure DiffEntry where
  addr : Nat
  a : Byte
  b : Byte
deriving DecidableEq, Repr

/-- An operation's result value. -/
inductive Value where
  | unit
  | byte (v : Byte)
  | integer (n : Nat)
  | word (v : Word16)
  | bool (b : Bool)
  | time (r : TimeRecord)
  | alarm (r : AlarmRecord)
  | status (r : StatusRecord)
  | floppyType (t : Field)
  | hardDisk (r : HardDiskRecord)
  | equip (r : EquipRecord)
  | diag (r : DiagRecord)
  | shutdown (c : ShutdownCode)
  | platform (r : PlatformRecord)
  | snapshot (l : List Byte)
  | diff (l : List DiffEntry)
deriving DecidableEq, Repr

/-- A consistency warning (60_exceptions.md R400). -/
inductive Warning where
  | uipTimeout
  | checksumMismatch
deriving DecidableEq, Repr

/-- The operand a validation error names (60_exceptions.md R402). -/
inductive OperandName where
  | opcode
  | addr
  | value
  | raw
  | mode
  | n
  | h
  | m
  | s
  | day
  | month
  | year
  | enable
  | drive
  | type
  | field
  | which
  | channel
deriving DecidableEq, Repr

/-- Why an operation failed (60_exceptions.md R400); a wrong snapshot size records the rejected length (R402). -/
inductive OpError where
  | validation (f : OperandName)
  | portAccessDenied
  | snapshotSize (length : Nat)
deriving DecidableEq, Repr

/-- What an operation ends with: `Ok(value, warnings)` or `Err(error)` (60_exceptions.md R400). -/
inductive Result where
  | ok (v : Value) (ws : List Warning)
  | err (e : OpError)
deriving DecidableEq, Repr

/-! ## The machine -/

/-- The operation under way: the request accepted, and the step index, its position within the statements of the rule's pseudocode,
from 0 on (10_state.md R42; log entry 1). -/
structure Running where
  instr : Instr
  stepIndex : Nat
deriving DecidableEq, Repr

/-- Every piece of state the spec gives the machine (10_state.md R96), with the launch inputs, the host's side of the request
interface, and two fields of the model's own (`script`, `drawCount`). -/
structure State where
  /-- `x[0..63]`, the register store (10_state.md R44). -/
  cells : Memory
  /-- The device's address latch (10_state.md R80). -/
  idx : CellAddr
  /-- `uip_now`, the clock agent's UIP bit (10_state.md R81). -/
  uipNow : Bool
  /-- Whether an RTC answers at the RTC ports (10_state.md R86, log entry 9). -/
  rtcPresent : Bool
  /-- Channel 0's registers (10_state.md R88, R89). -/
  latch0 : Latch
  /-- Channel 1's registers. -/
  latch1 : Latch
  /-- `PLAT`, the platform status register (10_state.md R91). -/
  plat : Byte
  /-- `IO_PERMITTED` (60_exceptions.md R404). -/
  ioPermitted : Bool
  /-- The parameters, fixed for the run (70_reset_and_hazards.md R455, log entry 4). -/
  params : Params
  /-- The requests the host has yet to issue, each a byte string (20_memory.md R129, log entry 6). -/
  requests : List (List Byte)
  /-- The operation under way with its step index, none between operations (10_state.md R41, R42; log entry 1). -/
  running : Option Running
  /-- The bus trace of the operation under way or of the last one, oldest event first (20_memory.md R116). -/
  trace : List BusEvent
  /-- The outcome the host last received (60_exceptions.md R400). -/
  outcome : Option Result
  /-- The environment's next draws, oldest first; after them come the free draws (log entry 2). -/
  script : List Draw
  /-- How many free draws were taken (log entry 2). -/
  drawCount : Nat
deriving DecidableEq, Repr

/-- The reasons the machine stops with a fault: none. Every failure of the block ends its operation with a typed outcome
(60_exceptions.md R400, R408, R410), and no behaviour is stuck (93_implementation_defined.md section 1; log entry 17). -/
inductive Fault where
deriving DecidableEq, Repr

/-- The reasons an instruction is refused. -/
inductive Refusal where
  /-- Raised by `exec`'s arm of an instruction that has no meaning yet; no arm raises it now. Safe: the model stops. -/
  | notModelled (mnemonic : String)
deriving DecidableEq, Repr

/-- The start of a run (10_state.md R94-R96, 70_reset_and_hazards.md R450-R452): the block is idle, no operation has run, and
every launch input has the value log entries 3 and 4 name. -/
def State.reset : State where
  cells := []
  idx := 0#6
  uipNow := false
  rtcPresent := true
  latch0 := ⟨0x00#8, 0x0#4, 0x0#4⟩
  latch1 := ⟨0x00#8, 0x0#4, 0x0#4⟩
  plat := 0x00#8
  ioPermitted := true
  params := Config.params
  requests := []
  running := none
  trace := []
  outcome := none
  script := []
  drawCount := 0

end Sys2Proof.Machine
end

