-- ==== Sys2Proof/Machine/Memory.lean ====
section
/-! DEFINITION. The store as a list in one canonical form, and its two operations. -/

namespace Sys2Proof.Machine

open Sys2Proof.Config

/-- What a cell that is not listed reads as (log entry 15). -/
def Memory.unlisted : Byte := 0x00#8

/-- The canonical form: addresses strictly rising and below 64, no entry equal to what an unlisted address reads as. -/
def Memory.wf (m : Memory) : Bool :=
  decide (m.Pairwise fun c d => c.1 < d.1) && m.all fun c => decide (c.1 < 64) && c.2 != Memory.unlisted

/-- The byte at address `k`. -/
def Memory.find (m : Memory) (k : Nat) : Byte :=
  match m with
  | [] => Memory.unlisted
  | c :: r => if c.1 = k then c.2 else Memory.find r k

/-- Put an entry before the first entry with a higher address. -/
def Memory.insert (k : Nat) (v : Byte) : Memory → Memory
  | [] => [(k, v)]
  | c :: r => if k < c.1 then (k, v) :: c :: r else c :: Memory.insert k v r

/-- Cell `a`: `x[a]` (00_scope.md R20). -/
def Memory.read (m : Memory) (a : CellAddr) : Byte := Memory.find m a.toNat

/-- `x[a] <- v` (00_scope.md R20), in canonical form. -/
def Memory.write (m : Memory) (a : CellAddr) (v : Byte) : Memory :=
  let rest := m.filter fun c => c.1 != a.toNat
  if v = Memory.unlisted then rest else Memory.insert a.toNat v rest

/-- `x[a]`, the store cell as the RTC chip holds it (00_scope.md R20). -/
def State.x (s : State) (a : CellAddr) : Byte := s.cells.read a

/-- `x[a] <- v`. -/
def State.setX (s : State) (a : CellAddr) (v : Byte) : State := { s with cells := s.cells.write a v }

/-- The registers of channel `c`. -/
def State.latch (s : State) : Channel → Latch
  | .c0 => s.latch0
  | .c1 => s.latch1

/-- `SEL[c] <- v`, of a PORT channel. -/
def State.setSel (s : State) (c : Channel) (v : Byte) : State :=
  match c with
  | .c0 => { s with latch0 := { s.latch0 with sel := v } }
  | .c1 => { s with latch1 := { s.latch1 with sel := v } }

end Sys2Proof.Machine
end

