-- ==== Sys2Proof/Machine/Flags.lean ====
section
/-! DEFINITION. The flags of Registers A to D: the bits the block reads and writes, their decoders, and the numeric codes of
the outcomes. -/

namespace Sys2Proof.Machine

open Sys2Proof.Config

/-! ## Register B as the block uses it -/

/-- `SET`, Register B bit 7: clock updates halted (10_state.md R54, R56). -/
def setFlag (b : Byte) : Bool := b.getLsbD 7

/-- Register B with SET = 1 (42_time_alarm.md R212). -/
def withSet (b : Byte) : Byte := b ||| 0x80#8

/-- Register B with SET = 0 (42_time_alarm.md R212). -/
def withoutSet (b : Byte) : Byte := b &&& 0x7F#8

/-- The encoding `DM` selects (10_state.md R57): bit 2. -/
def dataMode (b : Byte) : Mode := if b.getLsbD 2 then .bin else .bcd

/-- `H24`, Register B bit 1 (10_state.md R57). -/
def hour24 (b : Byte) : Bool := b.getLsbD 1

/-- Register B with AIE (bit 5) set or cleared, the other bits kept (42_time_alarm.md R245). -/
def withAie (b : Byte) (enable : Bool) : Byte := (b &&& 0xDF#8) ||| (if enable then 0x20#8 else 0x00#8)

/-- What the device stores for a write of `v` to Register B (10_state.md R55). -/
def storedB (setClearsUie : Bool) (v : Byte) : Byte :=
  if setClearsUie && setFlag v then v &&& 0xEF#8 else v

/-- What the device stores for a write of `v` to Register A: bit 7 kept (10_state.md R51). -/
def storedA (old v : Byte) : Byte := (old &&& 0x80#8) ||| (v &&& 0x7F#8)

/-! ## Register A -/

/-- `UIP`, Register A bit 7 (10_state.md R50). -/
def uipFlag (a : Byte) : Bool := a.getLsbD 7

/-- A bit as bit 7 over seven low bits (10_state.md R81). -/
def overBits (top : Bool) (low : BitVec 7) : Byte := (if top then 0x80#8 else 0x00#8) ||| low.setWidth 8

/-- The name of a divider selection (10_state.md R52). -/
def dvName (dv : BitVec 3) : DvName :=
  match dv.toNat with
  | 0 => .tb4194304Hz
  | 1 => .tb1048576Hz
  | 2 => .tb32768Hz
  | 3 => .test
  | 4 => .test
  | 5 => .test
  | _ => .dividerReset

/-- The periodic rate in Hz of each `RS` value, none for 0 (10_state.md R53). -/
def rateTable : List (Option Nat) :=
  [none, some 256, some 128, some 8192, some 4096, some 2048, some 1024, some 512] ++
  [some 256, some 128, some 64, some 32, some 16, some 8, some 4, some 2]

/-- The periodic rate in Hz, none for 0 (10_state.md R53). -/
def rateHz (rs : Nibble) : Option Nat := (rateTable[rs.toNat]?).getD none

/-! ## The decoders (43_status.md R262-R265) -/

/-- `decode_a` (43_status.md R262). -/
def decodeA (a : Byte) : RegA where
  uip := a.getLsbD 7
  dv := a.extractLsb' 4 3
  dvName := dvName (a.extractLsb' 4 3)
  rs := a.extractLsb' 0 4
  rateHz := rateHz (a.extractLsb' 0 4)

/-- `decode_b` (43_status.md R263). -/
def decodeB (b : Byte) : RegB where
  set := b.getLsbD 7
  pie := b.getLsbD 6
  aie := b.getLsbD 5
  uie := b.getLsbD 4
  sqwe := b.getLsbD 3
  binary := b.getLsbD 2
  h24 := b.getLsbD 1
  dse := b.getLsbD 0

/-- `decode_c`: bits 3:0 are ignored (43_status.md R264). -/
def decodeC (c : Byte) : RegC where
  irqf := c.getLsbD 7
  pf := c.getLsbD 6
  af := c.getLsbD 5
  uf := c.getLsbD 4

/-- `decode_d`: bits 6:0 are ignored (43_status.md R265). -/
def decodeD (d : Byte) : RegD where
  vrt := d.getLsbD 7

/-! ## Numeric codes (60_exceptions.md R402) -/

/-- The numeric code of an outcome (60_exceptions.md R402). -/
def Result.code : Result → Byte
  | .ok _ _ => 0x00#8
  | .err (.validation _) => 0x01#8
  | .err .portAccessDenied => 0x02#8
  | .err (.snapshotSize _) => 0x03#8

/-- The numeric code of a warning (60_exceptions.md R402). -/
def Warning.code : Warning → Byte
  | .uipTimeout => 0x01#8
  | .checksumMismatch => 0x02#8

end Sys2Proof.Machine
end

