-- ==== Sys2Proof/Machine/Operands.lean ====
section
/-! DEFINITION. The operand forms: which values an operation accepts and what each stands for, and the codec between numbers
and cell bytes. -/

namespace Sys2Proof.Machine

open Sys2Proof.Config

/-! ## Validation (60_exceptions.md R403, R409) -/

/-- An `int` operand's range: the operand's name if it is outside (42_time_alarm.md R221). -/
def checkRange (f : OperandName) (lo hi v : Int) : Option OperandName :=
  if lo ≤ v ∧ v ≤ hi then none else some f

/-- An alarm operand: −1, the wildcard, or inside the range (42_time_alarm.md R240). -/
def checkAlarm (f : OperandName) (hi v : Int) : Option OperandName :=
  if v = -1 ∨ (0 ≤ v ∧ v ≤ hi) then none else some f

/-- A check made in one case only: `if c and not ...` (41_bcd_codec.md R195, 44_config_fields.md R299). -/
def checkIf (c : Prop) [Decidable c] (check : Option OperandName) : Option OperandName := if c then check else none

/-- The codec's mode operand: 0 = BCD, 1 = binary (30_encoding.md R144). -/
def modeOf (v : Byte) : Option Mode :=
  if v = 0x00#8 then some .bcd else if v = 0x01#8 then some .bin else none

/-- The `enable` operand: 0 = false, 1 = true (30_encoding.md R144). -/
def enableOf (v : Byte) : Option Bool :=
  if v = 0x00#8 then some false else if v = 0x01#8 then some true else none

/-- `sel_index`: 'A' or '0' is the first drive (false), 'B' or '1' the second (true) (44_config_fields.md R283). -/
def selIndex (d : Byte) : Option Bool :=
  if d = 0x41#8 ∨ d = 0x30#8 then some false else if d = 0x42#8 ∨ d = 0x31#8 then some true else none

/-- The equipment fields (30_encoding.md R144). -/
inductive EquipField where
  | fpu
  | video
  | floppyCount
deriving DecidableEq, Repr

/-- The `field` operand (30_encoding.md R144). -/
def equipFieldOf (v : Byte) : Option EquipField :=
  if v = 0x00#8 then some .fpu else if v = 0x01#8 then some .video else if v = 0x02#8 then some .floppyCount else none

/-- A memory word's cells: the low one and the next, `a` and `a + 1` (20_memory.md R101, 44_config_fields.md R305, R307). -/
def wordCells (a : CellAddr) : CellAddr × CellAddr := (a, a + 1#6)

/-- The `which` operand: 0 is base memory, 1 extended; the word's low and high cell (44_config_fields.md R305). -/
def memwordOf (p : Params) (v : Byte) : Option (CellAddr × CellAddr) :=
  if v = 0x00#8 then some (wordCells p.cfgMap.basememLo)
  else if v = 0x01#8 then some (wordCells p.cfgMap.extmemLo) else none

/-- The `channel` operand (30_encoding.md R144). -/
def channelOf (v : Byte) : Option Channel :=
  if v = 0x00#8 then some .c0 else if v = 0x01#8 then some .c1 else none

/-! ## The codec (41_bcd_codec.md R190-R192) -/

/-- `decode(raw, mode)` (41_bcd_codec.md R190, R191). -/
def decodeByte (raw : Byte) : Mode → Nat
  | .bcd => (raw.extractLsb' 4 4).toNat * 10 + (raw.extractLsb' 0 4).toNat
  | .bin => raw.toNat

/-- `encode(n, mode)` (41_bcd_codec.md R192). -/
def encodeByte (n : Nat) : Mode → Byte
  | .bcd => BitVec.ofNat 8 (((n / 10) <<< 4) ||| (n % 10))
  | .bin => BitVec.ofNat 8 n

/-! ## Hours and range checks (42_time_alarm.md R217, R218, R223) -/

/-- `read_hour` (42_time_alarm.md R217). -/
def readHour (raw : Byte) (mode : Mode) (h24 : Bool) : Nat :=
  if h24 then decodeByte raw mode
  else
    let pm := raw.getLsbD 7
    let h := decodeByte (raw &&& 0x7F#8) mode
    if h = 12 then (if pm then 12 else 0)
    else if pm = true ∧ h < 12 then h + 12
    else h

/-- `write_hour` (42_time_alarm.md R223). -/
def writeHour (h : Nat) (mode : Mode) (h24 : Bool) : Byte :=
  if h24 then encodeByte h mode
  else if h = 0 then encodeByte 12 mode
  else if h < 12 then encodeByte h mode
  else if h = 12 then encodeByte 12 mode ||| 0x80#8
  else encodeByte (h - 12) mode ||| 0x80#8

/-- `range_check` (42_time_alarm.md R218). -/
def fieldUpTo (max v : Nat) : Field := if v > max then .unknown v else .known v

/-- An alarm byte decoded: a wildcard by its raw value, else a number (42_time_alarm.md R235, 30_encoding.md R153). -/
def alarmField (raw : Byte) (value : Nat) : AlarmField :=
  if WILDCARD_MIN ≤ raw then .wildcard else .value value

/-- An alarm operand's byte for minutes and seconds (42_time_alarm.md R241). -/
def alarmByte (v : Int) (mode : Mode) : Byte :=
  if v = -1 then WILDCARD_WRITE else encodeByte v.toNat mode

/-- An alarm operand's byte for hours (42_time_alarm.md R241). -/
def alarmHourByte (v : Int) (mode : Mode) (h24 : Bool) : Byte :=
  if v = -1 then WILDCARD_WRITE else writeHour v.toNat mode h24

/-- The full year of a READ_TIME result (42_time_alarm.md R220). -/
def TimeRecord.fullYear (r : TimeRecord) : Nat := r.century * 100 + r.year2

/-! ## Two-nibble drive bytes (10_state.md R75, R76) -/

/-- A drive's nibble: the high one for the first drive (44_config_fields.md R285). -/
def driveNibble (second : Bool) (b : Byte) : Nibble :=
  if second then b.extractLsb' 0 4 else b.extractLsb' 4 4

/-- The byte with one drive's nibble replaced (44_config_fields.md R287). -/
def withDriveNibble (second : Bool) (b : Byte) (t : Nibble) : Byte :=
  if second then (b &&& 0xF0#8) ||| t.setWidth 8 else (t.setWidth 8 <<< 4) ||| (b &&& 0x0F#8)

/-- The equipment byte with one field set (44_config_fields.md R299). -/
def withEquipField (e : Byte) (f : EquipField) (value : Nat) : Byte :=
  match f with
  | .fpu => (e &&& 0xFD#8) ||| (BitVec.ofNat 8 value <<< 1)
  | .video => (e &&& 0xCF#8) ||| (BitVec.ofNat 8 value <<< 4)
  | .floppyCount =>
    if value = 0 then e &&& 0x3E#8
    else (e &&& 0x3F#8) ||| (BitVec.ofNat 8 (value - 1) <<< 6) ||| 0x01#8

end Sys2Proof.Machine
end

