-- ==== Sys2Proof/Machine/Ops.lean ====
section
/-! DEFINITION. The shared operations: the environment's step before each bus event, the device side of the ports, the bus and
store primitives, the poll, the halt bracket, the checksum procedures, the latch channel primitives, and how an operation
runs and ends with its outcome. -/

namespace Sys2Proof.Machine

open Sys2Proof.Config

/-- What one bus event does, the environment's turn before it included: a value, and the state after. -/
abbrev Device (α : Type) := StateM State α

/-! ## The environment: clock agent and draws (10_state.md R85, R86; log entry 2) -/

/-- The next draw: the script's, or a free one where the script is used up. -/
def nextDraw : Device Draw := fun s =>
  match s.script with
  | d :: r => (d, { s with script := r })
  | [] => (Config.freeDraw s.drawCount, { s with drawCount := s.drawCount + 1 })

/-- Replace a cell, if there is a replacement. -/
def replaceCell (a : CellAddr) (v : Option Byte) (s : State) : State :=
  match v with
  | none => s
  | some b => s.setX a b

/-- The clock agent's choice of `uip_now` (10_state.md R85.1). -/
def clockUip (v : Option Bool) (s : State) : State :=
  match v with
  | none => s
  | some b => { s with uipNow := b }

/-- The clock agent's replacement of time cells, while SET is clear (10_state.md R85.2). -/
def clockCells (c : ClockAct) (s : State) : State :=
  if setFlag (s.x REG_B) then s
  else
    replaceCell YEAR c.year <| replaceCell MONTH c.month <| replaceCell DOM c.dom <| replaceCell DOW c.dow <|
    replaceCell HOUR c.hour <| replaceCell MIN c.min <| replaceCell SEC c.sec s

/-- The clock agent's setting of bits 7:4 of Register C (10_state.md R85.3). -/
def clockFlags (v : Option Nibble) (s : State) : State :=
  match v with
  | none => s
  | some f => s.setX REG_C (s.x REG_C ||| (f.setWidth 8 <<< 4))

/-- One step of the clock agent (10_state.md R85). -/
def clockStep (c : ClockAct) (s : State) : State :=
  clockFlags c.setFlags (clockCells c (clockUip c.uip s))

/-- The environment's turn before a bus event: the next draw, and the clock agent's step of it (20_memory.md R119). -/
def agentTurn : Device Draw := do
  let d ← nextDraw
  modify (clockStep d.clock)
  pure d

/-- Add an event to the trace (20_memory.md R116). -/
def record (e : BusEvent) (s : State) : State := { s with trace := s.trace ++ [e] }

/-! ## The device side (10_state.md R80-R91) -/

/-- The current value of `SEL[c]`: the register of a PORT channel, the store cell of a STORE channel (10_state.md R88, R90). DESIGN
CHOICE (log entry 25): where that cell is a time cell or Register A or B, which 46_amstrad_latch.md R350 admits, it is the stored
byte, which the device rules and the clock agent change as they do in every launch. -/
def selectorValue (c : Channel) (s : State) : Byte :=
  match (s.params.latch c).transport with
  | .port _ _ => (s.latch c).sel
  | .store sel _ => s.x sel

/-- The nibble `NIB[c]` presents: `N[c][k]` where the selector bit is `k` (46_amstrad_latch.md R353). -/
def presentedNibble (c : Channel) (s : State) : Nibble :=
  if (selectorValue c s).getLsbD (s.params.latch c).selBit.val then (s.latch c).n1 else (s.latch c).n0

/-- A byte holding a nibble at a shift, its other bits taken from a draw (10_state.md R89). -/
def nibbleByte (n : Nibble) (shift : Nat) (other : Byte) : Byte :=
  (other &&& ~~~(0x0F#8 <<< shift)) ||| (n.setWidth 8 <<< shift)

/-- What a read of `NIB[c]` delivers (10_state.md R89). -/
def nibSource (c : Channel) (d : Draw) (s : State) : Byte :=
  nibbleByte (presentedNibble c s) (s.params.latch c).nibShift.val d.nibOther

/-- Register C as a read returns it: bits 3:0 as stored or drawn (10_state.md R60, R62, R86; log entry 8). -/
def readC (d : Draw) (c : Byte) : Byte :=
  match d.cLow with
  | none => c
  | some l => (c &&& 0xF0#8) ||| l.setWidth 8

/-- Register D as a read returns it: VRT drawn, bits 6:0 as stored or drawn (10_state.md R64, R81, R86; log entry 8). -/
def readD (d : Draw) (v : Byte) : Byte :=
  overBits d.vrt (match d.dLow with
    | none => v.extractLsb' 0 7
    | some l => l)

/-- `PortIn(RTC_DATA_PORT)` on the device: the cell at `idx` (10_state.md R81); an absent RTC answers a draw (R86). -/
def deviceRead (d : Draw) : Device Byte := fun s =>
  if s.rtcPresent then
    if s.idx = REG_C then (readC d (s.x REG_C), s.setX REG_C 0x00#8)
    else if s.idx = REG_D then (readD d (s.x REG_D), s)
    else if s.idx = REG_A then (overBits s.uipNow ((s.x REG_A).extractLsb' 0 7), s)
    else (s.x s.idx, s)
  else (d.absent, s)

/-- `PortIn(RTC_DATA_PORT)` by which LATCH_READ reads `NIB[c]` at a store cell: the nibble source answers (10_state.md R89, R90;
log entry 10); an absent RTC answers a draw (R86). -/
def deviceReadNib (c : Channel) (d : Draw) (s : State) : Byte :=
  if s.rtcPresent then nibSource c d s else d.absent

/-- `PortOut(RTC_DATA_PORT, v)` on the device (10_state.md R82); an absent RTC absorbs it (40_register_store.md R174). -/
def deviceWrite (v : Byte) (s : State) : State :=
  if s.rtcPresent then
    if s.idx = REG_A then s.setX REG_A (storedA (s.x REG_A) v)
    else if s.idx = REG_B then s.setX REG_B (storedB s.params.setClearsUie v)
    else if s.idx = REG_C ∨ s.idx = REG_D then s
    else s.setX s.idx v
  else s

/-- `PortOut(RTC_ADDR_PORT, v)` on the device: `idx <- v & 0x3F` (10_state.md R80). -/
def deviceSelect (v : Byte) (s : State) : State := { s with idx := v.setWidth 6 }

/-! ## Bus events (00_scope.md R21): the environment's turn, the device's answer, the event recorded -/

/-- `Barrier()`: an event with no effect (20_memory.md R122). -/
def barrier : Device Unit := do
  let _ ← agentTurn
  modify (record .barrier)

/-- `PortOut(RTC_ADDR_PORT, v)`. -/
def rtcSelect (v : Byte) : Device Unit := do
  let _ ← agentTurn
  modify fun s => record (.out s.params.rtcAddrPort v) (deviceSelect v s)

/-- `PortIn(RTC_DATA_PORT)`. -/
def rtcDataIn : Device Byte := do
  let d ← agentTurn
  let v ← deviceRead d
  modify fun s => record (.inp s.params.rtcDataPort v) s
  pure v

/-- `PortOut(RTC_DATA_PORT, v)`. -/
def rtcDataOut (v : Byte) : Device Unit := do
  let _ ← agentTurn
  modify fun s => record (.out s.params.rtcDataPort v) (deviceWrite v s)

/-- `PortIn(RTC_DATA_PORT)` by which LATCH_READ reads `NIB[c]` at a store cell (10_state.md R90). -/
def nibDataIn (c : Channel) : Device Byte := do
  let d ← agentTurn
  let s ← get
  modify (record (.inp s.params.rtcDataPort (deviceReadNib c d s)))
  pure (deviceReadNib c d s)

/-- `PortIn(LATCH_SEL_PORT[c])` (10_state.md R88, R90). -/
def selPortIn (c : Channel) (p : Port) : Device Byte := do
  let _ ← agentTurn
  let s ← get
  modify (record (.inp p (s.latch c).sel))
  pure (s.latch c).sel

/-- `PortOut(LATCH_SEL_PORT[c], v)` (10_state.md R88, R90). -/
def selPortOut (c : Channel) (p : Port) (v : Byte) : Device Unit := do
  let _ ← agentTurn
  modify fun s => record (.out p v) (s.setSel c v)

/-- `PortIn(LATCH_NIB_PORT[c])` (10_state.md R89, R90). -/
def nibPortIn (c : Channel) (p : Port) : Device Byte := do
  let d ← agentTurn
  let s ← get
  modify (record (.inp p (nibSource c d s)))
  pure (nibSource c d s)

/-- `PortIn(PLAT_PORT)` (10_state.md R91). -/
def platPortIn : Device Byte := do
  let _ ← agentTurn
  let s ← get
  modify (record (.inp s.params.platPort s.plat))
  pure s.plat

/-! ## Programs of statements and bus events (10_state.md R42; log entry 1) -/

/-- One bus primitive as the block issues it (00_scope.md R21); a latch register by its role (log entry 12). -/
inductive Request where
  | barrier
  | select (v : Byte)
  | dataIn
  | dataOut (v : Byte)
  | nibDataIn (c : Channel)
  | selIn (c : Channel) (p : Port)
  | selOut (c : Channel) (p : Port) (v : Byte)
  | nibIn (c : Channel) (p : Port)
  | platIn
deriving DecidableEq, Repr

/-- A piece of an operation: it ends with a value, or issues a bus primitive and goes on by the answer, or ends a statement and
goes on with the next one. In an operation's body a bare `.step` is a line of the pseudocode that only binds a local or tests a
condition. -/
inductive Bus (α : Type) : Type where
  | pure (a : α)
  | ask (q : Request) (next : Byte → Bus α)
  | step (next : Bus α)

/-- One piece after another (00_scope.md R24). -/
def Bus.bind {α β : Type} : Bus α → (α → Bus β) → Bus β
  | .pure a, f => f a
  | .ask q next, f => .ask q fun v => (next v).bind f
  | .step next, f => .step (next.bind f)

/-- One statement, and the statements after it (00_scope.md R24). -/
def Bus.stmt {α β : Type} (m : Bus α) (f : α → Bus β) : Bus β := m.bind fun v => .step (f v)

/-- The bus event of a primitive; a write and a barrier answer 0x00, which no piece uses. -/
def perform : Request → State → Byte × State
  | .barrier, s => (0x00#8, (barrier s).2)
  | .select v, s => (0x00#8, (rtcSelect v s).2)
  | .dataIn, s => rtcDataIn s
  | .dataOut v, s => (0x00#8, (rtcDataOut v s).2)
  | .nibDataIn c, s => nibDataIn c s
  | .selIn c p, s => selPortIn c p s
  | .selOut c p v, s => (0x00#8, (selPortOut c p v s).2)
  | .nibIn c p, s => nibPortIn c p s
  | .platIn, s => platPortIn s

/-- A piece run to its end from a state. -/
def Bus.run {α : Type} : Bus α → State → α × State
  | .pure a, s => (a, s)
  | .ask q next, s => (next (perform q s).1).run (perform q s).2
  | .step next, s => next.run s

/-- What is left of a piece after some statements and some answers. -/
def Bus.after {α : Type} : Bus α → (statements : Nat) → (answers : List Byte) → Bus α
  | .pure a, _, _ => .pure a
  | .ask q next, _, [] => .ask q next
  | .ask _ next, k, v :: l => (next v).after k l
  | .step next, 0, _ => .step next
  | .step next, k + 1, l => next.after k l

/-- A primitive, and its answer. -/
def Bus.request (q : Request) : Bus Byte := .ask q .pure

/-! ## Store primitives (40_register_store.md R170-R173) -/

/-- The 6-bit mask of a store address (40_register_store.md R170). -/
def maskAddr (a : Int) : CellAddr := BitVec.ofInt 6 a

/-- `MemRead(a, 1)`: one complete indirect read (40_register_store.md R171). -/
def memRead (a : CellAddr) : Bus Byte :=
  .ask (.select (a.setWidth 8)) fun _ => .ask .barrier fun _ => .request .dataIn

/-- `MemRead(LATCH_NIB_CELL[c], 1)`: the same read, of the nibble source (40_register_store.md R171, 10_state.md R90). -/
def memReadNib (c : Channel) (a : CellAddr) : Bus Byte :=
  .ask (.select (a.setWidth 8)) fun _ => .ask .barrier fun _ => .request (.nibDataIn c)

/-- `MemWrite(a, 1, v)`: one complete indirect write (40_register_store.md R173). -/
def memWrite (a : CellAddr) (v : Byte) : Bus Unit :=
  .ask (.select (a.setWidth 8)) fun _ => .ask .barrier fun _ => .ask (.dataOut v) fun _ => .ask .barrier fun _ => .pure ()

/-- Read cells in the order given, inside one statement. -/
def memReadAll : List CellAddr → Bus (List Byte)
  | [] => .pure []
  | a :: r => (memRead a).bind fun v => (memReadAll r).bind fun vs => .pure (v :: vs)

/-- Read cells in the order given, a statement each. -/
def memReadEach : List CellAddr → Bus (List Byte)
  | [] => .pure []
  | a :: r => (memRead a).stmt fun v => (memReadEach r).bind fun vs => .pure (v :: vs)

/-- Write cells in the order given, a statement each. -/
def memWriteAll : List (CellAddr × Byte) → Bus Unit
  | [] => .pure ()
  | e :: r => (memWrite e.1 e.2).stmt fun _ => memWriteAll r

/-! ## Shared procedures -/

/-- The loop of `wait_uip()`, with the iterations left (42_time_alarm.md R211). -/
def pollUip (p : Params) : Nat → Bus (List Warning)
  | 0 => .pure [.uipTimeout]
  | n + 1 => (memRead p.cellMap.regA).bind fun a => if uipFlag a then pollUip p n else .pure []

/-- `wait_uip()`: the warnings it gives (42_time_alarm.md R211). -/
def waitUip (p : Params) : Bus (List Warning) := pollUip p p.uipPollMax

/-- `halt_begin()`: the Register B value read (42_time_alarm.md R212). -/
def haltBegin (p : Params) : Bus Byte :=
  (memRead p.cellMap.regB).bind fun rb => (memWrite p.cellMap.regB (withSet rb)).bind fun _ => .pure rb

/-- `halt_end(rb)` (42_time_alarm.md R212). -/
def haltEnd (p : Params) (rb : Byte) : Bus Unit := memWrite p.cellMap.regB (withoutSet rb)

/-- The checksum-covered cells, ascending (45_checksum.md R330). -/
def coveredCells : List CellAddr := cellsFromTo CK_FIRST CK_LAST

/-- The sum of bytes, modulo 65536, from a start value (45_checksum.md R330). -/
def sumBytes : Word16 → List Byte → Word16
  | acc, [] => acc
  | acc, b :: r => sumBytes (acc + b.setWidth 16) r

/-- `ck_sum()` (45_checksum.md R330). -/
def ckSum : Bus Word16 := (memReadAll coveredCells).bind fun bs => .pure (sumBytes 0#16 bs)

/-- `ck_stored()`: big-endian (45_checksum.md R332). -/
def ckStored (p : Params) : Bus Word16 :=
  (memRead p.ckHiAddr).bind fun hi => (memRead p.ckLoAddr).bind fun lo =>
  .pure ((hi.setWidth 16 <<< 8) + lo.setWidth 16)

/-- `ck_update()`: high byte first (45_checksum.md R337). -/
def ckUpdate (p : Params) : Bus Word16 :=
  ckSum.bind fun sum => (memWrite p.ckHiAddr (sum.extractLsb' 8 8)).bind fun _ =>
  (memWrite p.ckLoAddr (sum.extractLsb' 0 8)).bind fun _ => .pure sum

/-! ## Nibble channels (46_amstrad_latch.md R350) -/

/-- `SelRead(c)` (46_amstrad_latch.md R350); of a selector cell with a device rule: log entry 25. -/
def selRead (p : Params) (c : Channel) : Bus Byte :=
  match (p.latch c).transport with
  | .port sel _ => .request (.selIn c sel)
  | .store sel _ => memRead sel

/-- `SelWrite(c, v)`: a barrier follows a port write (46_amstrad_latch.md R350, R352); of a selector cell with a device rule: log
entry 25. -/
def selWrite (p : Params) (c : Channel) (v : Byte) : Bus Unit :=
  match (p.latch c).transport with
  | .port sel _ => .ask (.selOut c sel v) fun _ => .ask .barrier fun _ => .pure ()
  | .store sel _ => memWrite sel v

/-- The nibble of a read byte (30_encoding.md R149). -/
def nibbleAt (v : Byte) (shift : Nat) : Nibble := (v >>> shift).setWidth 4

/-- `NibRead(c)` (46_amstrad_latch.md R350). -/
def nibRead (p : Params) (c : Channel) : Bus Nibble :=
  (match (p.latch c).transport with
    | .port _ nib => Bus.request (.nibIn c nib)
    | .store _ nib => memReadNib c nib).bind fun v =>
  .pure (nibbleAt v (p.latch c).nibShift.val)

/-- A selector byte with one bit forced (30_encoding.md R150). -/
def withBit (v : Byte) (b : Nat) (k : Bool) : Byte :=
  (v &&& ~~~(0x01#8 <<< b)) ||| (if k then 0x01#8 <<< b else 0x00#8)

/-! ## How an operation runs and ends (60_exceptions.md R400-R412) -/

/-- What an operation comes to: a statement passed with no bus event, and what comes after it; an error before any bus event; a
value with no bus event; or a program of bus events. -/
inductive Operation where
  | step (next : Operation)
  | fails (e : OpError)
  | value (v : Value)
  | bus (b : Bus (Value × List Warning))

/-- Some statements with no bus event, and what comes after them. -/
def Operation.steps : Nat → Operation → Operation
  | 0, o => o
  | n + 1, o => .step (o.steps n)

/-- Validation before the first bus event, a statement a check: the first bad operand is the outcome (60_exceptions.md R403,
R409). -/
def validated : List (Option OperandName) → Operation → Operation
  | [], o => o
  | none :: r, o => .step (validated r o)
  | some f :: _, _ => .fails (.validation f)

/-- The statement that checks an operand given by a code: its meaning, or a validation error (30_encoding.md R144). -/
def withOperand {α : Type} (f : OperandName) (a : Option α) (o : α → Operation) : Operation :=
  match a with
  | none => .fails (.validation f)
  | some v => .step (o v)

/-- The operation ends with its outcome; the block keeps nothing of it (10_state.md R41, 60_exceptions.md R400). -/
def finish (r : Result) (s : State) : State := { s with running := none, outcome := some r }

/-- `raise` before any bus event: nothing but the outcome changes, and the trace is empty (60_exceptions.md R406, R410). -/
def raise (e : OpError) (s : State) : State := finish (.err e) { s with trace := [] }

/-- An operation with an empty trace ends with its value (41_bcd_codec.md R194, 47_snapshot.md R385). -/
def runPure (v : Value) (s : State) : State := finish (.ok v []) { s with trace := [] }

/-- A program of bus events run to its end. -/
def runToEnd (b : Bus (Value × List Warning)) (s : State) : State := finish (.ok (b.run s).1.1 (b.run s).1.2) (b.run s).2

/-- An operation run to its end. One with bus events is refused whole where the platform denies port access, since its first
primitive raises (60_exceptions.md R404, log entry 11). -/
def Operation.run : Operation → State → State
  | .step o, s => o.run s
  | .fails e, s => raise e s
  | .value v, s => runPure v s
  | .bus b, s => if s.ioPermitted then runToEnd b s else raise .portAccessDenied s

/-- A whole operation, from its first statement on. -/
def runOperation (o : Operation) (s : State) : State := o.run { s with trace := [], outcome := none }

/-! ## Between operations -/

/-- An invalid request (60_exceptions.md R401). -/
def rejectRequest (s : State) : State := raise (.validation .opcode) s

/-- No request is pending: the block waits, and the clock agent may step (70_reset_and_hazards.md R451, 10_state.md R85;
log entry 7). -/
def idle (s : State) : State := (agentTurn s).2

/-- The request the host issues next, and the state without it (20_memory.md R129). -/
def takeRequest (s : State) : Option (List Byte × State) :=
  match s.requests with
  | [] => none
  | r :: rest => some (r, { s with requests := rest })

end Sys2Proof.Machine
end

