-- ==== Sys2Proof/Machine/Checksum.lean ====
section
/-! DEFINITION. The checksum verifier: CK_COMPUTE, CK_VERIFY, CK_UPDATE (45_checksum.md). -/

namespace Sys2Proof.Machine

open Sys2Proof.Config

/-- The bus part of CK_COMPUTE: `return ck_sum()`, one statement. -/
def ckComputeBody : Bus (Value × List Warning) :=
  ckSum.bind fun sum =>
  .pure (.word sum, [])

/-- `CK_COMPUTE` (45_checksum.md R331). -/
def ckComputeOp : Operation :=
  .bus ckComputeBody

/-- The meaning of CK_COMPUTE. -/
def execCkCompute (s : State) : Host.Outcome State Fault Refusal := .next (runOperation ckComputeOp s)

/-- The bus part of CK_VERIFY: a mismatch is a warning beside `false` (45_checksum.md R336). -/
def ckVerifyBody (p : Params) : Bus (Value × List Warning) :=
  ckSum.stmt fun sum =>
  (ckStored p).stmt fun stored => .step <| .step <|
  .pure (.bool (sum == stored), if sum == stored then [] else [.checksumMismatch])

/-- `CK_VERIFY` (45_checksum.md R334). -/
def ckVerifyOp (p : Params) : Operation :=
  .bus (ckVerifyBody p)

/-- The meaning of CK_VERIFY. -/
def execCkVerify (s : State) : Host.Outcome State Fault Refusal := .next (runOperation (ckVerifyOp s.params) s)

/-- The bus part of CK_UPDATE, the statements of `ck_update()`: the sum written is the result. -/
def ckUpdateBody (p : Params) : Bus (Value × List Warning) :=
  ckSum.stmt fun sum =>
  (memWrite p.ckHiAddr (sum.extractLsb' 8 8)).stmt fun _ =>
  (memWrite p.ckLoAddr (sum.extractLsb' 0 8)).stmt fun _ =>
  .pure (.word sum, [])

/-- `CK_UPDATE` (45_checksum.md R337). -/
def ckUpdateOp (p : Params) : Operation :=
  .bus (ckUpdateBody p)

/-- The meaning of CK_UPDATE. -/
def execCkUpdate (s : State) : Host.Outcome State Fault Refusal := .next (runOperation (ckUpdateOp s.params) s)

end Sys2Proof.Machine
end

