-- ==== Sys2Proof/Machine/Codec.lean ====
section
/-! DEFINITION. The pure codec operations: BCD_DECODE, BCD_ENCODE (41_bcd_codec.md). -/

namespace Sys2Proof.Machine

/-- `BCD_DECODE raw, mode` (41_bcd_codec.md R194). -/
def bcdDecodeOp (raw : Int) (mode : Byte) : Operation :=
  validated [checkRange .raw 0 255 raw]
    (withOperand .mode (modeOf mode) fun md => .value (.integer (decodeByte (BitVec.ofInt 8 raw) md)))

/-- The meaning of BCD_DECODE. -/
def execBcdDecode (raw : Int) (mode : Byte) (s : State) : Host.Outcome State Fault Refusal :=
    .next (runOperation (bcdDecodeOp raw mode) s)

/-- `BCD_ENCODE n, mode`: `mode` is checked first, since the range of `n` depends on it (41_bcd_codec.md R195). -/
def bcdEncodeOp (n : Int) (mode : Byte) : Operation :=
  withOperand .mode (modeOf mode) (fun md =>
    validated [checkIf (md = .bcd) (checkRange .n 0 99 n), checkIf (md = .bin) (checkRange .n 0 255 n)]
      (.value (.byte (encodeByte n.toNat md))))

/-- The meaning of BCD_ENCODE. -/
def execBcdEncode (n : Int) (mode : Byte) (s : State) : Host.Outcome State Fault Refusal :=
    .next (runOperation (bcdEncodeOp n mode) s)

end Sys2Proof.Machine
end

