-- ==== Sys2Proof/Machine/ConfigFields.lean ====
section
/-! DEFINITION. The configuration field codec: drive types, equipment byte, memory-size words, diagnostic and shutdown bytes
(44_config_fields.md). -/

namespace Sys2Proof.Machine

open Sys2Proof.Config

/-- The bus part of GET_FLOPPY. -/
def getFloppyBody (p : Params) (second : Bool) : Bus (Value × List Warning) :=
  (memRead p.cfgMap.floppy).stmt fun b => .step <|
  .pure (.floppyType (fieldUpTo 4 (driveNibble second b).toNat), [])

/-- `GET_FLOPPY drive` (44_config_fields.md R285). -/
def getFloppyOp (p : Params) (drive : Byte) : Operation :=
  withOperand .drive (selIndex drive) (fun i => .bus (getFloppyBody p i))

/-- The meaning of GET_FLOPPY. -/
def execGetFloppy (drive : Byte) (s : State) : Host.Outcome State Fault Refusal :=
    .next (runOperation (getFloppyOp s.params drive) s)

/-- The bus part of SET_FLOPPY. -/
def setFloppyBody (p : Params) (second : Bool) (t : Nibble) : Bus (Value × List Warning) :=
  (memRead p.cfgMap.floppy).stmt fun b => .step <|
  (memWrite p.cfgMap.floppy (withDriveNibble second b t)).stmt fun _ =>
  (ckUpdate p).stmt fun _ =>
  .pure (.unit, [])

/-- `SET_FLOPPY drive, type` (44_config_fields.md R287). -/
def setFloppyOp (p : Params) (drive : Byte) (type : Int) : Operation :=
  withOperand .drive (selIndex drive) (fun i =>
    validated [checkRange .type 0 4 type] (.bus (setFloppyBody p i (BitVec.ofInt 4 type))))

/-- The meaning of SET_FLOPPY. -/
def execSetFloppy (drive : Byte) (type : Int) (s : State) : Host.Outcome State Fault Refusal :=
    .next (runOperation (setFloppyOp s.params drive type) s)

/-- The bus part of GET_HARDDISK; type 15 reads the drive's extended cell. -/
def getHarddiskBody (p : Params) (second : Bool) : Bus (Value × List Warning) :=
  (memRead p.cfgMap.hdd).stmt fun b => .step <| .step <|
  if driveNibble second b = 0xF#4 then
    (memRead (if second then p.cfgMap.hddExt1 else p.cfgMap.hddExt0)).stmt fun e =>
    .pure (.hardDisk ⟨15, some e⟩, [])
  else .pure (.hardDisk ⟨(driveNibble second b).toNat, none⟩, [])

/-- `GET_HARDDISK drive` (44_config_fields.md R290). -/
def getHarddiskOp (p : Params) (drive : Byte) : Operation :=
  withOperand .drive (selIndex drive) (fun i => .bus (getHarddiskBody p i))

/-- The meaning of GET_HARDDISK. -/
def execGetHarddisk (drive : Byte) (s : State) : Host.Outcome State Fault Refusal :=
    .next (runOperation (getHarddiskOp s.params drive) s)

/-- The bus part of SET_HARDDISK: the extended cell is not written. -/
def setHarddiskBody (p : Params) (second : Bool) (t : Nibble) : Bus (Value × List Warning) :=
  (memRead p.cfgMap.hdd).stmt fun b => .step <|
  (memWrite p.cfgMap.hdd (withDriveNibble second b t)).stmt fun _ =>
  (ckUpdate p).stmt fun _ =>
  .pure (.unit, [])

/-- `SET_HARDDISK drive, type` (44_config_fields.md R292). -/
def setHarddiskOp (p : Params) (drive : Byte) (type : Int) : Operation :=
  withOperand .drive (selIndex drive) (fun i =>
    validated [checkRange .type 0 15 type] (.bus (setHarddiskBody p i (BitVec.ofInt 4 type))))

/-- The meaning of SET_HARDDISK. -/
def execSetHarddisk (drive : Byte) (type : Int) (s : State) : Host.Outcome State Fault Refusal :=
    .next (runOperation (setHarddiskOp s.params drive type) s)

/-- The record GET_EQUIP builds from the equipment byte (44_config_fields.md R296). -/
def equipRecord (e : Byte) : EquipRecord where
  floppyPresent := e.getLsbD 0
  fpu := e.getLsbD 1
  video := e.extractLsb' 4 2
  floppyCount := if e.getLsbD 0 then (e.extractLsb' 6 2).toNat + 1 else 0
  raw := e

/-- The bus part of GET_EQUIP. -/
def getEquipBody (p : Params) : Bus (Value × List Warning) :=
  (memRead p.cfgMap.equip).stmt fun e =>
  .pure (.equip (equipRecord e), [])

/-- `GET_EQUIP` (44_config_fields.md R296). -/
def getEquipOp (p : Params) : Operation :=
  .bus (getEquipBody p)

/-- The meaning of GET_EQUIP. -/
def execGetEquip (s : State) : Host.Outcome State Fault Refusal := .next (runOperation (getEquipOp s.params) s)

/-- The bus part of SET_EQUIP. -/
def setEquipBody (p : Params) (f : EquipField) (value : Nat) : Bus (Value × List Warning) :=
  (memRead p.cfgMap.equip).stmt fun e => .step <|
  (memWrite p.cfgMap.equip (withEquipField e f value)).stmt fun _ =>
  (ckUpdate p).stmt fun _ =>
  .pure (.unit, [])

/-- `SET_EQUIP field, value` (44_config_fields.md R299). -/
def setEquipOp (p : Params) (field : Byte) (value : Int) : Operation :=
  withOperand .field (equipFieldOf field) (fun f =>
    validated [checkIf (f = .fpu) (checkRange .value 0 1 value), checkIf (f = .video) (checkRange .value 0 3 value),
        checkIf (f = .floppyCount) (checkRange .value 0 4 value)]
      (.bus (setEquipBody p f value.toNat)))

/-- The meaning of SET_EQUIP. -/
def execSetEquip (field : Byte) (value : Int) (s : State) : Host.Outcome State Fault Refusal :=
    .next (runOperation (setEquipOp s.params field value) s)

/-- The bus part of GET_MEMWORD: low cell first, little-endian (20_memory.md R101). -/
def getMemwordBody (a : CellAddr × CellAddr) : Bus (Value × List Warning) :=
  .step <| (memRead a.1).stmt fun lo =>
  (memRead a.2).stmt fun hi =>
  .pure (.word (lo.setWidth 16 + (hi.setWidth 16 <<< 8)), [])

/-- `GET_MEMWORD which` (44_config_fields.md R305). -/
def getMemwordOp (p : Params) (which : Byte) : Operation :=
  withOperand .which (memwordOf p which) (fun a => .bus (getMemwordBody a))

/-- The meaning of GET_MEMWORD. -/
def execGetMemword (which : Byte) (s : State) : Host.Outcome State Fault Refusal :=
    .next (runOperation (getMemwordOp s.params which) s)

/-- The bus part of SET_MEMWORD: low byte first, no read first. -/
def setMemwordBody (p : Params) (a : CellAddr × CellAddr) (v : Word16) : Bus (Value × List Warning) :=
  .step <| (memWrite a.1 (v.extractLsb' 0 8)).stmt fun _ =>
  (memWrite a.2 (v.extractLsb' 8 8)).stmt fun _ =>
  (ckUpdate p).stmt fun _ =>
  .pure (.unit, [])

/-- `SET_MEMWORD which, value` (44_config_fields.md R307). -/
def setMemwordOp (p : Params) (which : Byte) (value : Int) : Operation :=
  withOperand .which (memwordOf p which) (fun a =>
    validated [checkRange .value 0 65535 value] (.bus (setMemwordBody p a (BitVec.ofInt 16 value))))

/-- The meaning of SET_MEMWORD. -/
def execSetMemword (which : Byte) (value : Int) (s : State) : Host.Outcome State Fault Refusal :=
    .next (runOperation (setMemwordOp s.params which value) s)

/-- The record GET_DIAG builds from the diagnostic byte (44_config_fields.md R312). -/
def diagRecord (d : Byte) : DiagRecord where
  raw := d
  flags := [d.getLsbD 0, d.getLsbD 1, d.getLsbD 2, d.getLsbD 3, d.getLsbD 4, d.getLsbD 5, d.getLsbD 6, d.getLsbD 7]
  healthy := d == 0x00#8

/-- The bus part of GET_DIAG. -/
def getDiagBody (p : Params) : Bus (Value × List Warning) :=
  (memRead p.cfgMap.diag).stmt fun d =>
  .pure (.diag (diagRecord d), [])

/-- `GET_DIAG` (44_config_fields.md R312). -/
def getDiagOp (p : Params) : Operation :=
  .bus (getDiagBody p)

/-- The meaning of GET_DIAG. -/
def execGetDiag (s : State) : Host.Outcome State Fault Refusal := .next (runOperation (getDiagOp s.params) s)

/-- The bus part of CLEAR_DIAG: an unconditional zero write, no checksum update. -/
def clearDiagBody (p : Params) : Bus (Value × List Warning) :=
  (memWrite p.cfgMap.diag 0x00#8).stmt fun _ =>
  .pure (.unit, [])

/-- `CLEAR_DIAG` (44_config_fields.md R313). -/
def clearDiagOp (p : Params) : Operation :=
  .bus (clearDiagBody p)

/-- The meaning of CLEAR_DIAG. -/
def execClearDiag (s : State) : Host.Outcome State Fault Refusal := .next (runOperation (clearDiagOp s.params) s)

/-- A shutdown byte decoded by `SHUTDOWN_TABLE` (44_config_fields.md R317, R318). -/
def shutdownCode (table : List (Byte × String)) (c : Byte) : ShutdownCode :=
  match table.lookup c with
  | some meaning => .known c meaning
  | none => .raw c

/-- The bus part of GET_SHUTDOWN. -/
def getShutdownBody (p : Params) : Bus (Value × List Warning) :=
  (memRead p.cfgMap.shutdown).stmt fun c =>
  .pure (.shutdown (shutdownCode p.shutdownTable c), [])

/-- `GET_SHUTDOWN` (44_config_fields.md R317). -/
def getShutdownOp (p : Params) : Operation :=
  .bus (getShutdownBody p)

/-- The meaning of GET_SHUTDOWN. -/
def execGetShutdown (s : State) : Host.Outcome State Fault Refusal := .next (runOperation (getShutdownOp s.params) s)

end Sys2Proof.Machine
end

