-- ==== Sys2Proof/Machine/LatchOps.lean ====
section
/-! DEFINITION. The Amstrad platform-identification reads: LATCH_READ, PLATFORM_STATUS (46_amstrad_latch.md). -/

namespace Sys2Proof.Machine

open Sys2Proof.Config

/-- The two nibbles read, in reading order, as one byte (46_amstrad_latch.md R351). -/
def combineNibbles (firstIsHi : Bool) (n1 n2 : Nibble) : Byte := if firstIsHi then n1 ++ n2 else n2 ++ n1

/-- The bus part of LATCH_READ: select, read, toggle, read, restore (46_amstrad_latch.md R351). -/
def latchReadBody (p : Params) (c : Channel) : Bus (Value × List Warning) :=
  .step <| .step <| .step <| (selRead p c).stmt fun s0 =>
  (selWrite p c (withBit s0 (p.latch c).selBit.val (p.latch c).firstSel)).stmt fun _ =>
  (nibRead p c).stmt fun n1 =>
  (selWrite p c (withBit s0 (p.latch c).selBit.val (!(p.latch c).firstSel))).stmt fun _ =>
  (nibRead p c).stmt fun n2 =>
  (selWrite p c s0).stmt fun _ => .step <| .step <|
  .pure (.byte (combineNibbles (p.latch c).firstIsHi n1 n2), [])

/-- `LATCH_READ channel` (46_amstrad_latch.md R351). -/
def latchReadOp (p : Params) (channel : Byte) : Operation :=
  withOperand .channel (channelOf channel) (fun c => .bus (latchReadBody p c))

/-- The meaning of LATCH_READ. -/
def execLatchRead (channel : Byte) (s : State) : Host.Outcome State Fault Refusal :=
    .next (runOperation (latchReadOp s.params channel) s)

/-- A code with its name, or unknown where the table has none (46_amstrad_latch.md R358, log entry 14). -/
def namedCode (code : Nat) : Option String → NamedCode
  | some name => .known code name
  | none => .unknown code

/-- The name of a display code; code 1 has none (46_amstrad_latch.md R358). -/
def displayName (p : Params) : Nat → Option String
  | 0 => p.dispName0
  | 2 => p.dispName2
  | 3 => p.dispName3
  | _ => none

/-- The display code: two bits of the platform status register (46_amstrad_latch.md R357). -/
def displayCode (p : Params) (v : Byte) : Nat :=
  (if v.getLsbD p.platDispHiBit.val then 2 else 0) + (if v.getLsbD p.platDispLoBit.val then 1 else 0)

/-- The language code: three bits of the platform status register (46_amstrad_latch.md R357). -/
def languageCode (p : Params) (v : Byte) : BitVec 3 := (v >>> p.platLangShift.val).setWidth 3

/-- The record PLATFORM_STATUS builds from the register's byte (46_amstrad_latch.md R357). -/
def platformRecord (p : Params) (v : Byte) : PlatformRecord where
  language := namedCode (languageCode p v).toNat (p.langName[(languageCode p v).toNat]'(languageCode p v).isLt)
  display := namedCode (displayCode p v) (displayName p (displayCode p v))
  dipLatchSelect := v.getLsbD p.platDipBit.val
  raw := v

/-- The bus part of PLATFORM_STATUS: one port read, no barrier. -/
def platformStatusBody (p : Params) : Bus (Value × List Warning) :=
  (Bus.request .platIn).stmt fun v => .step <| .step <| .step <|
  .pure (.platform (platformRecord p v), [])

/-- `PLATFORM_STATUS` (46_amstrad_latch.md R357). -/
def platformStatusOp (p : Params) : Operation :=
  .bus (platformStatusBody p)

/-- The meaning of PLATFORM_STATUS. -/
def execPlatformStatus (s : State) : Host.Outcome State Fault Refusal := .next (runOperation (platformStatusOp s.params) s)

end Sys2Proof.Machine
end

