-- ==== Sys2Proof/Machine/Snapshot.lean ====
section
/-! DEFINITION. Snapshot, import, factory reset and diff (47_snapshot.md). -/

namespace Sys2Proof.Machine

open Sys2Proof.Config

/-- All 64 cells, ascending (47_snapshot.md R370). -/
def allCells : List CellAddr := cellsFromTo 0x00#6 0x3F#6

/-- The bus part of EXPORT_SNAPSHOT: the poll, then every cell, Register C included. -/
def exportSnapshotBody (p : Params) : Bus (Value × List Warning) :=
  (waitUip p).stmt fun ws =>
  (memReadEach allCells).bind fun bs =>
  .pure (.snapshot bs, ws)

/-- `EXPORT_SNAPSHOT` (47_snapshot.md R371). -/
def exportSnapshotOp (p : Params) : Operation :=
  .bus (exportSnapshotBody p)

/-- The meaning of EXPORT_SNAPSHOT. -/
def execExportSnapshot (s : State) : Host.Outcome State Fault Refusal := .next (runOperation (exportSnapshotOp s.params) s)

/-- The byte an import writes to cell `a`: Register B with SET = 1, any other as in the data (47_snapshot.md R374, R376). -/
def importByte (p : Params) (data : List Byte) (a : CellAddr) : Byte :=
  if a = p.cellMap.regB then withSet (data.getD a.toNat 0x00#8) else data.getD a.toNat 0x00#8

/-- An import's pass over some cells: the `if` and, but for cells 12 and 13, the write (47_snapshot.md R374). -/
def importPass (p : Params) (data : List Byte) : List CellAddr → Bus Unit
  | [] => .pure ()
  | a :: r =>
    .step <|
    if a != REG_C && a != REG_D then (memWrite a (importByte p data a)).stmt fun _ => importPass p data r
    else importPass p data r

/-- The bus part of IMPORT_SNAPSHOT; the final Register B is the data's, SET cleared (47_snapshot.md R377). -/
def importSnapshotBody (p : Params) (data : List Byte) : Bus (Value × List Warning) :=
  .step <| (memRead p.cellMap.regB).stmt fun rb =>
  (memWrite p.cellMap.regB (withSet rb)).stmt fun _ =>
  (importPass p data allCells).bind fun _ =>
  (memWrite p.cellMap.regB (withoutSet (data.getD p.cellMap.regB.toNat 0x00#8))).stmt fun _ =>
  .pure (.unit, [])

/-- `IMPORT_SNAPSHOT data`: 64 or 128 bytes, of which the first 64 are used (47_snapshot.md R374, R375; 60_exceptions.md R405). -/
def importSnapshotOp (p : Params) (data : List Byte) : Operation :=
  if data.length = 64 ∨ data.length = 128 then .step (.bus (importSnapshotBody p data)) else .fails (.snapshotSize data.length)

/-- The meaning of IMPORT_SNAPSHOT. -/
def execImportSnapshot (data : List Byte) (s : State) : Host.Outcome State Fault Refusal :=
    .next (runOperation (importSnapshotOp s.params data) s)

/-- `FACTORY_TABLE`'s writes, ascending (47_snapshot.md R380). -/
def tableWrites (p : Params) : List (CellAddr × Byte) :=
  allCells.filterMap fun a => (p.factoryTable.lookup a).map fun v => (a, v)

/-- The zero writes of `FACTORY_ZERO_RANGES`, in the order given (47_snapshot.md R380). -/
def zeroWrites (p : Params) : List (CellAddr × Byte) :=
  (cellsFromTo p.zeroRange0.lo p.zeroRange0.hi ++ cellsFromTo p.zeroRange1.lo p.zeroRange1.hi).map fun a => (a, 0x00#8)

/-- The bus part of FACTORY_RESET: no halt bracket, no poll (47_snapshot.md R380, R382). DESIGN CHOICE (log entry 23): where the
table names a checksum cell, the update at the end overwrites the table's byte. -/
def factoryResetBody (p : Params) : Bus (Value × List Warning) :=
  (memWriteAll (tableWrites p)).bind fun _ =>
  (memWriteAll (zeroWrites p)).bind fun _ =>
  (ckUpdate p).stmt fun _ =>
  .pure (.unit, [])

/-- `FACTORY_RESET` (47_snapshot.md R380). -/
def factoryResetOp (p : Params) : Operation :=
  .bus (factoryResetBody p)

/-- The meaning of FACTORY_RESET. -/
def execFactoryReset (s : State) : Host.Outcome State Fault Refusal := .next (runOperation (factoryResetOp s.params) s)

/-- The differences of two byte strings from address `i` on, for `n` addresses (47_snapshot.md R385). -/
def diffFrom : (n : Nat) → (i : Nat) → (a b : List Byte) → List DiffEntry
  | 0, _, _, _ => []
  | n + 1, i, a, b =>
    if a.getD i 0x00#8 = b.getD i 0x00#8 then diffFrom n (i + 1) a b
    else ⟨i, a.getD i 0x00#8, b.getD i 0x00#8⟩ :: diffFrom n (i + 1) a b

/-- `DIFF a, b`: a pure comparison of the 64 bytes, in ascending address order (47_snapshot.md R385). -/
def diffOp (a b : List Byte) : Operation :=
  .steps 65 (.value (.diff (diffFrom 64 0 a b)))

/-- The meaning of DIFF. -/
def execDiff (a b : List Byte) (s : State) : Host.Outcome State Fault Refusal := .next (runOperation (diffOp a b) s)

end Sys2Proof.Machine
end

