-- ==== Sys2Proof/Machine/Status.lean ====
section
/-! DEFINITION. The status-register interpreter: READ_STATUS (43_status.md). -/

namespace Sys2Proof.Machine

open Sys2Proof.Config

/-- The record READ_STATUS builds from the four registers' bytes (43_status.md R260). -/
def statusRecord (a b c d : Byte) : StatusRecord where
  regA := decodeA a
  regB := decodeB b
  regC := decodeC c
  regD := decodeD d
  rawA := a
  rawB := b
  rawC := c
  rawD := d

/-- The bus part of READ_STATUS: A, B, C, D, once each; the read of C clears it (43_status.md R260, R261). -/
def readStatusBody (p : Params) : Bus (Value × List Warning) :=
  (memRead p.cellMap.regA).stmt fun a =>
  (memRead p.cellMap.regB).stmt fun b =>
  (memRead REG_C).stmt fun c =>
  (memRead REG_D).stmt fun d =>
  .pure (.status (statusRecord a b c d), [])

/-- `READ_STATUS` (43_status.md R260). -/
def readStatusOp (p : Params) : Operation :=
  .bus (readStatusBody p)

/-- The meaning of READ_STATUS. -/
def execReadStatus (s : State) : Host.Outcome State Fault Refusal := .next (runOperation (readStatusOp s.params) s)

end Sys2Proof.Machine
end

