-- ==== Sys2Proof/Machine/Store.lean ====
section
/-! DEFINITION. Raw store access: READ_CELL, WRITE_CELL (40_register_store.md). -/

namespace Sys2Proof.Machine

open Sys2Proof.Config

/-- The bus part of READ_CELL: `return MemRead(addr, 1)`, one statement. -/
def readCellBody (a : CellAddr) : Bus (Value × List Warning) :=
  (memRead a).bind fun v =>
  .pure (.byte v, [])

/-- `READ_CELL addr` (40_register_store.md R175). -/
def readCellOp (addr : Int) : Operation :=
  validated [checkRange .addr 0 63 addr] (.bus (readCellBody (maskAddr addr)))

/-- The meaning of READ_CELL. -/
def execReadCell (addr : Int) (s : State) : Host.Outcome State Fault Refusal := .next (runOperation (readCellOp addr) s)

/-- The bus part of WRITE_CELL. -/
def writeCellBody (a : CellAddr) (v : Byte) : Bus (Value × List Warning) :=
  (memWrite a v).stmt fun _ =>
  .pure (.unit, [])

/-- `WRITE_CELL addr, value`: no checksum update, no halt bracket (40_register_store.md R177, R178). -/
def writeCellOp (addr value : Int) : Operation :=
  validated [checkRange .addr 0 63 addr, checkRange .value 0 255 value]
    (.bus (writeCellBody (maskAddr addr) (BitVec.ofInt 8 value)))

/-- The meaning of WRITE_CELL. -/
def execWriteCell (addr value : Int) (s : State) : Host.Outcome State Fault Refusal :=
    .next (runOperation (writeCellOp addr value) s)

end Sys2Proof.Machine
end

