-- ==== Sys2Proof/Machine/TimeAlarm.lean ====
section
/-! DEFINITION. The time and alarm field encoder (42_time_alarm.md). -/

namespace Sys2Proof.Machine

open Sys2Proof.Config

/-- The record READ_TIME builds from Register B and the eight time cells (42_time_alarm.md R215). -/
def timeRecord (rb sec min hour dow dom month year century : Byte) : TimeRecord where
  seconds := decodeByte sec (dataMode rb)
  minutes := decodeByte min (dataMode rb)
  hours := readHour hour (dataMode rb) (hour24 rb)
  dayOfWeek := fieldUpTo 7 (decodeByte dow (dataMode rb))
  dayOfMonth := decodeByte dom (dataMode rb)
  month := fieldUpTo 12 (decodeByte month (dataMode rb))
  year2 := decodeByte year (dataMode rb)
  century := decodeByte century (dataMode rb)
  is24h := hour24 rb
  isBinary := rb.getLsbD 2

/-- The bus part of READ_TIME. -/
def readTimeBody (p : Params) : Bus (Value × List Warning) :=
  (waitUip p).stmt fun ws =>
  (memRead p.cellMap.regB).stmt fun rb => .step <| .step <|
  (memRead p.cellMap.sec).stmt fun sec =>
  (memRead p.cellMap.min).stmt fun min =>
  (memRead p.cellMap.hour).stmt fun hour =>
  (memRead p.cellMap.dow).stmt fun dow =>
  (memRead p.cellMap.dom).stmt fun dom =>
  (memRead p.cellMap.month).stmt fun month =>
  (memRead p.cellMap.year).stmt fun year =>
  (memRead p.centuryAddr).stmt fun century =>
  .pure (.time (timeRecord rb sec min hour dow dom month year century), ws)

/-- `READ_TIME` (42_time_alarm.md R215). -/
def readTimeOp (p : Params) : Operation :=
  .bus (readTimeBody p)

/-- The meaning of READ_TIME. -/
def execReadTime (s : State) : Host.Outcome State Fault Refusal := .next (runOperation (readTimeOp s.params) s)

/-- The bus part of WRITE_TIME. -/
def writeTimeBody (p : Params) (h m sec : Nat) : Bus (Value × List Warning) :=
  (haltBegin p).stmt fun rb => .step <| .step <|
  (memWrite p.cellMap.sec (encodeByte sec (dataMode rb))).stmt fun _ =>
  (memWrite p.cellMap.min (encodeByte m (dataMode rb))).stmt fun _ =>
  (memWrite p.cellMap.hour (writeHour h (dataMode rb) (hour24 rb))).stmt fun _ =>
  (haltEnd p rb).stmt fun _ =>
  .pure (.unit, [])

/-- `WRITE_TIME h, m, s` (42_time_alarm.md R225). -/
def writeTimeOp (p : Params) (h m sec : Int) : Operation :=
  validated [checkRange .h 0 23 h, checkRange .m 0 59 m, checkRange .s 0 59 sec]
    (.bus (writeTimeBody p h.toNat m.toNat sec.toNat))

/-- The meaning of WRITE_TIME. -/
def execWriteTime (h m sec : Int) (s : State) : Host.Outcome State Fault Refusal :=
    .next (runOperation (writeTimeOp s.params h m sec) s)

/-- The bus part of WRITE_DATE; the year is split into century and two-digit year (42_time_alarm.md R227). -/
def writeDateBody (p : Params) (day month year : Nat) : Bus (Value × List Warning) :=
  (haltBegin p).stmt fun rb => .step <|
  (memWrite p.cellMap.dom (encodeByte day (dataMode rb))).stmt fun _ =>
  (memWrite p.cellMap.month (encodeByte month (dataMode rb))).stmt fun _ =>
  (memWrite p.cellMap.year (encodeByte (year % 100) (dataMode rb))).stmt fun _ =>
  (memWrite p.centuryAddr (encodeByte (year / 100) (dataMode rb))).stmt fun _ =>
  (haltEnd p rb).stmt fun _ =>
  .pure (.unit, [])

/-- `WRITE_DATE day, month, year` (42_time_alarm.md R228). -/
def writeDateOp (p : Params) (day month year : Int) : Operation :=
  validated [checkRange .day 1 31 day, checkRange .month 1 12 month, checkRange .year 1980 2099 year]
    (.bus (writeDateBody p day.toNat month.toNat year.toNat))

/-- The meaning of WRITE_DATE. -/
def execWriteDate (day month year : Int) (s : State) : Host.Outcome State Fault Refusal :=
    .next (runOperation (writeDateOp s.params day month year) s)

/-- The bus part of WRITE_DOW. -/
def writeDowBody (p : Params) (n : Nat) : Bus (Value × List Warning) :=
  (haltBegin p).stmt fun rb => .step <|
  (memWrite p.cellMap.dow (encodeByte n (dataMode rb))).stmt fun _ =>
  (haltEnd p rb).stmt fun _ =>
  .pure (.unit, [])

/-- `WRITE_DOW n` (42_time_alarm.md R231). -/
def writeDowOp (p : Params) (n : Int) : Operation :=
  validated [checkRange .n 1 7 n] (.bus (writeDowBody p n.toNat))

/-- The meaning of WRITE_DOW. -/
def execWriteDow (n : Int) (s : State) : Host.Outcome State Fault Refusal := .next (runOperation (writeDowOp s.params n) s)

/-- The record READ_ALARM builds from Register B and the three alarm cells (42_time_alarm.md R235). -/
def alarmRecord (rb sec min hour : Byte) : AlarmRecord where
  hours := alarmField hour (readHour hour (dataMode rb) (hour24 rb))
  minutes := alarmField min (decodeByte min (dataMode rb))
  seconds := alarmField sec (decodeByte sec (dataMode rb))

/-- The bus part of READ_ALARM. -/
def readAlarmBody (p : Params) : Bus (Value × List Warning) :=
  (waitUip p).stmt fun ws =>
  (memRead p.cellMap.regB).stmt fun rb => .step <| .step <|
  (memRead p.cellMap.secAlm).stmt fun sec =>
  (memRead p.cellMap.minAlm).stmt fun min =>
  (memRead p.cellMap.hourAlm).stmt fun hour =>
  .pure (.alarm (alarmRecord rb sec min hour), ws)

/-- `READ_ALARM` (42_time_alarm.md R235). -/
def readAlarmOp (p : Params) : Operation :=
  .bus (readAlarmBody p)

/-- The meaning of READ_ALARM. -/
def execReadAlarm (s : State) : Host.Outcome State Fault Refusal := .next (runOperation (readAlarmOp s.params) s)

/-- The bus part of WRITE_ALARM. -/
def writeAlarmBody (p : Params) (h m sec : Int) : Bus (Value × List Warning) :=
  (haltBegin p).stmt fun rb => .step <| .step <|
  (memWrite p.cellMap.secAlm (alarmByte sec (dataMode rb))).stmt fun _ =>
  (memWrite p.cellMap.minAlm (alarmByte m (dataMode rb))).stmt fun _ =>
  (memWrite p.cellMap.hourAlm (alarmHourByte h (dataMode rb) (hour24 rb))).stmt fun _ =>
  (haltEnd p rb).stmt fun _ =>
  .pure (.unit, [])

/-- `WRITE_ALARM h, m, s`, each −1 for a wildcard (42_time_alarm.md R241). -/
def writeAlarmOp (p : Params) (h m sec : Int) : Operation :=
  validated [checkAlarm .h 23 h, checkAlarm .m 59 m, checkAlarm .s 59 sec]
    (.bus (writeAlarmBody p h m sec))

/-- The meaning of WRITE_ALARM. -/
def execWriteAlarm (h m sec : Int) (s : State) : Host.Outcome State Fault Refusal :=
    .next (runOperation (writeAlarmOp s.params h m sec) s)

/-- The bus part of SET_ALARM_ENABLED: no halt bracket, no poll. -/
def setAlarmEnabledBody (p : Params) (enable : Bool) : Bus (Value × List Warning) :=
  (memRead p.cellMap.regB).stmt fun rb =>
  (memWrite p.cellMap.regB (withAie rb enable)).stmt fun _ =>
  .pure (.unit, [])

/-- `SET_ALARM_ENABLED enable` (42_time_alarm.md R245). -/
def setAlarmEnabledOp (p : Params) (enable : Byte) : Operation :=
  withOperand .enable (enableOf enable) (fun e => .bus (setAlarmEnabledBody p e))

/-- The meaning of SET_ALARM_ENABLED. -/
def execSetAlarmEnabled (enable : Byte) (s : State) : Host.Outcome State Fault Refusal :=
    .next (runOperation (setAlarmEnabledOp s.params enable) s)

end Sys2Proof.Machine
end

