-- ==== Sys2Proof/Machine/Dispatch.lean ====
section
/-! DEFINITION. The meaning of each operation, one arm per constructor. -/

namespace Sys2Proof.Machine

/-- Run one operation to completion (20_memory.md R120). -/
def exec (i : Instr) (s : State) : Host.Outcome State Fault Refusal :=
  match i with
  | .readCell addr => Sys2Proof.Machine.execReadCell addr s
  | .writeCell addr value => Sys2Proof.Machine.execWriteCell addr value s
  | .bcdDecode raw mode => Sys2Proof.Machine.execBcdDecode raw mode s
  | .bcdEncode n mode => Sys2Proof.Machine.execBcdEncode n mode s
  | .readTime => Sys2Proof.Machine.execReadTime s
  | .writeTime h m sec => Sys2Proof.Machine.execWriteTime h m sec s
  | .writeDate day month year => Sys2Proof.Machine.execWriteDate day month year s
  | .writeDow n => Sys2Proof.Machine.execWriteDow n s
  | .readAlarm => Sys2Proof.Machine.execReadAlarm s
  | .writeAlarm h m sec => Sys2Proof.Machine.execWriteAlarm h m sec s
  | .setAlarmEnabled enable => Sys2Proof.Machine.execSetAlarmEnabled enable s
  | .readStatus => Sys2Proof.Machine.execReadStatus s
  | .getFloppy drive => Sys2Proof.Machine.execGetFloppy drive s
  | .setFloppy drive type => Sys2Proof.Machine.execSetFloppy drive type s
  | .getHarddisk drive => Sys2Proof.Machine.execGetHarddisk drive s
  | .setHarddisk drive type => Sys2Proof.Machine.execSetHarddisk drive type s
  | .getEquip => Sys2Proof.Machine.execGetEquip s
  | .setEquip field value => Sys2Proof.Machine.execSetEquip field value s
  | .getMemword which => Sys2Proof.Machine.execGetMemword which s
  | .setMemword which value => Sys2Proof.Machine.execSetMemword which value s
  | .getDiag => Sys2Proof.Machine.execGetDiag s
  | .clearDiag => Sys2Proof.Machine.execClearDiag s
  | .getShutdown => Sys2Proof.Machine.execGetShutdown s
  | .ckCompute => Sys2Proof.Machine.execCkCompute s
  | .ckVerify => Sys2Proof.Machine.execCkVerify s
  | .ckUpdate => Sys2Proof.Machine.execCkUpdate s
  | .latchRead channel => Sys2Proof.Machine.execLatchRead channel s
  | .platformStatus => Sys2Proof.Machine.execPlatformStatus s
  | .exportSnapshot => Sys2Proof.Machine.execExportSnapshot s
  | .importSnapshot data => Sys2Proof.Machine.execImportSnapshot data s
  | .factoryReset => Sys2Proof.Machine.execFactoryReset s
  | .diff a b => Sys2Proof.Machine.execDiff a b s

end Sys2Proof.Machine
end

