-- ==== Sys2Proof/Machine/BusSteps.lean ====
section
/-! DEFINITION. An operation statement by statement: accepted with step index 0, one statement of its pseudocode a step, ended at
its outcome (10_state.md R40, R42; log entry 1); and the same bus event by bus event (20_memory.md R119). The whole operation of
`exec` is these steps one after the other. -/

namespace Sys2Proof.Machine

open Sys2Proof.Config

/-- What each request comes to, with the parameters of the launch: the operation its meaning runs. -/
def operation (p : Params) : Instr → Operation
  | .readCell addr => readCellOp addr
  | .writeCell addr value => writeCellOp addr value
  | .bcdDecode raw mode => bcdDecodeOp raw mode
  | .bcdEncode n mode => bcdEncodeOp n mode
  | .readTime => readTimeOp p
  | .writeTime h m sec => writeTimeOp p h m sec
  | .writeDate day month year => writeDateOp p day month year
  | .writeDow n => writeDowOp p n
  | .readAlarm => readAlarmOp p
  | .writeAlarm h m sec => writeAlarmOp p h m sec
  | .setAlarmEnabled enable => setAlarmEnabledOp p enable
  | .readStatus => readStatusOp p
  | .getFloppy drive => getFloppyOp p drive
  | .setFloppy drive type => setFloppyOp p drive type
  | .getHarddisk drive => getHarddiskOp p drive
  | .setHarddisk drive type => setHarddiskOp p drive type
  | .getEquip => getEquipOp p
  | .setEquip field value => setEquipOp p field value
  | .getMemword which => getMemwordOp p which
  | .setMemword which value => setMemwordOp p which value
  | .getDiag => getDiagOp p
  | .clearDiag => clearDiagOp p
  | .getShutdown => getShutdownOp p
  | .ckCompute => ckComputeOp
  | .ckVerify => ckVerifyOp p
  | .ckUpdate => ckUpdateOp p
  | .latchRead channel => latchReadOp p channel
  | .platformStatus => platformStatusOp p
  | .exportSnapshot => exportSnapshotOp p
  | .importSnapshot data => importSnapshotOp p data
  | .factoryReset => factoryResetOp p
  | .diff a b => diffOp a b

/-- What a recorded event answered the block. -/
def BusEvent.answer : BusEvent → Byte
  | .out _ _ => 0x00#8
  | .inp _ v => v
  | .barrier => 0x00#8

/-- The answers the operation under way has had: the locals it holds (10_state.md R41). -/
def State.answers (s : State) : List Byte := s.trace.map BusEvent.answer

/-- The host's request is accepted: the operation is at its first statement (10_state.md R42). -/
def accept (i : Instr) (s : State) : State := { s with running := some ⟨i, 0⟩, trace := [], outcome := none }

/-- What is left of an operation after some statements and some answers. -/
def Operation.after : Operation → (statements : Nat) → (answers : List Byte) → Operation
  | .step o, 0, _ => .step o
  | .step o, k + 1, l => o.after k l
  | .fails e, _, _ => .fails e
  | .value v, _, _ => .value v
  | .bus b, k, l => .bus (b.after k l)

/-- What is left of the operation under way. -/
def State.rest (s : State) (r : Running) : Operation := (operation s.params r.instr).after r.stepIndex s.answers

/-- The operation under way goes on from a point of its program: inside the same statement, at the next statement (10_state.md
R42), or ended with its value. -/
inductive Reached where
  | inside
  | next
  | ended (v : Value × List Warning)

/-- One bus event of what is left, or the end of a statement that has no more of them. -/
def Bus.event : Bus (Value × List Warning) → State → Reached × State
  | .pure v, s => (.ended v, s)
  | .ask q _, s => (.inside, (perform q s).2)
  | .step _, s => (.next, s)

/-- What is left of the statement the operation is at: its bus events, to the next statement or the end. -/
def Bus.statement : Bus (Value × List Warning) → State → Reached × State
  | .pure v, s => (.ended v, s)
  | .ask q next, s => (next (perform q s).1).statement (perform q s).2
  | .step _, s => (.next, s)

/-- The state in which the operation under way has reached a point of its program. -/
def reach (r : Running) : Reached × State → State
  | (.inside, s) => s
  | (.next, s) => { s with running := some ⟨r.instr, r.stepIndex + 1⟩ }
  | (.ended v, s) => finish (.ok v.1 v.2) s

/-- Whether a program is at a bus primitive. -/
def Bus.isAsk {α : Type} : Bus α → Bool
  | .ask _ _ => true
  | _ => false

/-- The operation under way goes on by one piece of its program; `return` and `raise` end it (10_state.md R42). Where the platform
denies port access, its first bus primitive raises (60_exceptions.md R404). -/
def advance (piece : Bus (Value × List Warning) → State → Reached × State) (r : Running) (s : State) : State :=
  match s.rest r with
  | .step _ => reach r (.next, s)
  | .fails e => raise e s
  | .value v => runPure v s
  | .bus b => if b.isAsk && !s.ioPermitted then raise .portAccessDenied s else reach r (piece b s)

/-- The block's step: the operation under way takes one statement, and the step index goes up by one (10_state.md R40, R42). With
none under way nothing happens (the clock agent's turn between operations is `idle`). -/
def blockStep (s : State) : State :=
  match s.running with
  | none => s
  | some r => advance Bus.statement r s

/-- The same at the grain of bus events, between any two of which the clock agent may step (20_memory.md R119): one bus event of
the statement, or, with no more of them, its end. -/
def busStep (s : State) : State :=
  match s.running with
  | none => s
  | some r => advance Bus.event r s

/-- The operation under way run to its end. -/
def resume (r : Running) (s : State) : State := (s.rest r).run s

end Sys2Proof.Machine
end

