-- ==== Sys2Proof/Machine/Step.lean ====
section
/-! DEFINITION. One step of the machine: the host issues its next request and the block runs it to completion; with no request
the block waits. -/

namespace Sys2Proof.Machine

/-- One step (20_memory.md R120, R129; 60_exceptions.md R401; 70_reset_and_hazards.md R451). An operation that is under way is
run to its end first (log entry 1). -/
def step (s : State) : Host.Outcome State Fault Refusal :=
  match s.running with
  | some r => .next (resume r s)
  | none =>
    match takeRequest s with
    | none => .next (idle s)
    | some (bytes, s') =>
      match decode bytes with
      | .ok (i, _) => exec i s'
      | .error _ => .next (rejectRequest s')

/-- The state in which the host issues next the request whose first `nbits` bits are `w`, no operation being under way (log
entry 6). -/
def State.withFetchWord (s : State) (nbits w : Nat) : State :=
  { s with requests := tableRequest nbits w :: s.requests, running := none }

end Sys2Proof.Machine
end

