-- ==== Sys2Proof/Safety.lean ====
section
/-! DEFINITION. The terms the claims use: which cells the clock agent may change, quiet draws, the events of a transaction, the
cells an operation stores to, and the invariant. -/

namespace Sys2Proof.Machine

open Sys2Proof.Config

/-! ## What the clock agent owns (10_state.md R85) -/

/-- The time cells the clock agent may replace while SET is clear (10_state.md R85.2). -/
def timeCell (a : CellAddr) : Bool :=
  a == SEC || a == MIN || a == HOUR || a == DOW || a == DOM || a == MONTH || a == YEAR

/-- The cells the clock agent may change: the time cells and Register C (10_state.md R85). -/
def agentCell (a : CellAddr) : Bool := timeCell a || a == REG_C

/-- The step in which the clock agent does nothing. -/
def ClockAct.none : ClockAct := ⟨.none, .none, .none, .none, .none, .none, .none, .none, .none⟩

/-- A draw in which the clock agent does nothing and the reserved bits of Registers C and D read as stored. -/
abbrev quietDraw (d : Draw) : Prop := d.clock = ClockAct.none ∧ d.cLow = .none ∧ d.dLow = .none

/-- The environment's next `n` draws are in the script and are quiet: "the clock agent takes no step" (95_test_vectors.md
section 0). -/
abbrev State.QuietFor (s : State) (n : Nat) : Prop := n ≤ s.script.length ∧ ∀ d ∈ s.script.take n, quietDraw d

/-- The clock agent cannot change cell `a` before the next `n` bus events: it is not its cell; or it is a time cell and SET is 1
(10_state.md R56, R85); or the draws are quiet. -/
def State.Steady (s : State) (a : CellAddr) (n : Nat) : Prop :=
  agentCell a = false ∨ (timeCell a = true ∧ setFlag (s.x REG_B) = true) ∨ s.QuietFor n

/-! ## Cells as the block reads them -/

/-- A read of cell `a` shows the store: an RTC answers, and the cell is none of the chip's Registers A, C, D (10_state.md R81). -/
abbrev State.readsPlain (s : State) (a : CellAddr) : Prop :=
  s.rtcPresent = true ∧ a ≠ REG_A ∧ a ≠ REG_C ∧ a ≠ REG_D

/-- A write of cell `a` stores the byte: the cell is none of the chip's Registers A to D (10_state.md R82). -/
abbrev storesPlain (a : CellAddr) : Prop := a ≠ REG_A ∧ a ≠ REG_B ∧ a ≠ REG_C ∧ a ≠ REG_D

/-- What a write of `v` leaves in the cell it addresses (10_state.md R82). -/
def storedByte (clears : Bool) (a : CellAddr) (old v : Byte) : Byte :=
  if a = REG_A then storedA old v else if a = REG_B then storedB clears v
  else if a = REG_C ∨ a = REG_D then old else v

/-- The maps are the chip's: `REG_A` and `REG_B` are its own Registers A and B, the seven time cells are its own, in any order,
no two named cells are one, and no named cell is 12 or 13. The defaults are so; the spec does not ask it of other maps, and the
statements that need it say so (log entry 5). -/
def fitsChip (p : Params) : Bool :=
  p.cellMap.regA == REG_A && p.cellMap.regB == REG_B && decide p.namedCells.Nodup &&
  (p.namedCells.all fun a => a != REG_C && a != REG_D) &&
  [SEC, MIN, HOUR, DOW, DOM, MONTH, YEAR].all fun a => p.timeCells.contains a

/-- The sum of the covered cells as the device holds them (45_checksum.md R330). -/
def State.coveredSum (s : State) : Word16 := sumBytes 0#16 (coveredCells.map s.x)

/-- The checksum as the device holds it: `x[CK_HI_ADDR] : x[CK_LO_ADDR]` (45_checksum.md R332). -/
def State.storedSum (s : State) : Word16 := s.x s.params.ckHiAddr ++ s.x s.params.ckLoAddr

/-! ## Traces (40_register_store.md R171, R173) -/

/-- The events of one store read: `R(a)=v` of 95_test_vectors.md. -/
def readEvents (p : Params) (a : CellAddr) (v : Byte) : List BusEvent :=
  [.out p.rtcAddrPort (a.setWidth 8), .barrier, .inp p.rtcDataPort v]

/-- The events of one store write: `W(a,v)` of 95_test_vectors.md. -/
def writeEvents (p : Params) (a : CellAddr) (v : Byte) : List BusEvent :=
  [.out p.rtcAddrPort (a.setWidth 8), .barrier, .out p.rtcDataPort v, .barrier]

/-- The events of store reads of cells, in order, with the bytes read. -/
def readAllEvents (p : Params) : List CellAddr → List Byte → List BusEvent
  | a :: l, v :: vs => readEvents p a v ++ readAllEvents p l vs
  | _, _ => []

/-- The events of store writes, in order. -/
def writeAllEvents (p : Params) : List (CellAddr × Byte) → List BusEvent
  | [] => []
  | e :: l => writeEvents p e.1 e.2 ++ writeAllEvents p l

/-- The events of polls of Register A with the bytes read. -/
def pollEvents (p : Params) (polls : List Byte) : List BusEvent := polls.flatMap (readEvents p p.cellMap.regA)

/-- A run of the poll of 42_time_alarm.md R211 within a budget: every byte but the last shows UIP; the last shows it clear and
no warning is given, or the budget is used up and the warning is given. -/
def pollRun (budget : Nat) (polls : List Byte) (ws : List Warning) : Prop :=
  (∃ l a, polls = l ++ [a] ∧ l.length < budget ∧ (∀ v ∈ l, uipFlag v = true) ∧ uipFlag a = false ∧ ws = []) ∨
  (polls.length = budget ∧ (∀ v ∈ polls, uipFlag v = true) ∧ ws = [.uipTimeout])

/-- The events of a checksum update over the covered cells as `s` has them: 30 reads, then the sum, high byte first
(45_checksum.md R330, R337). -/
def State.ckUpdateEvents (s : State) : List BusEvent :=
  readAllEvents s.params coveredCells (coveredCells.map s.x) ++
  (writeEvents s.params s.params.ckHiAddr (s.coveredSum.extractLsb' 8 8) ++
    writeEvents s.params s.params.ckLoAddr (s.coveredSum.extractLsb' 0 8))

/-! ## Frames -/

/-- Channel `c`'s selector cell, under the STORE transport (10_state.md R90). -/
def selectorCells (p : Params) (c : Channel) : List CellAddr :=
  match (p.latch c).transport with
  | .port _ _ => []
  | .store sel _ => [sel]

/-- The checksum cells. -/
def checksumCells (p : Params) : List CellAddr := [p.ckHiAddr, p.ckLoAddr]

/-- Of some cells read, those the read clears: Register C (10_state.md R60). -/
def clearedCells (l : List CellAddr) : List CellAddr := l.filter fun a => a == REG_C

/-- The writes of an import's pass: every cell but 12 and 13, ascending (47_snapshot.md R374). -/
def importWrites (p : Params) (data : List Byte) : List (CellAddr × Byte) :=
  (allCells.filter fun a => a != REG_C && a != REG_D).map fun a => (a, importByte p data a)

/-- The cells an operation stores to, computed as its meaning computes them. -/
def storedCells (p : Params) : Instr → List CellAddr
  | .readCell _ => []
  | .writeCell addr _ => [maskAddr addr]
  | .bcdDecode _ _ => []
  | .bcdEncode _ _ => []
  | .readTime => []
  | .writeTime _ _ _ => [p.cellMap.regB, p.cellMap.sec, p.cellMap.min, p.cellMap.hour]
  | .writeDate _ _ _ => [p.cellMap.regB, p.cellMap.dom, p.cellMap.month, p.cellMap.year, p.centuryAddr]
  | .writeDow _ => [p.cellMap.regB, p.cellMap.dow]
  | .readAlarm => []
  | .writeAlarm _ _ _ => [p.cellMap.regB, p.cellMap.secAlm, p.cellMap.minAlm, p.cellMap.hourAlm]
  | .setAlarmEnabled _ => [p.cellMap.regB]
  | .readStatus => []
  | .getFloppy _ => []
  | .setFloppy _ _ => p.cfgMap.floppy :: checksumCells p
  | .getHarddisk _ => []
  | .setHarddisk _ _ => p.cfgMap.hdd :: checksumCells p
  | .getEquip => []
  | .setEquip _ _ => p.cfgMap.equip :: checksumCells p
  | .getMemword _ => []
  | .setMemword which _ =>
    match memwordOf p which with
    | some a => a.1 :: a.2 :: checksumCells p
    | none => []
  | .getDiag => []
  | .clearDiag => [p.cfgMap.diag]
  | .getShutdown => []
  | .ckCompute => []
  | .ckVerify => []
  | .ckUpdate => checksumCells p
  | .latchRead channel =>
    match channelOf channel with
    | some c => selectorCells p c
    | none => []
  | .platformStatus => []
  | .exportSnapshot => []
  | .importSnapshot data => p.cellMap.regB :: (importWrites p data).map Prod.fst
  | .factoryReset => (tableWrites p).map Prod.fst ++ (zeroWrites p).map Prod.fst ++ checksumCells p
  | .diff _ _ => []

/-- The two cells of channel `c`, under the STORE transport (10_state.md R90). -/
def channelCells (p : Params) (c : Channel) : List CellAddr :=
  match (p.latch c).transport with
  | .port _ _ => []
  | .store sel nib => [sel, nib]

/-- The cells an operation may read from the store. -/
def readCells (p : Params) : Instr → List CellAddr
  | .readCell addr => [maskAddr addr]
  | .writeCell _ _ => []
  | .bcdDecode _ _ => []
  | .bcdEncode _ _ => []
  | .readTime => [p.cellMap.regA, p.cellMap.regB, p.cellMap.sec, p.cellMap.min, p.cellMap.hour, p.cellMap.dow,
      p.cellMap.dom, p.cellMap.month, p.cellMap.year, p.centuryAddr]
  | .writeTime _ _ _ => [p.cellMap.regB]
  | .writeDate _ _ _ => [p.cellMap.regB]
  | .writeDow _ => [p.cellMap.regB]
  | .readAlarm => [p.cellMap.regA, p.cellMap.regB, p.cellMap.secAlm, p.cellMap.minAlm, p.cellMap.hourAlm]
  | .writeAlarm _ _ _ => [p.cellMap.regB]
  | .setAlarmEnabled _ => [p.cellMap.regB]
  | .readStatus => [p.cellMap.regA, p.cellMap.regB, REG_C, REG_D]
  | .getFloppy _ => [p.cfgMap.floppy]
  | .setFloppy _ _ => p.cfgMap.floppy :: coveredCells
  | .getHarddisk _ => [p.cfgMap.hdd, p.cfgMap.hddExt0, p.cfgMap.hddExt1]
  | .setHarddisk _ _ => p.cfgMap.hdd :: coveredCells
  | .getEquip => [p.cfgMap.equip]
  | .setEquip _ _ => p.cfgMap.equip :: coveredCells
  | .getMemword which =>
    match memwordOf p which with
    | some a => [a.1, a.2]
    | none => []
  | .setMemword _ _ => coveredCells
  | .getDiag => [p.cfgMap.diag]
  | .clearDiag => []
  | .getShutdown => [p.cfgMap.shutdown]
  | .ckCompute => coveredCells
  | .ckVerify => coveredCells ++ checksumCells p
  | .ckUpdate => coveredCells
  | .latchRead channel =>
    match channelOf channel with
    | some c => channelCells p c
    | none => []
  | .platformStatus => []
  | .exportSnapshot => p.cellMap.regA :: allCells
  | .importSnapshot _ => [p.cellMap.regB]
  | .factoryReset => coveredCells
  | .diff _ _ => []

/-- The operations without bus events (60_exceptions.md R404). -/
def isPure : Instr → Bool
  | .bcdDecode _ _ => true
  | .bcdEncode _ _ => true
  | .diff _ _ => true
  | _ => false

/-- The launch inputs and the requests not yet issued are the same (10_state.md R96, 70_reset_and_hazards.md R455). -/
structure State.SameLaunch (s t : State) : Prop where
  rtcPresent : t.rtcPresent = s.rtcPresent
  latch0 : t.latch0 = s.latch0
  latch1 : t.latch1 = s.latch1
  plat : t.plat = s.plat
  ioPermitted : t.ioPermitted = s.ioPermitted
  params : t.params = s.params
  requests : t.requests = s.requests

/-- From `s` an operation came to `t` with the value `v`, the warnings `ws` and the trace `tr`, and apart from the store cells
`cells` it changed nothing: every launch input is the same, and so is every other cell the clock agent could not change (where
the operation writes Register B, SET = 1 at its start keeps no time cell still); with quiet draws `uip_now` is the same too. -/
structure State.Returned (s t : State) (v : Value) (ws : List Warning) (tr : List BusEvent) (cells : List CellAddr) : Prop where
  outcome : t.outcome = some (.ok v ws)
  ended : t.running = none
  trace : t.trace = tr
  launch : s.SameLaunch t
  kept : ∀ a, a ∉ cells → s.Steady a tr.length →
    (REG_B ∈ cells → timeCell a = false ∨ s.QuietFor tr.length) → t.x a = s.x a
  uipNow : s.QuietFor tr.length → t.uipNow = s.uipNow

/-- What a failed operation leaves: its outcome, an empty trace, and all else as it was (60_exceptions.md R406, R410). -/
def State.failed (s : State) (e : OpError) : State := { s with running := none, trace := [], outcome := some (.err e) }

/-- What an operation without bus events leaves: its value, an empty trace, and all else as it was (41_bcd_codec.md R194). -/
def State.answered (s : State) (v : Value) : State := { s with running := none, trace := [], outcome := some (.ok v []) }

/-- The cell the address port selected last, from `a` on (10_state.md R80, R83). -/
def lastSelect (p : Params) (a : CellAddr) : List BusEvent → CellAddr
  | [] => a
  | .out q v :: l => if q = p.rtcAddrPort then lastSelect p (v.setWidth 6) l else lastSelect p a l
  | .inp _ _ :: l => lastSelect p a l
  | .barrier :: l => lastSelect p a l

/-! ## The invariant -/

/-- The store is in its canonical form. -/
def State.Inv (s : State) : Prop := s.cells.wf = true

end Sys2Proof.Machine

/-! ## The spec's own formulas, written again for the statements -/

namespace Sys2Proof.Spec

open Sys2Proof.Config Sys2Proof.Machine

/-- The operation codes of 30_encoding.md R145. -/
def operationCodes : List Byte :=
  [0x01#8, 0x02#8, 0x03#8, 0x04#8, 0x10#8, 0x11#8, 0x12#8, 0x13#8, 0x14#8, 0x15#8, 0x16#8, 0x20#8, 0x30#8, 0x31#8, 0x32#8,
   0x33#8] ++
  [0x34#8, 0x35#8, 0x36#8, 0x37#8, 0x38#8, 0x39#8, 0x3A#8, 0x40#8, 0x41#8, 0x42#8, 0x50#8, 0x51#8, 0x60#8, 0x61#8, 0x62#8,
   0x63#8]

/-- The drive selectors of 44_config_fields.md R283: 'A' and '0' the first drive, 'B' and '1' the second. -/
def driveCode (second : Bool) (d : Byte) : Prop :=
  if second then d = 0x42#8 ∨ d = 0x31#8 else d = 0x41#8 ∨ d = 0x30#8

/-- The mode of a snapshot of Register B: bit 2 set is binary (41_bcd_codec.md R196). -/
def modeOf (rb : Byte) : Mode := if rb.getLsbD 2 then .bin else .bcd

/-- `Known(v)` up to `max`, `Unknown(v)` above (42_time_alarm.md R218). -/
def rangeChecked (v max : Nat) : Field := if v > max then .unknown v else .known v

/-- The halt bracket's events around some writes, with the Register B value read (42_time_alarm.md R212). -/
def bracket (p : Params) (rb : Byte) (writes : List (CellAddr × Byte)) : List BusEvent :=
  readEvents p p.cellMap.regB rb ++ (writeEvents p p.cellMap.regB (rb ||| 0x80#8) ++ (writeAllEvents p writes ++
    writeEvents p p.cellMap.regB (rb &&& 0x7F#8)))

/-- What a bracketed writer does, for every map: Register B's cell is read, the cells are written between SET = 1 and SET = 0, and
nothing else is changed; where the maps are the chip's, Register B ends as read with SET = 0, and the cells hold the bytes (those
the clock agent owns: if it takes no step). -/
def Brackets (i : Instr) (writes : Params → Byte → List (CellAddr × Byte)) : Prop :=
  ∀ s : State, s.ioPermitted = true → ∃ t rb, exec i s = .next t ∧
    s.Returned t .unit [] (bracket s.params rb (writes s.params rb))
      (s.params.cellMap.regB :: (writes s.params rb).map Prod.fst) ∧
    (s.readsPlain s.params.cellMap.regB → s.Steady s.params.cellMap.regB 3 → rb = s.x s.params.cellMap.regB) ∧
    (s.rtcPresent = true → fitsChip s.params = true → t.x REG_B = rb &&& 0x7F#8 ∧
      ∀ e ∈ writes s.params rb, agentCell e.1 = false ∨ s.QuietFor t.trace.length → t.x e.1 = e.2)

/-- An alarm operand's byte: 0xC0 for −1, else the encoded number (42_time_alarm.md R241). -/
def alarmByteOf (v : Int) (encoded : Byte) : Byte := if v = -1 then 0xC0#8 else encoded

/-- An alarm cell decoded: a wildcard from 0xC0 on, by its raw byte (42_time_alarm.md R235, R236). -/
def alarmFieldOf (raw : Byte) (v : Nat) : AlarmField := if 0xC0 ≤ raw.toNat then .wildcard else .value v

/-- The rate in Hz of an RS value: none for 0; 256 and 128 for 1 and 2; `32768 >> (RS - 1)` from 3 on (10_state.md R53). -/
def rateOf (rs : Nat) : Option Nat :=
  if rs = 0 then none else if rs = 1 then some 256 else if rs = 2 then some 128 else some (32768 >>> (rs - 1))

/-- The nibble of a drive byte: the high one for the first drive (44_config_fields.md R283, R285). -/
def nibbleOf (second : Bool) (b : Byte) : Nat := if second then b.toNat % 16 else b.toNat / 16

/-- The drive byte with one drive's nibble replaced (44_config_fields.md R287, R292). -/
def withNibble (second : Bool) (b : Byte) (n : Nat) : Byte :=
  if second then (b &&& 0xF0#8) ||| BitVec.ofNat 8 n else (BitVec.ofNat 8 n <<< 4) ||| (b &&& 0x0F#8)

/-- The equipment byte with a field set: 0 is fpu, 1 video, 2 the floppy count, which carries bit 0 (44_config_fields.md R299). -/
def withEquip (e : Byte) (field n : Nat) : Byte :=
  if field = 0 then (e &&& ~~~0x02#8) ||| (BitVec.ofNat 8 n <<< 1)
  else if field = 1 then (e &&& ~~~0x30#8) ||| (BitVec.ofNat 8 n <<< 4)
  else if n = 0 then e &&& ~~~0xC1#8
  else (e &&& ~~~0xC0#8) ||| (BitVec.ofNat 8 (n - 1) <<< 6) ||| 0x01#8

end Sys2Proof.Spec
end

