-- ==== Sys2Proof/Certificates/Slice0/Obligations.lean ====
section
/-! DEFINITION. The statements for the provers. "Quiet" draws are those of log entry 2 in which the clock agent does nothing;
a statement without them holds whatever the clock agent and the free draws do. -/

open Sys2Proof Sys2Proof.Machine Sys2Proof.Config

/-! ## Requests (30_encoding.md) -/

/-- Decoding the wire form of a well-formed request gives the request back, and leaves the bytes after it. -/
def Obligations.DecodeOfEncode : Prop :=
  ∀ (i : Instr) (rest : List Byte), i.wf = true → decode (encode i ++ rest) = .ok (i, rest)

/-- A byte string that decodes is the wire form of the request it decodes to, which is well-formed, and the bytes after it: no
byte of a request is read twice, dropped or ignored. -/
def Obligations.EncodeOfDecode : Prop :=
  ∀ (l rest : List Byte) (i : Instr), decode l = .ok (i, rest) → i.wf = true ∧ l = encode i ++ rest

/-- A request whose operation code is not one of the 32, and a request cut short before its last operand byte (an empty one has
no operation code), are invalid, and the outcome of an invalid request is `ValidationError(opcode)` with nothing else changed
(30_encoding.md R143, R154, 60_exceptions.md R401). -/
def Obligations.InvalidRequests : Prop :=
  decode [] = .error .empty ∧
  (∀ (op : Byte) (l : List Byte), op ∉ Spec.operationCodes → decode (op :: l) = .error (.unknownOpcode op)) ∧
  (∀ (i : Instr) (l : List Byte), i.wf = true → l ≠ [] → l <+: encode i → l ≠ encode i →
    decode l = .error (.cutShort i.opcode)) ∧
  (∀ (s : State) (b : List Byte) (r : List (List Byte)) (e : DecodeError), s.running = none → s.requests = b :: r →
    decode b = .error e → step s = .next (State.failed { s with requests := r } (.validation .opcode)))

/-- Some requests as the spec spells them: 30_encoding.md R141 and R145 byte by byte, negative and two's-complement operands
among them. A sanity statement. -/
def Obligations.WireWords : Prop :=
  decode [0x11#8, 0x0D#8, 0x00#8, 0x00#8, 0x00#8, 0x2D#8, 0x00#8, 0x00#8, 0x00#8, 0x1E#8, 0x00#8, 0x00#8, 0x00#8]
    = .ok (.writeTime 13 45 30, []) ∧
  decode [0x15#8, 0xFF#8, 0xFF#8, 0xFF#8, 0xFF#8, 0xFF#8, 0xFF#8, 0xFF#8, 0xFF#8, 0x00#8, 0x00#8, 0x00#8, 0x00#8]
    = .ok (.writeAlarm (-1) (-1) 0, []) ∧
  decode [0x31#8, 0x41#8, 0x04#8, 0x00#8, 0x00#8, 0x00#8] = .ok (.setFloppy 0x41#8 4, []) ∧
  decode [0x61#8, 0x02#8, 0x00#8, 0xAA#8, 0xBB#8, 0x42#8] = .ok (.importSnapshot [0xAA#8, 0xBB#8], [0x42#8]) ∧
  decode [0x42#8] = .ok (.ckUpdate, [])

/-! ## The step -/

/-- When no operation is under way and the host's next request decodes to an operation, a step runs that operation, the request
taken off the list; that one step is one whole operation, of the first request of a list, is the model's choice (log entries 1 and
6). -/
def Obligations.StepRunsRequest : Prop :=
  ∀ (s : State) (b : List Byte) (r : List (List Byte)) (i : Instr) (extra : List Byte),
    s.running = none → s.requests = b :: r → decode b = .ok (i, extra) → step s = exec i { s with requests := r }

/-- An operation bus event by bus event: each step is one bus event more of the statement the operation is at, or, with no more of
them, moves on to the next statement; the trace so far is the beginning of the whole trace, and the last step ends the operation
in the very state its meaning gives; from any point of it `step` comes to the same end (10_state.md R42, 20_memory.md R116, R119;
how the step index counts, an event leaving it and the end of a statement adding one, and that `step` runs an operation under way
to its end, are the model's, log entry 1). -/
def Obligations.BusStepsRunOperation : Prop :=
  ∀ (i : Instr) (s t : State), exec i s = .next t → ∃ n, busStep^[n + 1] (accept i s) = t ∧
    ∀ k ≤ n, ∃ j, (busStep^[k] (accept i s)).running = some ⟨i, j⟩ ∧
      (busStep^[k] (accept i s)).trace = t.trace.take (k - j) ∧ j + (busStep^[k] (accept i s)).trace.length = k ∧
      (k < n → (busStep^[k + 1] (accept i s)).running = some ⟨i, j⟩ ∨ (busStep^[k + 1] (accept i s)).running = some ⟨i, j + 1⟩) ∧
      step (busStep^[k] (accept i s)) = .next t

/-- With no request and no operation under way the block waits: the last outcome and trace stay, no launch input changes, and the
clock agent may do what 10_state.md R85 lets it and no more. -/
def Obligations.StepIdle : Prop :=
  ∀ s : State, s.running = none → s.requests = [] → ∃ t, step s = .next t ∧ s.SameLaunch t ∧ t.running = none ∧
    t.outcome = s.outcome ∧ t.trace = s.trace ∧ t.idx = s.idx ∧ (∀ a, s.Steady a 1 → t.x a = s.x a) ∧
    ∃ f : Nibble, t.x REG_C = s.x REG_C ||| (f.setWidth 8 <<< 4)

/-- Every step gives a next state with no operation under way, and a step on an operation under way or on a request ends with an
outcome. That an operation and an invalid request end with an outcome is 60_exceptions.md R400, R401 and R408; that one step runs
an operation, or the rest of one under way, to that outcome, so that none is under way after it, is the model's choice (log entry
1), and so is that a step with no request exists (log entry 7). -/
def Obligations.StepAlwaysAnswers : Prop :=
  ∀ s : State, ∃ t, step s = .next t ∧ t.running = none ∧ (s.running ≠ none ∨ s.requests ≠ [] → ∃ r, t.outcome = some r)

/-- Every step, of a whole operation, of one statement or of one bus event, keeps the store in its canonical form. -/
def Obligations.StepKeepsStoreCanonical : Prop :=
  ∀ s : State, s.Inv → (blockStep s).Inv ∧ (busStep s).Inv ∧ ∀ t, step s = .next t → t.Inv

/-- The store is in its canonical form at reset. -/
def Obligations.ResetStoreCanonical : Prop := State.Inv State.reset

/-- No step changes a launch input: the parameters, the port permission, PLAT, the nibbles; and each selector register of a PORT
channel is back at its value when an operation ends (10_state.md R88, R89, R91, 60_exceptions.md R404, 70_reset_and_hazards.md R455,
R468). That a step takes the first of a list of pending requests, and runs it to its end, is the model's choice (log entries 6 and
1), and so is the step with no request (log entry 7); whether an RTC answers is a launch input by log entry 9. -/
def Obligations.StepKeepsLaunchInputs : Prop :=
  (∀ s t : State, s.running = none → step s = .next t → State.SameLaunch { s with requests := s.requests.tail } t) ∧
  ∀ s t : State, t = blockStep s ∨ t = busStep s → t.params = s.params ∧ t.ioPermitted = s.ioPermitted ∧ t.plat = s.plat ∧
    t.rtcPresent = s.rtcPresent ∧ t.requests = s.requests ∧
    ∀ c, (t.latch c).n0 = (s.latch c).n0 ∧ (t.latch c).n1 = (s.latch c).n1

/-- What no operation changes in the registers: Register D; bit 7 of the stored Register A; and where Register C is not read, the
clock agent's setting of its bits 7:4 is the only change (10_state.md R51, R61, R64, R85, R93). -/
def Obligations.ReadOnlyRegisters : Prop :=
  ∀ (i : Instr) (s t : State), exec i s = .next t →
    t.x REG_D = s.x REG_D ∧ (t.x REG_A).getLsbD 7 = (s.x REG_A).getLsbD 7 ∧
    (REG_C ∉ readCells s.params i → ∃ f : Nibble, t.x REG_C = s.x REG_C ||| (f.setWidth 8 <<< 4))

/-- Where an operation stores: every cell outside `storedCells`, and Register C where it is not read, reads as before, if the
clock agent could not change it. The cells are computed as the meaning computes them. -/
def Obligations.StoreFrame : Prop :=
  ∀ (i : Instr) (s t : State), exec i s = .next t → ∀ a, a ∉ storedCells s.params i →
    (a = REG_C → REG_C ∉ readCells s.params i) →
    (REG_B ∈ storedCells s.params i → timeCell a = false ∨ s.QuietFor t.trace.length) →
    s.Steady a t.trace.length → t.x a = s.x a

/-- Every byte the block writes to the RTC's address port has bits 7:6 zero, and the address latch ends at the cell of the last
one, the RTC's two ports being two (30_encoding.md R147, 10_state.md R80, R83). -/
def Obligations.AddressBytes : Prop :=
  ∀ (i : Instr) (s t : State), s.params.valid = true → s.params.rtcAddrPort ≠ s.params.rtcDataPort → exec i s = .next t →
    (∀ v, .out s.params.rtcAddrPort v ∈ t.trace → v &&& 0xC0#8 = 0x00#8) ∧ t.idx = lastSelect s.params s.idx t.trace

/-! ## Failures (60_exceptions.md) -/

/-- A failure leaves every piece of state as it was, and no bus event (60_exceptions.md R406). -/
def Obligations.FailureChangesNothing : Prop :=
  ∀ (i : Instr) (s t : State) (e : OpError), exec i s = .next t → t.outcome = some (.err e) → t = s.failed e

/-- Without port access: an operation that has bus events fails so with an empty trace, unless it fails validation; and an
operation without bus events, or one that fails validation, does not notice (60_exceptions.md R404, R409). -/
def Obligations.PortAccessDenied : Prop :=
  ∀ (i : Instr) (s t : State), exec i { s with ioPermitted := true } = .next t →
    (∀ v ws, t.outcome = some (.ok v ws) → isPure i = false →
      exec i { s with ioPermitted := false } = .next (State.failed { s with ioPermitted := false } .portAccessDenied)) ∧
    (isPure i = true ∨ (∃ e, t.outcome = some (.err e)) →
      exec i { s with ioPermitted := false } = .next { t with ioPermitted := false })

/-- The validation errors of the store, the codec and the latch operations, first in wire order but for BCD_ENCODE
(60_exceptions.md R403, R409). -/
def Obligations.StoreCodecValidation : Prop :=
  ∀ (s : State) (a v : Int) (m : Byte),
    (¬(0 ≤ a ∧ a ≤ 63) → exec (.readCell a) s = .next (s.failed (.validation .addr)) ∧
      exec (.writeCell a v) s = .next (s.failed (.validation .addr))) ∧
    (0 ≤ a ∧ a ≤ 63 → ¬(0 ≤ v ∧ v ≤ 255) → exec (.writeCell a v) s = .next (s.failed (.validation .value))) ∧
    (¬(0 ≤ v ∧ v ≤ 255) → exec (.bcdDecode v m) s = .next (s.failed (.validation .raw))) ∧
    (0 ≤ v ∧ v ≤ 255 → m ≠ 0#8 → m ≠ 1#8 → exec (.bcdDecode v m) s = .next (s.failed (.validation .mode))) ∧
    (m ≠ 0#8 → m ≠ 1#8 → exec (.bcdEncode v m) s = .next (s.failed (.validation .mode))) ∧
    (¬(0 ≤ v ∧ v ≤ 99) → exec (.bcdEncode v 0#8) s = .next (s.failed (.validation .n))) ∧
    (¬(0 ≤ v ∧ v ≤ 255) → exec (.bcdEncode v 1#8) s = .next (s.failed (.validation .n))) ∧
    (m ≠ 0#8 → m ≠ 1#8 → exec (.latchRead m) s = .next (s.failed (.validation .channel)))

/-- The validation errors of the time and alarm operations, first in wire order (60_exceptions.md R403, R409). -/
def Obligations.TimeValidation : Prop :=
  ∀ (s : State) (a b c : Int) (e : Byte),
    (¬(0 ≤ a ∧ a ≤ 23) → exec (.writeTime a b c) s = .next (s.failed (.validation .h))) ∧
    (0 ≤ a ∧ a ≤ 23 → ¬(0 ≤ b ∧ b ≤ 59) → exec (.writeTime a b c) s = .next (s.failed (.validation .m))) ∧
    (0 ≤ a ∧ a ≤ 23 → 0 ≤ b ∧ b ≤ 59 → ¬(0 ≤ c ∧ c ≤ 59) →
      exec (.writeTime a b c) s = .next (s.failed (.validation .s))) ∧
    (¬(1 ≤ a ∧ a ≤ 31) → exec (.writeDate a b c) s = .next (s.failed (.validation .day))) ∧
    (1 ≤ a ∧ a ≤ 31 → ¬(1 ≤ b ∧ b ≤ 12) → exec (.writeDate a b c) s = .next (s.failed (.validation .month))) ∧
    (1 ≤ a ∧ a ≤ 31 → 1 ≤ b ∧ b ≤ 12 → ¬(1980 ≤ c ∧ c ≤ 2099) →
      exec (.writeDate a b c) s = .next (s.failed (.validation .year))) ∧
    (¬(1 ≤ a ∧ a ≤ 7) → exec (.writeDow a) s = .next (s.failed (.validation .n))) ∧
    (¬(-1 ≤ a ∧ a ≤ 23) → exec (.writeAlarm a b c) s = .next (s.failed (.validation .h))) ∧
    (-1 ≤ a ∧ a ≤ 23 → ¬(-1 ≤ b ∧ b ≤ 59) → exec (.writeAlarm a b c) s = .next (s.failed (.validation .m))) ∧
    (-1 ≤ a ∧ a ≤ 23 → -1 ≤ b ∧ b ≤ 59 → ¬(-1 ≤ c ∧ c ≤ 59) →
      exec (.writeAlarm a b c) s = .next (s.failed (.validation .s))) ∧
    (e ≠ 0#8 → e ≠ 1#8 → exec (.setAlarmEnabled e) s = .next (s.failed (.validation .enable)))

/-- The validation errors of the configuration operations and the size error of an import (60_exceptions.md R403, R405, R409). -/
def Obligations.ConfigValidation : Prop :=
  ∀ (s : State) (d : Byte) (v : Int) (second : Bool),
    (d ≠ 0x41#8 → d ≠ 0x30#8 → d ≠ 0x42#8 → d ≠ 0x31#8 →
      exec (.getFloppy d) s = .next (s.failed (.validation .drive)) ∧
      exec (.setFloppy d v) s = .next (s.failed (.validation .drive)) ∧
      exec (.getHarddisk d) s = .next (s.failed (.validation .drive)) ∧
      exec (.setHarddisk d v) s = .next (s.failed (.validation .drive))) ∧
    (Spec.driveCode second d → ¬(0 ≤ v ∧ v ≤ 4) → exec (.setFloppy d v) s = .next (s.failed (.validation .type))) ∧
    (Spec.driveCode second d → ¬(0 ≤ v ∧ v ≤ 15) → exec (.setHarddisk d v) s = .next (s.failed (.validation .type))) ∧
    (d ≠ 0#8 → d ≠ 1#8 → d ≠ 2#8 → exec (.setEquip d v) s = .next (s.failed (.validation .field))) ∧
    (¬(0 ≤ v ∧ v ≤ 1) → exec (.setEquip 0#8 v) s = .next (s.failed (.validation .value))) ∧
    (¬(0 ≤ v ∧ v ≤ 3) → exec (.setEquip 1#8 v) s = .next (s.failed (.validation .value))) ∧
    (¬(0 ≤ v ∧ v ≤ 4) → exec (.setEquip 2#8 v) s = .next (s.failed (.validation .value))) ∧
    (d ≠ 0#8 → d ≠ 1#8 → exec (.getMemword d) s = .next (s.failed (.validation .which)) ∧
      exec (.setMemword d v) s = .next (s.failed (.validation .which))) ∧
    (d = 0#8 ∨ d = 1#8 → ¬(0 ≤ v ∧ v ≤ 65535) → exec (.setMemword d v) s = .next (s.failed (.validation .value))) ∧
    (∀ data : List Byte, data.length ≠ 64 → data.length ≠ 128 →
      exec (.importSnapshot data) s = .next (s.failed (.snapshotSize data.length)))

/-! ## The store (40_register_store.md, 10_state.md R80-R86) -/

/-- READ_CELL: one store read, and what the device answers for each cell: Register A the live UIP over the stored bits; Register C
the byte, every stored flag of bits 7:4 among it (the clock agent only sets them), and then cleared; Register D a VRT draw over its
bits 6:0; any other cell the byte; in quiet draws exactly. Bits 3:0 of Register C and 6:0 of Register D may be drawn: log entry 8. -/
def Obligations.ReadCell : Prop :=
  ∀ (s : State) (a : CellAddr), s.ioPermitted = true → s.rtcPresent = true →
    ∃ t v, exec (.readCell a.toNat) s = .next t ∧
      s.Returned t (.byte v) [] (readEvents s.params a v) (clearedCells [a]) ∧
      (a = REG_A → v.extractLsb' 0 7 = (s.x REG_A).extractLsb' 0 7 ∧ (s.QuietFor 3 → v.getLsbD 7 = s.uipNow)) ∧
      (a = REG_C → t.x REG_C = 0x00#8 ∧ s.x REG_C &&& 0xF0#8 &&& ~~~v = 0x00#8 ∧ (s.QuietFor 3 → v = s.x REG_C)) ∧
      (a = REG_D → s.QuietFor 3 → v.extractLsb' 0 7 = (s.x REG_D).extractLsb' 0 7) ∧
      (s.readsPlain a → s.Steady a 3 → v = s.x a)

/-- A STORE channel's nibble cell: LATCH_READ's read of it presents the nibble its selector cell chooses, in the bits
`LATCH_NIB_SHIFT` names, whatever the store holds there and whether or not the other channel has the same cell; READ_CELL's read of
it is the store cell's (10_state.md R81, R89, R90; which reads the nibble source answers: log entry 10; that a selector cell with
a device rule chooses by its stored byte: log entry 25). -/
def Obligations.ReadNibbleCell : Prop :=
  ∀ (s : State) (c : Channel) (sel nib : CellAddr), s.rtcPresent = true → (s.params.latch c).transport = .store sel nib →
    (s.Steady sel 3 → (((memReadNib c nib).run s).1 >>> (s.params.latch c).nibShift.val).setWidth 4 =
      if (s.x sel).getLsbD (s.params.latch c).selBit.val then (s.latch c).n1 else (s.latch c).n0) ∧
    (s.ioPermitted = true → s.readsPlain nib → s.Steady nib 3 → ∃ t, exec (.readCell nib.toNat) s = .next t ∧
      s.Returned t (.byte (s.x nib)) [] (readEvents s.params nib (s.x nib)) [])

/-- WRITE_CELL: one store write, and what the device leaves in each cell: Register A keeps bit 7, Register B loses UIE where
SET_CLEARS_UIE and SET is written, Registers C and D ignore the write, any other cell takes the byte. No checksum update follows
(40_register_store.md R177, R178, 10_state.md R82). -/
def Obligations.WriteCell : Prop :=
  ∀ (s : State) (a : CellAddr) (v : Byte), s.ioPermitted = true → s.rtcPresent = true →
    ∃ t, exec (.writeCell a.toNat v.toNat) s = .next t ∧
      s.Returned t .unit [] (writeEvents s.params a v) (if a = REG_C ∨ a = REG_D then [] else [a]) ∧
      (a = REG_A → t.x a = ((s.x a) &&& 0x80#8) ||| (v &&& 0x7F#8)) ∧
      (a = REG_B → t.x a = if s.params.setClearsUie = true ∧ v.getLsbD 7 = true then v &&& ~~~0x10#8 else v) ∧
      (storesPlain a → agentCell a = false ∨ s.QuietFor 4 → t.x a = v)

/-- An absent RTC absorbs every write: every operation still runs to its outcome, and leaves every cell as it was, but for the
clock agent (40_register_store.md R174; log entry 9). -/
def Obligations.AbsentRtc : Prop :=
  ∀ (i : Instr) (s : State), s.rtcPresent = false → ∃ t r, exec i s = .next t ∧ t.outcome = some r ∧
    (∀ a, s.Steady a t.trace.length → t.x a = s.x a) ∧
    ∃ f : Nibble, t.x REG_C = s.x REG_C ||| (f.setWidth 8 <<< 4)

/-! ## The codec (41_bcd_codec.md) -/

/-- BCD_DECODE's result, for every byte and both modes, whatever the port permission (41_bcd_codec.md R190, R191, R194). -/
def Obligations.BcdDecode : Prop :=
  ∀ (s : State) (raw : Byte),
    exec (.bcdDecode raw.toNat 0#8) s = .next (s.answered (.integer (raw.toNat / 16 * 10 + raw.toNat % 16))) ∧
    exec (.bcdDecode raw.toNat 1#8) s = .next (s.answered (.integer raw.toNat))

/-- BCD_ENCODE's result, for every number of each mode's range (41_bcd_codec.md R192, R195). -/
def Obligations.BcdEncode : Prop :=
  ∀ (s : State) (n : Nat),
    (n ≤ 99 → exec (.bcdEncode n 0#8) s = .next (s.answered (.byte (BitVec.ofNat 8 (16 * (n / 10) + n % 10))))) ∧
    (n ≤ 255 → exec (.bcdEncode n 1#8) s = .next (s.answered (.byte (BitVec.ofNat 8 n))))

/-- The four codec laws of 41_bcd_codec.md R198, and its example of a byte with a nibble above 9, where the third law fails. -/
def Obligations.CodecLaws : Prop :=
  (∀ n ≤ 99, decodeByte (encodeByte n .bcd) .bcd = n) ∧ (∀ n ≤ 255, decodeByte (encodeByte n .bin) .bin = n) ∧
  (∀ b : Byte, b.toNat / 16 ≤ 9 → b.toNat % 16 ≤ 9 → encodeByte (decodeByte b .bcd) .bcd = b) ∧
  (∀ b : Byte, encodeByte (decodeByte b .bin) .bin = b) ∧
  decodeByte 0x1A#8 .bcd = 20 ∧ encodeByte 20 .bcd = 0x20#8

/-- Hours fold and unfold: an hour byte read, by the cases of the rule for every byte of a cell; an hour written, by its five cases;
reading a written hour gives it back, in all four encodings; and the source's two examples of the 12-hour fold
(42_time_alarm.md R217, R223). -/
def Obligations.HourRoundTrip : Prop :=
  (∀ raw m, readHour raw m true = decodeByte raw m) ∧
  (∀ raw m h, h = decodeByte (raw &&& 0x7F#8) m →
    (h = 12 → readHour raw m false = if raw.getLsbD 7 then 12 else 0) ∧
    (h < 12 → raw.getLsbD 7 = true → readHour raw m false = h + 12) ∧
    (h < 12 → raw.getLsbD 7 = false → readHour raw m false = h) ∧ (12 < h → readHour raw m false = h)) ∧
  (∀ h ≤ 23, ∀ m, writeHour h m true = encodeByte h m ∧ (h = 0 → writeHour h m false = encodeByte 12 m) ∧
    (0 < h → h < 12 → writeHour h m false = encodeByte h m) ∧ (h = 12 → writeHour h m false = encodeByte 12 m ||| 0x80#8) ∧
    (12 < h → writeHour h m false = encodeByte (h - 12) m ||| 0x80#8)) ∧
  (∀ h ≤ 23, ∀ m h24, readHour (writeHour h m h24) m h24 = h) ∧
  (∀ m, readHour (encodeByte 12 m ||| 0x80#8) m false = 12) ∧ (∀ m, readHour (encodeByte 12 m) m false = 0)

/-! ## Time and alarm (42_time_alarm.md) -/

/-- READ_TIME, for every map: a run of the poll, then Register B once, then the eight time cells; the record is decoded by that one
Register B. A byte read is the cell's where the clock agent could not change it; with quiet draws the polls show `uip_now`. Nothing
is changed, the chip's Register C included unless the map names it (42_time_alarm.md R211, R215, R216). -/
def Obligations.ReadTime : Prop :=
  ∀ (s : State) (cm : CellMap), s.ioPermitted = true → cm = s.params.cellMap →
    ∃ t polls ws rb sec min hour dow dom month year century,
    exec .readTime s = .next t ∧ pollRun s.params.uipPollMax polls ws ∧
    s.Returned t (.time {
        seconds := decodeByte sec (Spec.modeOf rb)
        minutes := decodeByte min (Spec.modeOf rb)
        hours := readHour hour (Spec.modeOf rb) (rb.getLsbD 1)
        dayOfWeek := Spec.rangeChecked (decodeByte dow (Spec.modeOf rb)) 7
        dayOfMonth := decodeByte dom (Spec.modeOf rb)
        month := Spec.rangeChecked (decodeByte month (Spec.modeOf rb)) 12
        year2 := decodeByte year (Spec.modeOf rb)
        century := decodeByte century (Spec.modeOf rb)
        is24h := rb.getLsbD 1
        isBinary := rb.getLsbD 2 }) ws
      (pollEvents s.params polls ++ readAllEvents s.params
        [cm.regB, cm.sec, cm.min, cm.hour, cm.dow, cm.dom, cm.month, cm.year, s.params.centuryAddr]
        [rb, sec, min, hour, dow, dom, month, year, century])
      (clearedCells [cm.regA, cm.regB, cm.sec, cm.min, cm.hour, cm.dow, cm.dom, cm.month, cm.year, s.params.centuryAddr]) ∧
    (∀ e ∈ [(cm.regB, rb), (cm.sec, sec), (cm.min, min), (cm.hour, hour), (cm.dow, dow), (cm.dom, dom), (cm.month, month),
      (cm.year, year), (s.params.centuryAddr, century)], s.readsPlain e.1 → s.Steady e.1 t.trace.length → e.2 = s.x e.1) ∧
    (cm.regA = REG_A → s.rtcPresent = true → s.QuietFor t.trace.length → ∀ v ∈ polls, v.getLsbD 7 = s.uipNow)

/-- WRITE_TIME, for every legal time (42_time_alarm.md R213, R225). -/
def Obligations.WriteTime : Prop :=
  ∀ h m c : Nat, h ≤ 23 → m ≤ 59 → c ≤ 59 → Spec.Brackets (.writeTime h m c) fun p rb =>
    [(p.cellMap.sec, encodeByte c (Spec.modeOf rb)), (p.cellMap.min, encodeByte m (Spec.modeOf rb)),
     (p.cellMap.hour, writeHour h (Spec.modeOf rb) (rb.getLsbD 1))]

/-- WRITE_DATE, for every legal date, the year split into century and two-digit year (42_time_alarm.md R213, R227, R228). -/
def Obligations.WriteDate : Prop :=
  ∀ d m y : Nat, 1 ≤ d → d ≤ 31 → 1 ≤ m → m ≤ 12 → 1980 ≤ y → y ≤ 2099 → Spec.Brackets (.writeDate d m y) fun p rb =>
    [(p.cellMap.dom, encodeByte d (Spec.modeOf rb)), (p.cellMap.month, encodeByte m (Spec.modeOf rb)),
     (p.cellMap.year, encodeByte (y % 100) (Spec.modeOf rb)), (p.centuryAddr, encodeByte (y / 100) (Spec.modeOf rb))]

/-- WRITE_DOW, for every legal day of week (42_time_alarm.md R213, R231). -/
def Obligations.WriteDow : Prop :=
  ∀ n : Nat, 1 ≤ n → n ≤ 7 → Spec.Brackets (.writeDow n) fun p rb => [(p.cellMap.dow, encodeByte n (Spec.modeOf rb))]

/-- WRITE_ALARM, for every legal alarm, wildcards among them (42_time_alarm.md R213, R240, R241). -/
def Obligations.WriteAlarm : Prop :=
  ∀ h m c : Int, -1 ≤ h → h ≤ 23 → -1 ≤ m → m ≤ 59 → -1 ≤ c → c ≤ 59 → Spec.Brackets (.writeAlarm h m c) fun p rb =>
    [(p.cellMap.secAlm, Spec.alarmByteOf c (encodeByte c.toNat (Spec.modeOf rb))),
     (p.cellMap.minAlm, Spec.alarmByteOf m (encodeByte m.toNat (Spec.modeOf rb))),
     (p.cellMap.hourAlm, Spec.alarmByteOf h (writeHour h.toNat (Spec.modeOf rb) (rb.getLsbD 1)))]

/-- READ_ALARM, for every map: a run of the poll, Register B, the three alarm cells; nothing is changed, the chip's Register C
included unless the map names it (42_time_alarm.md R235). -/
def Obligations.ReadAlarm : Prop :=
  ∀ (s : State) (cm : CellMap), s.ioPermitted = true → cm = s.params.cellMap → ∃ t polls ws rb sec min hour,
    exec .readAlarm s = .next t ∧ pollRun s.params.uipPollMax polls ws ∧
    s.Returned t (.alarm {
        hours := Spec.alarmFieldOf hour (readHour hour (Spec.modeOf rb) (rb.getLsbD 1))
        minutes := Spec.alarmFieldOf min (decodeByte min (Spec.modeOf rb))
        seconds := Spec.alarmFieldOf sec (decodeByte sec (Spec.modeOf rb)) }) ws
      (pollEvents s.params polls ++ readAllEvents s.params [cm.regB, cm.secAlm, cm.minAlm, cm.hourAlm] [rb, sec, min, hour])
      (clearedCells [cm.regA, cm.regB, cm.secAlm, cm.minAlm, cm.hourAlm]) ∧
    (∀ e ∈ [(cm.regB, rb), (cm.secAlm, sec), (cm.minAlm, min), (cm.hourAlm, hour)], s.readsPlain e.1 →
      s.Steady e.1 t.trace.length → e.2 = s.x e.1) ∧
    (cm.regA = REG_A → s.rtcPresent = true → s.QuietFor t.trace.length → ∀ v ∈ polls, v.getLsbD 7 = s.uipNow)

/-- The alarm round trip, whatever the clock agent does between and during the two operations: WRITE_ALARM then READ_ALARM gives
the wildcard for each −1 and the number for each other input, in every mode, where the maps are the chip's (42_time_alarm.md
R242). -/
def Obligations.AlarmRoundTrip : Prop :=
  ∀ (s t u : State) (h m c : Int), -1 ≤ h → h ≤ 23 → -1 ≤ m → m ≤ 59 → -1 ≤ c → c ≤ 59 → s.ioPermitted = true →
    s.rtcPresent = true → fitsChip s.params = true →
    exec (.writeAlarm h m c) s = .next t → exec .readAlarm t = .next u →
    ∃ ws, u.outcome = some (.ok (.alarm {
      hours := if h = -1 then .wildcard else .value h.toNat
      minutes := if m = -1 then .wildcard else .value m.toNat
      seconds := if c = -1 then .wildcard else .value c.toNat }) ws)

/-- With no step of the clock agent, WRITE_TIME then READ_TIME gives the time back, in every mode, where the maps are the chip's
(42_time_alarm.md R215, R223, R225). -/
def Obligations.TimeRoundTrip : Prop :=
  ∀ (s t u : State) (h m c : Nat), h ≤ 23 → m ≤ 59 → c ≤ 59 → s.ioPermitted = true → s.rtcPresent = true →
    fitsChip s.params = true →
    exec (.writeTime h m c) s = .next t → exec .readTime t = .next u → s.QuietFor (t.trace.length + u.trace.length) →
    ∃ r ws, u.outcome = some (.ok (.time r) ws) ∧ r.hours = h ∧ r.minutes = m ∧ r.seconds = c

/-- SET_ALARM_ENABLED changes bit 5 of Register B and nothing else, and SET is written back as read; the one bit that may fall
with it is UIE, where SET was 1 and the chip clears UIE then (42_time_alarm.md R245, 10_state.md R55). -/
def Obligations.SetAlarmEnabled : Prop :=
  ∀ (s : State) (on : Bool) (b : CellAddr), s.ioPermitted = true → b = s.params.cellMap.regB →
    ∃ t rb, exec (.setAlarmEnabled (if on then 1#8 else 0#8)) s = .next t ∧
    s.Returned t .unit [] (readEvents s.params b rb ++
      writeEvents s.params b ((rb &&& ~~~0x20#8) ||| (if on then 0x20#8 else 0x00#8))) [b] ∧
    (s.readsPlain b → s.Steady b 3 → rb = s.x b) ∧
    (s.rtcPresent = true → b = REG_B → ∀ k, k < 8 → (t.x REG_B).getLsbD k = if k = 5 then on
      else if k = 4 ∧ s.params.setClearsUie = true ∧ rb.getLsbD 7 = true then false else rb.getLsbD k)

/-! ## Status (43_status.md) -/

/-- READ_STATUS: Registers A, B, C, D once each in that order, decoded bit by bit, Register C left clear (the clock agent may set
flags again after). Every stored flag of Register C is in the byte read, and with quiet draws the bytes are the device's, where the
map's Registers A and B are the chip's (43_status.md R260-R265). -/
def Obligations.ReadStatus : Prop :=
  ∀ (s : State) (cm : CellMap), s.ioPermitted = true → cm = s.params.cellMap → ∃ t a b c d dv, exec .readStatus s = .next t ∧
    s.Returned t (.status {
        regA := { uip := a.getLsbD 7, dv := a.extractLsb' 4 3, dvName := dv, rs := a.extractLsb' 0 4,
                  rateHz := Spec.rateOf (a.toNat % 16) }
        regB := { set := b.getLsbD 7, pie := b.getLsbD 6, aie := b.getLsbD 5, uie := b.getLsbD 4, sqwe := b.getLsbD 3,
                  binary := b.getLsbD 2, h24 := b.getLsbD 1, dse := b.getLsbD 0 }
        regC := { irqf := c.getLsbD 7, pf := c.getLsbD 6, af := c.getLsbD 5, uf := c.getLsbD 4 }
        regD := { vrt := d.getLsbD 7 }
        rawA := a, rawB := b, rawC := c, rawD := d }) []
      (readAllEvents s.params [cm.regA, cm.regB, REG_C, REG_D] [a, b, c, d]) [REG_C] ∧
    (dv = if a.toNat / 16 % 8 = 0 then .tb4194304Hz else if a.toNat / 16 % 8 = 1 then .tb1048576Hz
      else if a.toNat / 16 % 8 = 2 then .tb32768Hz else if a.toNat / 16 % 8 ≤ 5 then .test else .dividerReset) ∧
    (s.rtcPresent = true → (t.x REG_C).extractLsb' 0 4 = 0x0#4) ∧
    (s.rtcPresent = true → cm.regA = REG_A → cm.regB = REG_B →
      b = s.x REG_B ∧ a.extractLsb' 0 7 = (s.x REG_A).extractLsb' 0 7 ∧ s.x REG_C &&& 0xF0#8 &&& ~~~c = 0x00#8 ∧
      (s.QuietFor 12 → t.x REG_C = 0x00#8 ∧ a.getLsbD 7 = s.uipNow ∧ c = s.x REG_C ∧
        d.extractLsb' 0 7 = (s.x REG_D).extractLsb' 0 7))

/-! ## Configuration (44_config_fields.md) -/

/-- GET_FLOPPY and GET_HARDDISK, for both drives: one read of the drive byte; a floppy type above 4 is unknown; hard-disk type 15
reads the drive's extended cell too (44_config_fields.md R285, R290). -/
def Obligations.DriveGetters : Prop :=
  ∀ (s : State) (second : Bool) (d : Byte) (m : CfgMap), Spec.driveCode second d → s.ioPermitted = true →
    s.rtcPresent = true → fitsChip s.params = true → m = s.params.cfgMap →
    (∃ t, exec (.getFloppy d) s = .next t ∧
      s.Returned t (.floppyType (Spec.rangeChecked (Spec.nibbleOf second (s.x m.floppy)) 4)) []
        (readEvents s.params m.floppy (s.x m.floppy)) []) ∧
    (Spec.nibbleOf second (s.x m.hdd) ≠ 15 → ∃ t, exec (.getHarddisk d) s = .next t ∧
      s.Returned t (.hardDisk ⟨Spec.nibbleOf second (s.x m.hdd), none⟩) [] (readEvents s.params m.hdd (s.x m.hdd)) []) ∧
    (Spec.nibbleOf second (s.x m.hdd) = 15 → ∃ t ext, exec (.getHarddisk d) s = .next t ∧
      ext = (if second then m.hddExt1 else m.hddExt0) ∧
      s.Returned t (.hardDisk ⟨15, some (s.x ext)⟩) []
        (readEvents s.params m.hdd (s.x m.hdd) ++ readEvents s.params ext (s.x ext)) [])

/-- SET_FLOPPY and SET_HARDDISK, for both drives and every legal type: the drive byte is read, written with the other drive's
nibble kept, and the checksum updated as the last step; the extended-type cells are not written (44_config_fields.md R281, R287,
R292). -/
def Obligations.DriveSetters : Prop :=
  ∀ (s : State) (second : Bool) (d : Byte) (n : Nat) (fl hd : CellAddr), Spec.driveCode second d → s.ioPermitted = true →
    s.rtcPresent = true → s.params.valid = true → fitsChip s.params = true → fl = s.params.cfgMap.floppy →
    hd = s.params.cfgMap.hdd →
    (n ≤ 4 → ∃ t, exec (.setFloppy d n) s = .next t ∧
      s.Returned t .unit [] (readEvents s.params fl (s.x fl) ++
        (writeEvents s.params fl (Spec.withNibble second (s.x fl) n) ++ t.ckUpdateEvents)) (fl :: checksumCells s.params) ∧
      t.x fl = Spec.withNibble second (s.x fl) n ∧ t.storedSum = t.coveredSum) ∧
    (n ≤ 15 → ∃ t, exec (.setHarddisk d n) s = .next t ∧
      s.Returned t .unit [] (readEvents s.params hd (s.x hd) ++
        (writeEvents s.params hd (Spec.withNibble second (s.x hd) n) ++ t.ckUpdateEvents)) (hd :: checksumCells s.params) ∧
      t.x hd = Spec.withNibble second (s.x hd) n ∧ t.storedSum = t.coveredSum)

/-- GET_EQUIP: one read of the equipment byte; with bit 0 clear the count is 0, whatever bits 7:6 (44_config_fields.md R296). -/
def Obligations.GetEquip : Prop :=
  ∀ (s : State) (e : CellAddr), s.ioPermitted = true → s.rtcPresent = true → fitsChip s.params = true →
    e = s.params.cfgMap.equip → ∃ t, exec .getEquip s = .next t ∧
    s.Returned t (.equip {
        floppyPresent := (s.x e).getLsbD 0
        fpu := (s.x e).getLsbD 1
        video := (s.x e).extractLsb' 4 2
        floppyCount := if (s.x e).getLsbD 0 then (s.x e).toNat / 64 + 1 else 0
        raw := s.x e }) [] (readEvents s.params e (s.x e)) []

/-- SET_EQUIP, for every field and value: the byte is read, written with the other bits kept, and the checksum updated; a count
set is the count GET_EQUIP then gives (44_config_fields.md R281, R299, R300). -/
def Obligations.SetEquip : Prop :=
  ∀ (s : State) (field n : Nat) (e : CellAddr), field = 0 ∧ n ≤ 1 ∨ field = 1 ∧ n ≤ 3 ∨ field = 2 ∧ n ≤ 4 →
    s.ioPermitted = true → s.rtcPresent = true → s.params.valid = true → fitsChip s.params = true →
    e = s.params.cfgMap.equip → ∃ t, exec (.setEquip (BitVec.ofNat 8 field) n) s = .next t ∧
      s.Returned t .unit [] (readEvents s.params e (s.x e) ++
        (writeEvents s.params e (Spec.withEquip (s.x e) field n) ++ t.ckUpdateEvents)) (e :: checksumCells s.params) ∧
      t.x e = Spec.withEquip (s.x e) field n ∧ t.storedSum = t.coveredSum ∧
      (field = 2 → (if (t.x e).getLsbD 0 then (t.x e).toNat / 64 + 1 else 0) = n)

/-- GET_MEMWORD and SET_MEMWORD, base (0) and extended (1), in a valid instance: the low cell and the next, which is the map's high
cell; the low one first, little-endian; the setter reads nothing first and updates the checksum (10_state.md R78, 20_memory.md
R101, 44_config_fields.md R281, R304, R305, R307). -/
def Obligations.MemoryWords : Prop :=
  ∀ (s : State) (which : Bool) (n : Nat) (lo hi : CellAddr),
    lo = (if which then s.params.cfgMap.extmemLo else s.params.cfgMap.basememLo) →
    hi = lo + 1#6 → s.ioPermitted = true → s.rtcPresent = true → s.params.valid = true → fitsChip s.params = true →
    hi = (if which then s.params.cfgMap.extmemHi else s.params.cfgMap.basememHi) ∧
    (∃ t, exec (.getMemword (if which then 1#8 else 0#8)) s = .next t ∧
      s.Returned t (.word (BitVec.ofNat 16 ((s.x lo).toNat + 256 * (s.x hi).toNat))) []
        (readEvents s.params lo (s.x lo) ++ readEvents s.params hi (s.x hi)) []) ∧
    (n ≤ 65535 → ∃ t, exec (.setMemword (if which then 1#8 else 0#8) n) s = .next t ∧
      s.Returned t .unit [] (writeEvents s.params lo (BitVec.ofNat 8 n) ++
        (writeEvents s.params hi (BitVec.ofNat 8 (n / 256)) ++ t.ckUpdateEvents)) (lo :: hi :: checksumCells s.params) ∧
      t.x lo = BitVec.ofNat 8 n ∧ t.x hi = BitVec.ofNat 8 (n / 256) ∧ t.storedSum = t.coveredSum)

/-- GET_DIAG, CLEAR_DIAG and GET_SHUTDOWN: one read or one unconditional zero write, with no checksum update; a shutdown code
outside `SHUTDOWN_TABLE` is no error, and with the default table those are the codes above 0x0A (44_config_fields.md R312, R313,
R317, R318). -/
def Obligations.DiagAndShutdown : Prop :=
  ∀ (s : State) (d h : CellAddr), s.ioPermitted = true → d = s.params.cfgMap.diag → h = s.params.cfgMap.shutdown →
    (s.readsPlain d → s.Steady d 3 → ∃ t, exec .getDiag s = .next t ∧
      s.Returned t (.diag {
          raw := s.x d
          flags := (List.range 8).map fun k => (s.x d).getLsbD k
          healthy := decide (s.x d = 0x00#8) }) [] (readEvents s.params d (s.x d)) []) ∧
    (∃ t, exec .clearDiag s = .next t ∧ s.Returned t .unit [] (writeEvents s.params d 0x00#8) [d] ∧
      (s.rtcPresent = true → storesPlain d → agentCell d = false ∨ s.QuietFor 4 → t.x d = 0x00#8)) ∧
    (s.readsPlain h → s.Steady h 3 → ∃ t c, exec .getShutdown s = .next t ∧
      s.Returned t (.shutdown c) [] (readEvents s.params h (s.x h)) [] ∧
      ((∀ e ∈ s.params.shutdownTable, e.1 ≠ s.x h) → c = .raw (s.x h)) ∧
      (∀ pre name post, s.params.shutdownTable = pre ++ (s.x h, name) :: post → (∀ e ∈ pre, e.1 ≠ s.x h) →
        c = .known (s.x h) name) ∧
      (s.params.shutdownTable = defaultShutdownTable → (0x0A < (s.x h).toNat → c = .raw (s.x h)) ∧
        ((s.x h).toNat ≤ 0x0A → ∃ name, c = .known (s.x h) name)))

/-! ## The checksum (45_checksum.md) -/

/-- CK_COMPUTE and CK_VERIFY: thirty reads of the covered cells (and the two checksum cells, high first); the sum is the covered
cells' alone, never wrapping; a mismatch is a warning beside `false`, and is not repaired (45_checksum.md R330-R336). -/
def Obligations.ChecksumReads : Prop :=
  ∀ s : State, s.ioPermitted = true → s.rtcPresent = true →
    s.coveredSum.toNat = ((List.range' 0x10 30).map fun k => (s.x (BitVec.ofNat 6 k)).toNat).sum ∧
    (∃ t, exec .ckCompute s = .next t ∧
      s.Returned t (.word s.coveredSum) [] (readAllEvents s.params coveredCells (coveredCells.map s.x)) []) ∧
    (s.params.valid = true → fitsChip s.params = true → ∃ t, exec .ckVerify s = .next t ∧
      s.Returned t (.bool (decide (s.coveredSum = s.storedSum)))
        (if s.coveredSum = s.storedSum then [] else [.checksumMismatch])
        (readAllEvents s.params coveredCells (coveredCells.map s.x) ++
          (readEvents s.params s.params.ckHiAddr (s.x s.params.ckHiAddr) ++
            readEvents s.params s.params.ckLoAddr (s.x s.params.ckLoAddr))) [])

/-- CK_UPDATE: the sum is read, written high byte first, and is the result (45_checksum.md R337). -/
def Obligations.CkUpdate : Prop :=
  ∀ s : State, s.ioPermitted = true → s.rtcPresent = true → s.params.valid = true → fitsChip s.params = true →
    ∃ t, exec .ckUpdate s = .next t ∧
    s.Returned t (.word s.coveredSum) [] s.ckUpdateEvents (checksumCells s.params) ∧
    (t.x s.params.ckHiAddr).toNat * 256 + (t.x s.params.ckLoAddr).toNat = s.coveredSum.toNat

/-- The checksum invariant: right after any configuration setter, FACTORY_RESET or CK_UPDATE that returned `Ok`, CK_VERIFY
returns true with no warning, whatever the clock agent does, where the maps are the chip's (44_config_fields.md R321,
45_checksum.md R338.1, 47_snapshot.md R383). -/
def Obligations.SetterThenVerify : Prop :=
  ∀ (i : Instr) (s t : State) (v : Value) (ws : List Warning), s.rtcPresent = true → s.params.valid = true →
    fitsChip s.params = true →
    (∃ d n, i = .setFloppy d n ∨ i = .setHarddisk d n ∨ i = .setEquip d n ∨ i = .setMemword d n) ∨ i = .factoryReset ∨
      i = .ckUpdate →
    exec i s = .next t → t.outcome = some (.ok v ws) → ∃ u, exec .ckVerify t = .next u ∧ u.outcome = some (.ok (.bool true) [])

/-- The second checksum law: after CK_UPDATE, a WRITE_CELL that changes one covered cell to another byte makes CK_VERIFY return
false with its warning (45_checksum.md R338). -/
def Obligations.ChangedCellFailsVerify : Prop :=
  ∀ (s t u : State) (a : CellAddr) (b : Byte), s.ioPermitted = true → s.rtcPresent = true → s.params.valid = true →
    fitsChip s.params = true →
    0x10#6 ≤ a → a ≤ 0x2D#6 → b ≠ s.x a → exec .ckUpdate s = .next t → exec (.writeCell a.toNat b.toNat) t = .next u →
    ∃ w, exec .ckVerify u = .next w ∧ w.outcome = some (.ok (.bool false) [.checksumMismatch])

/-! ## The latch (46_amstrad_latch.md) -/

/-- LATCH_READ over ports, for every parameter set: the nine events of 46_amstrad_latch.md R352, the byte of R353 from the launch's
nibbles, every other selector bit kept in every write, the selector restored, and no store cell touched. -/
def Obligations.LatchReadPort : Prop :=
  ∀ (s : State) (c : Channel) (sel nib : Port), s.ioPermitted = true → (s.params.latch c).transport = .port sel nib →
    ∃ t s1 s2 v1 v2, exec (.latchRead (if c = .c1 then 1#8 else 0#8)) s = .next t ∧
      s.Returned t (.byte (
          let first := if (s.params.latch c).firstSel then (s.latch c).n1 else (s.latch c).n0
          let second := if (s.params.latch c).firstSel then (s.latch c).n0 else (s.latch c).n1
          if (s.params.latch c).firstIsHi then first ++ second else second ++ first)) []
        [.inp sel (s.latch c).sel, .out sel s1, .barrier, .inp nib v1, .out sel s2, .barrier, .inp nib v2,
         .out sel (s.latch c).sel, .barrier] [] ∧
      t.idx = s.idx ∧
      ∀ k < 8, s1.getLsbD k = (if k = (s.params.latch c).selBit.val then (s.params.latch c).firstSel
          else (s.latch c).sel.getLsbD k) ∧
        s2.getLsbD k = (if k = (s.params.latch c).selBit.val then !(s.params.latch c).firstSel else (s.latch c).sel.getLsbD k)

/-- LATCH_READ over store cells, in every valid instance and whether or not an RTC answers: the selector cell is read, written with
the first and then the other value of its selector bit, the nibble cell read after each, and the selector byte written back; the
two nibbles read are the result (46_amstrad_latch.md R350, R351). -/
def Obligations.LatchReadStoreEvents : Prop :=
  ∀ (s : State) (c : Channel) (sel nib : CellAddr), s.ioPermitted = true → s.params.valid = true →
    (s.params.latch c).transport = .store sel nib →
    ∃ t v0 s1 s2 v1 v2 n1 n2, exec (.latchRead (if c = .c1 then 1#8 else 0#8)) s = .next t ∧
      s.Returned t (.byte (if (s.params.latch c).firstIsHi then n1 ++ n2 else n2 ++ n1)) []
        (readEvents s.params sel v0 ++ (writeEvents s.params sel s1 ++ (readEvents s.params nib v1 ++
          (writeEvents s.params sel s2 ++ (readEvents s.params nib v2 ++ writeEvents s.params sel v0))))) [sel] ∧
      n1 = (v1 >>> (s.params.latch c).nibShift.val).setWidth 4 ∧ n2 = (v2 >>> (s.params.latch c).nibShift.val).setWidth 4 ∧
      ∀ k < 8, s1.getLsbD k = (if k = (s.params.latch c).selBit.val then (s.params.latch c).firstSel else v0.getLsbD k) ∧
        s2.getLsbD k = (if k = (s.params.latch c).selBit.val then !(s.params.latch c).firstSel else v0.getLsbD k)

/-- LATCH_READ over store cells, in a valid instance and a selector cell that is neither the clock agent's nor a Register: the same
byte, by store transactions, and the selector cell ends as it began; also where both channels have one nibble cell, and where that
is a cell with a device rule (46_amstrad_latch.md R350-R353; log entry 10; of the other selector cells: log entry 25). -/
def Obligations.LatchReadStore : Prop :=
  ∀ (s : State) (c : Channel) (sel nib : CellAddr), s.ioPermitted = true → s.rtcPresent = true → s.params.valid = true →
    (s.params.latch c).transport = .store sel nib → agentCell sel = false → sel ≠ REG_A → sel ≠ REG_B →
    ∃ t s1 s2 v1 v2, exec (.latchRead (if c = .c1 then 1#8 else 0#8)) s = .next t ∧
      s.Returned t (.byte (
          let first := if (s.params.latch c).firstSel then (s.latch c).n1 else (s.latch c).n0
          let second := if (s.params.latch c).firstSel then (s.latch c).n0 else (s.latch c).n1
          if (s.params.latch c).firstIsHi then first ++ second else second ++ first)) []
        (readEvents s.params sel (s.x sel) ++ (writeEvents s.params sel s1 ++ (readEvents s.params nib v1 ++
          (writeEvents s.params sel s2 ++ (readEvents s.params nib v2 ++ writeEvents s.params sel (s.x sel)))))) [sel] ∧
      t.x sel = s.x sel

/-- Two LATCH_READs of one channel, one right after the other, return the same byte and leave the selector the same: always over
ports, and over store cells under the conditions of `LatchReadStore` (46_amstrad_latch.md R354; of the other selector cells: log
entry 25). -/
def Obligations.LatchReadTwice : Prop :=
  ∀ (s t u : State) (c : Channel) (i : Instr), i = .latchRead (if c = .c1 then 1#8 else 0#8) → s.ioPermitted = true →
    (∀ sel nib, (s.params.latch c).transport = .store sel nib →
      s.rtcPresent = true ∧ s.params.valid = true ∧ agentCell sel = false ∧ sel ≠ REG_A ∧ sel ≠ REG_B) →
    exec i s = .next t → exec i t = .next u →
    (∃ b, t.outcome = some (.ok (.byte b) []) ∧ u.outcome = some (.ok (.byte b) [])) ∧
    selectorValue c t = selectorValue c s ∧ selectorValue c u = selectorValue c s

/-- PLATFORM_STATUS: one port read and no other event; the fields are the bits the parameters name; display code 1 is unknown,
and a code whose name is not in the table (46_amstrad_latch.md R357, R358; log entry 14). -/
def Obligations.PlatformStatus : Prop :=
  ∀ s : State, s.ioPermitted = true → ∃ t r, exec .platformStatus s = .next t ∧
    s.Returned t (.platform r) [] [.inp s.params.platPort s.plat] [] ∧ t.idx = s.idx ∧ r.raw = s.plat ∧
    r.dipLatchSelect = s.plat.getLsbD s.params.platDipBit.val ∧
    (∀ (code : Nat) (h : code < 8), code = s.plat.toNat / 2 ^ s.params.platLangShift.val % 8 →
      r.language = match s.params.langName[code] with
        | some name => .known code name
        | none => .unknown code) ∧
    (∀ hi lo : Bool, hi = s.plat.getLsbD s.params.platDispHiBit.val → lo = s.plat.getLsbD s.params.platDispLoBit.val →
      r.display = match hi, lo with
        | false, false => match s.params.dispName0 with
          | some name => .known 0 name
          | none => .unknown 0
        | false, true => .unknown 1
        | true, false => match s.params.dispName2 with
          | some name => .known 2 name
          | none => .unknown 2
        | true, true => match s.params.dispName3 with
          | some name => .known 3 name
          | none => .unknown 3)

/-! ## Snapshots (47_snapshot.md) -/

/-- EXPORT_SNAPSHOT: a run of the poll, then all 64 cells in ascending order, Register C included, whose bits 3:0 are then clear;
each byte is the cell's where the clock agent could not change it, bits 6:0 of Register A are the stored ones and every stored flag
of Register C is in byte 12. With quiet draws byte 12 is Register C before the clear, which leaves it 0, byte 10 has the live UIP and
byte 13 the stored bits 6:0 of Register D (47_snapshot.md R371, R372). -/
def Obligations.ExportSnapshot : Prop :=
  ∀ s : State, s.ioPermitted = true → ∃ t polls ws snap, exec .exportSnapshot s = .next t ∧
    pollRun s.params.uipPollMax polls ws ∧ snap.length = 64 ∧
    s.Returned t (.snapshot snap) ws
      (pollEvents s.params polls ++ readAllEvents s.params ((List.range 64).map (BitVec.ofNat 6)) snap) [REG_C] ∧
    (∀ a : CellAddr, s.readsPlain a → s.Steady a t.trace.length → snap[a.toNat]? = some (s.x a)) ∧
    (s.rtcPresent = true → (t.x REG_C).extractLsb' 0 4 = 0x0#4 ∧
      ∃ v, snap[10]? = some v ∧ v.extractLsb' 0 7 = (s.x REG_A).extractLsb' 0 7 ∧
        (s.QuietFor t.trace.length → v.getLsbD 7 = s.uipNow)) ∧
    (s.rtcPresent = true → s.params.cellMap.regA ≠ REG_C →
      ∃ v, snap[12]? = some v ∧ s.x REG_C &&& 0xF0#8 &&& ~~~v = 0x00#8 ∧ (s.QuietFor t.trace.length → v = s.x REG_C)) ∧
    (s.rtcPresent = true → s.QuietFor t.trace.length → t.x REG_C = 0x00#8 ∧
      ∃ v, snap[13]? = some v ∧ v.extractLsb' 0 7 = (s.x REG_D).extractLsb' 0 7)

/-- IMPORT_SNAPSHOT of 64 bytes, or of 128 of which the last 64 are ignored: one read, then every cell but 12 and 13 written in
ascending order with SET = 1 from the second event to the last write; the checksum not recomputed; Register B ends as the data's
with SET = 0 (47_snapshot.md R374-R378; that the pass takes Register B where the map has it: log entry 5). -/
def Obligations.ImportSnapshot : Prop :=
  ∀ (s : State) (data : List Byte) (d : Nat → Byte) (b : CellAddr), data.length = 64 ∨ data.length = 128 →
    (∀ k < 64, data[k]? = some (d k)) → s.ioPermitted = true → b = s.params.cellMap.regB →
    ∃ t rb, exec (.importSnapshot data) s = .next t ∧
      s.Returned t .unit []
        (readEvents s.params b rb ++ (writeEvents s.params b (rb ||| 0x80#8) ++
          (writeAllEvents s.params ((List.range 12 ++ List.range' 14 50).map fun k =>
            (BitVec.ofNat 6 k, if k = b.toNat then d k ||| 0x80#8 else d k)) ++
          writeEvents s.params b (d b.toNat &&& 0x7F#8))))
        (b :: (List.range 12 ++ List.range' 14 50).map (BitVec.ofNat 6)) ∧
      (s.readsPlain b → s.Steady b 3 → rb = s.x b) ∧
      (s.rtcPresent = true → b = REG_B → t.x REG_B = d 11 &&& 0x7F#8 ∧
        t.x REG_A = ((s.x REG_A) &&& 0x80#8) ||| (d 10 &&& 0x7F#8) ∧
        ∀ a : CellAddr, storesPlain a → agentCell a = false ∨ s.QuietFor t.trace.length → t.x a = d a.toNat)

/-- FACTORY_RESET in a valid instance whose maps are the chip's: the table's writes in ascending order, the zero ranges' in the order
given, and the checksum last; then every table cell the clock agent does not own holds its byte (bit 7 of Register A and UIE of
Register B as the device rules say), every cell of the zero ranges holds zero, and the checksum is right; a table entry at a checksum
cell is overwritten by the checksum (47_snapshot.md R380, R382, R383; log entry 23). -/
def Obligations.FactoryReset : Prop :=
  ∀ s : State, s.ioPermitted = true → s.rtcPresent = true → s.params.valid = true → fitsChip s.params = true →
    ∃ t, exec .factoryReset s = .next t ∧
    s.Returned t .unit [] (writeAllEvents s.params s.params.factoryTable ++ (writeAllEvents s.params
        ((cellsFromTo s.params.zeroRange0.lo s.params.zeroRange0.hi ++
          cellsFromTo s.params.zeroRange1.lo s.params.zeroRange1.hi).map fun a => (a, 0x00#8)) ++ t.ckUpdateEvents))
      (s.params.factoryTable.map Prod.fst ++ (cellsFromTo s.params.zeroRange0.lo s.params.zeroRange0.hi ++
        cellsFromTo s.params.zeroRange1.lo s.params.zeroRange1.hi) ++ checksumCells s.params) ∧
    (∀ e ∈ s.params.factoryTable, agentCell e.1 = false → e.1 ∉ checksumCells s.params →
      (e.1 ≠ REG_A → e.1 ≠ REG_B → t.x e.1 = e.2) ∧
      (e.1 = REG_A → t.x e.1 = ((s.x e.1) &&& 0x80#8) ||| (e.2 &&& 0x7F#8)) ∧
      (e.1 = REG_B → t.x e.1 = if s.params.setClearsUie = true ∧ e.2.getLsbD 7 = true then e.2 &&& ~~~0x10#8 else e.2)) ∧
    (∀ a ∈ cellsFromTo s.params.zeroRange0.lo s.params.zeroRange0.hi ++
      cellsFromTo s.params.zeroRange1.lo s.params.zeroRange1.hi, t.x a = 0x00#8) ∧
    t.storedSum = t.coveredSum

/-- Two runs of FACTORY_RESET leave the same in every cell the clock agent does not own (47_snapshot.md R382, R383). -/
def Obligations.FactoryResetTwice : Prop :=
  ∀ s t u : State, s.ioPermitted = true → s.rtcPresent = true → s.params.valid = true → fitsChip s.params = true →
    exec .factoryReset s = .next t → exec .factoryReset t = .next u → ∀ a, agentCell a = false → u.x a = t.x a

/-- The export-import round trip: export, import the result, export again: every byte is the same, but the read-only cells 12 and
13, bit 7 of cells 10 and 11 (which ends 0 in cell 11), and the time cells, where the map's Register B is the chip's
(47_snapshot.md R387). -/
def Obligations.ExportImportRoundTrip : Prop :=
  ∀ (s t u w : State) (snap snap' : List Byte) (ws ws' : List Warning), s.ioPermitted = true → s.rtcPresent = true →
    s.params.cellMap.regB = REG_B →
    exec .exportSnapshot s = .next t → t.outcome = some (.ok (.snapshot snap) ws) →
    exec (.importSnapshot snap) t = .next u → exec .exportSnapshot u = .next w →
    w.outcome = some (.ok (.snapshot snap') ws') →
    (∀ a : CellAddr, agentCell a = false → a ≠ REG_A → a ≠ REG_B → a ≠ REG_D → snap'[a.toNat]? = snap[a.toNat]?) ∧
    (∃ v v', snap[10]? = some v ∧ snap'[10]? = some v' ∧ v'.extractLsb' 0 7 = v.extractLsb' 0 7) ∧
    (∃ v, snap[11]? = some v ∧ snap'[11]? = some (v &&& 0x7F#8))

/-- DIFF, for every two 64-byte snapshots and whatever the port permission: no bus event, and the result lists, in strictly
ascending order, exactly the addresses where the bytes differ, with both bytes; so it is empty for equal snapshots
(47_snapshot.md R385, R386). -/
def Obligations.Diff : Prop :=
  ∀ (s : State) (a b : List Byte), a.length = 64 → b.length = 64 → ∃ l,
    exec (.diff a b) s = .next (s.answered (.diff l)) ∧
    l.Pairwise (fun e f => e.addr < f.addr) ∧
    (∀ e, e ∈ l ↔ e.addr < 64 ∧ e.a ≠ e.b ∧ a[e.addr]? = some e.a ∧ b[e.addr]? = some e.b) ∧ (a = b → l = [])

/-! ## Statement by statement (10_state.md R42) -/

/-- An operation statement by statement, as the block takes it: accepted with step index 0 and an empty trace, each step passes one
statement of the pseudocode and advances the index by one, up to the last, which ends the operation in the very state its meaning
gives; the trace so far is the beginning of the whole trace, and from any point of it `step` comes to the same end (10_state.md
R40, R42; what counts as one statement, and that `step` runs an operation under way to its end, are the model's, log entry 1). -/
def Obligations.StatementsRunOperation : Prop :=
  ∀ (i : Instr) (s t : State), exec i s = .next t → ∃ n, blockStep^[n + 1] (accept i s) = t ∧ t.running = none ∧
    (accept i s).trace = [] ∧ ∀ k ≤ n, (blockStep^[k] (accept i s)).running = some ⟨i, k⟩ ∧
      (blockStep^[k] (accept i s)).trace <+: t.trace ∧ step (blockStep^[k] (accept i s)) = .next t
end

