-- ==== Sys2Proof/Laws/Memory.lean ====
section
/-! SUPPORT. The laws of the store: read after write, the canonical form is kept, canonical stores that read alike are equal. -/

namespace Sys2Proof.Machine

open Sys2Proof.Config

/-! ## Reading -/

theorem Memory.find_filter_other (m : Memory) {j k : Nat} (h : j ≠ k) :
    Memory.find (m.filter fun c => c.1 != k) j = Memory.find m j := by
  induction m with
  | nil => rfl
  | cons c r ih =>
    by_cases hc : c.1 = k
    · have : c.1 ≠ j := fun e => h (e.symm.trans hc)
      simp [hc, Memory.find, ih, Ne.symm h]
    · simp [hc, Memory.find, ih]

theorem Memory.find_filter_same (m : Memory) (k : Nat) :
    Memory.find (m.filter fun c => c.1 != k) k = Memory.unlisted := by
  induction m with
  | nil => rfl
  | cons c r ih =>
    by_cases hc : c.1 = k <;> simp [hc, Memory.find, ih]

theorem Memory.find_insert_other (m : Memory) {j k : Nat} (v : Byte) (h : j ≠ k) :
    Memory.find (Memory.insert k v m) j = Memory.find m j := by
  induction m with
  | nil => simp [Memory.insert, Memory.find, Ne.symm h]
  | cons c r ih =>
    unfold Memory.insert
    split
    · simp [Memory.find, Ne.symm h]
    · simp [Memory.find, ih]

theorem Memory.find_insert_same (m : Memory) (k : Nat) (v : Byte) (h : ∀ c ∈ m, c.1 ≠ k) :
    Memory.find (Memory.insert k v m) k = v := by
  induction m with
  | nil => simp [Memory.insert, Memory.find]
  | cons c r ih =>
    unfold Memory.insert
    split
    · simp [Memory.find]
    · simp [Memory.find, h c (by simp), ih fun d hd => h d (by simp [hd])]

theorem Memory.filter_ne (m : Memory) (k : Nat) : ∀ c ∈ m.filter (fun c => c.1 != k), c.1 ≠ k := by
  intro c hc
  simpa using (List.mem_filter.mp hc).2

/-- A read after a write of the same cell gives the value written. -/
@[simp] theorem Memory.read_write_same (m : Memory) (a : CellAddr) (v : Byte) : (m.write a v).read a = v := by
  unfold Memory.read Memory.write
  split
  · rename_i h
    rw [Memory.find_filter_same, h]
  · exact Memory.find_insert_same _ _ _ (Memory.filter_ne m a.toNat)

/-- A write leaves every other cell alone. -/
theorem Memory.read_write_other (m : Memory) {a b : CellAddr} (v : Byte) (h : b ≠ a) :
    (m.write a v).read b = m.read b := by
  have h' : b.toNat ≠ a.toNat := fun e => h (BitVec.eq_of_toNat_eq e)
  unfold Memory.read Memory.write
  split
  · exact Memory.find_filter_other m h'
  · exact (Memory.find_insert_other _ v h').trans (Memory.find_filter_other m h')

theorem Memory.read_write (m : Memory) (a b : CellAddr) (v : Byte) :
    (m.write a v).read b = if b = a then v else m.read b := by
  by_cases h : b = a
  · simp [h]
  · simp [h, Memory.read_write_other]

@[simp] theorem Memory.read_nil (a : CellAddr) : Memory.read [] a = Memory.unlisted := rfl

/-! ## The canonical form -/

theorem Memory.wf_iff (m : Memory) :
    m.wf = true ↔ m.Pairwise (fun c d => c.1 < d.1) ∧ ∀ c ∈ m, c.1 < 64 ∧ c.2 ≠ Memory.unlisted := by
  simp [Memory.wf]

theorem Memory.wf_nil : Memory.wf [] = true := by decide

theorem Memory.wf_filter (m : Memory) (k : Nat) (h : m.wf = true) : Memory.wf (m.filter fun c => c.1 != k) = true := by
  rw [Memory.wf_iff] at h ⊢
  exact ⟨h.1.filter _, fun c hc => h.2 c (List.mem_filter.mp hc).1⟩

theorem Memory.mem_insert (m : Memory) (k : Nat) (v : Byte) (c : Host.Cell) :
    c ∈ Memory.insert k v m ↔ c = (k, v) ∨ c ∈ m := by
  induction m with
  | nil => simp [Memory.insert]
  | cons d r ih =>
    unfold Memory.insert
    split
    · simp
    · simp only [List.mem_cons, ih]
      tauto

theorem Memory.pairwise_insert (m : Memory) (k : Nat) (v : Byte) (hk : ∀ c ∈ m, c.1 ≠ k)
    (h : m.Pairwise fun c d => c.1 < d.1) : (Memory.insert k v m).Pairwise fun c d => c.1 < d.1 := by
  induction m with
  | nil => simp [Memory.insert]
  | cons d r ih =>
    have hd := List.pairwise_cons.mp h
    unfold Memory.insert
    split
    · rename_i hlt
      refine List.pairwise_cons.mpr ⟨fun c hc => ?_, h⟩
      rcases List.mem_cons.mp hc with rfl | hc
      · exact hlt
      · exact hlt.trans (hd.1 c hc)
    · rename_i hge
      refine List.pairwise_cons.mpr ⟨fun c hc => ?_, ih (fun c hc => hk c (by simp [hc])) hd.2⟩
      rcases (Memory.mem_insert r k v c).mp hc with rfl | hc
      · have := hk d (by simp)
        simp only
        omega
      · exact hd.1 c hc

/-- A write keeps the canonical form. -/
theorem Memory.wf_write (m : Memory) (a : CellAddr) (v : Byte) (h : m.wf = true) : (m.write a v).wf = true := by
  unfold Memory.write
  split
  · exact Memory.wf_filter m a.toNat h
  · rename_i hv
    have hf := Memory.wf_filter m a.toNat h
    rw [Memory.wf_iff] at hf ⊢
    refine ⟨Memory.pairwise_insert _ _ _ (Memory.filter_ne m a.toNat) hf.1, fun c hc => ?_⟩
    rcases (Memory.mem_insert _ _ _ _).mp hc with rfl | hc
    · exact ⟨a.isLt, hv⟩
    · exact hf.2 c hc

theorem Memory.find_of_lt (m : Memory) (k : Nat) (h : ∀ c ∈ m, k < c.1) : Memory.find m k = Memory.unlisted := by
  induction m with
  | nil => rfl
  | cons c r ih =>
    have := h c (by simp)
    simp [Memory.find, show c.1 ≠ k by omega, ih fun d hd => h d (by simp [hd])]

/-- Canonical stores that read alike everywhere are the same list. -/
theorem Memory.eq_of_find_eq (m n : Memory) (hm : m.wf = true) (hn : n.wf = true)
    (h : ∀ k < 64, Memory.find m k = Memory.find n k) : m = n := by
  rw [Memory.wf_iff] at hm hn
  induction m generalizing n with
  | nil =>
    cases n with
    | nil => rfl
    | cons d r =>
      have hd := hn.2 d (by simp)
      exact absurd (by simpa [Memory.find] using (h d.1 hd.1).symm) hd.2
  | cons c q ih =>
    have hc := hm.2 c (by simp)
    have hq := List.pairwise_cons.mp hm.1
    cases n with
    | nil => exact absurd (by simpa [Memory.find] using h c.1 hc.1) hc.2
    | cons d r =>
      have hd := hn.2 d (by simp)
      have hr := List.pairwise_cons.mp hn.1
      have key : c.1 = d.1 := by
        rcases Nat.lt_trichotomy c.1 d.1 with hlt | heq | hgt
        · have h1 := h c.1 hc.1
          rw [Memory.find_of_lt (d :: r) c.1 (fun e he => by
            rcases List.mem_cons.mp he with rfl | he
            · exact hlt
            · exact hlt.trans (hr.1 e he))] at h1
          exact absurd (by simpa [Memory.find] using h1) hc.2
        · exact heq
        · have h1 := h d.1 hd.1
          rw [Memory.find_of_lt (c :: q) d.1 (fun e he => by
            rcases List.mem_cons.mp he with rfl | he
            · exact hgt
            · exact hgt.trans (hq.1 e he))] at h1
          exact absurd (by simpa [Memory.find] using h1.symm) hd.2
      have hv : c.2 = d.2 := by simpa [Memory.find, key] using h c.1 hc.1
      have hcd : c = d := Prod.ext key hv
      subst hcd
      congr 1
      refine ih r ⟨hq.2, fun e he => hm.2 e (by simp [he])⟩ ⟨hr.2, fun e he => hn.2 e (by simp [he])⟩ fun k hk => ?_
      by_cases hkc : c.1 = k
      · rw [Memory.find_of_lt q k (fun e he => hkc ▸ hq.1 e he), Memory.find_of_lt r k (fun e he => hkc ▸ hr.1 e he)]
      · simpa [Memory.find, hkc] using h k hk

/-- "Equal memories are equal data": canonical stores with the same cells are equal. -/
theorem Memory.ext_of_wf (m n : Memory) (hm : m.wf = true) (hn : n.wf = true)
    (h : ∀ a : CellAddr, m.read a = n.read a) : m = n :=
  Memory.eq_of_find_eq m n hm hn fun k hk => by
    simpa [Memory.read, Nat.mod_eq_of_lt hk] using h (BitVec.ofNat 6 k)

end Sys2Proof.Machine
end

