-- ==== Sys2Proof/Laws/State.lean ====
section
/-! SUPPORT. One lemma per field per update of the state, and the cell reads after each update. -/

namespace Sys2Proof.Machine

open Sys2Proof.Config

/-! ## `State.setX` -/

@[simp] theorem setX_cells (s : State) (a : CellAddr) (v : Byte) : (s.setX a v).cells = s.cells.write a v := rfl
@[simp] theorem setX_idx (s : State) (a : CellAddr) (v : Byte) : (s.setX a v).idx = s.idx := rfl
@[simp] theorem setX_uipNow (s : State) (a : CellAddr) (v : Byte) : (s.setX a v).uipNow = s.uipNow := rfl
@[simp] theorem setX_rtcPresent (s : State) (a : CellAddr) (v : Byte) : (s.setX a v).rtcPresent = s.rtcPresent := rfl
@[simp] theorem setX_latch0 (s : State) (a : CellAddr) (v : Byte) : (s.setX a v).latch0 = s.latch0 := rfl
@[simp] theorem setX_latch1 (s : State) (a : CellAddr) (v : Byte) : (s.setX a v).latch1 = s.latch1 := rfl
@[simp] theorem setX_plat (s : State) (a : CellAddr) (v : Byte) : (s.setX a v).plat = s.plat := rfl
@[simp] theorem setX_ioPermitted (s : State) (a : CellAddr) (v : Byte) : (s.setX a v).ioPermitted = s.ioPermitted := rfl
@[simp] theorem setX_params (s : State) (a : CellAddr) (v : Byte) : (s.setX a v).params = s.params := rfl
@[simp] theorem setX_requests (s : State) (a : CellAddr) (v : Byte) : (s.setX a v).requests = s.requests := rfl
@[simp] theorem setX_running (s : State) (a : CellAddr) (v : Byte) : (s.setX a v).running = s.running := rfl
@[simp] theorem setX_trace (s : State) (a : CellAddr) (v : Byte) : (s.setX a v).trace = s.trace := rfl
@[simp] theorem setX_outcome (s : State) (a : CellAddr) (v : Byte) : (s.setX a v).outcome = s.outcome := rfl
@[simp] theorem setX_script (s : State) (a : CellAddr) (v : Byte) : (s.setX a v).script = s.script := rfl
@[simp] theorem setX_drawCount (s : State) (a : CellAddr) (v : Byte) : (s.setX a v).drawCount = s.drawCount := rfl
@[simp] theorem setX_x_same (s : State) (a : CellAddr) (v : Byte) : (s.setX a v).x a = v := Memory.read_write_same s.cells a v
theorem setX_x (s : State) (a b : CellAddr) (v : Byte) : (s.setX a v).x b = if b = a then v else s.x b :=
  Memory.read_write s.cells a b v
theorem setX_x_other (s : State) {a b : CellAddr} (v : Byte) (h : b ≠ a) : (s.setX a v).x b = s.x b :=
  Memory.read_write_other s.cells v h

/-! ## `State.setSel` -/

@[simp] theorem setSel_cells (s : State) (c : Channel) (v : Byte) : (s.setSel c v).cells = s.cells := by cases c <;> rfl
@[simp] theorem setSel_idx (s : State) (c : Channel) (v : Byte) : (s.setSel c v).idx = s.idx := by cases c <;> rfl
@[simp] theorem setSel_uipNow (s : State) (c : Channel) (v : Byte) : (s.setSel c v).uipNow = s.uipNow := by cases c <;> rfl
@[simp] theorem setSel_rtcPresent (s : State) (c : Channel) (v : Byte) : (s.setSel c v).rtcPresent = s.rtcPresent := by
    cases c <;> rfl
@[simp] theorem setSel_plat (s : State) (c : Channel) (v : Byte) : (s.setSel c v).plat = s.plat := by cases c <;> rfl
@[simp] theorem setSel_ioPermitted (s : State) (c : Channel) (v : Byte) : (s.setSel c v).ioPermitted = s.ioPermitted := by
    cases c <;> rfl
@[simp] theorem setSel_params (s : State) (c : Channel) (v : Byte) : (s.setSel c v).params = s.params := by cases c <;> rfl
@[simp] theorem setSel_requests (s : State) (c : Channel) (v : Byte) : (s.setSel c v).requests = s.requests := by cases c <;> rfl
@[simp] theorem setSel_running (s : State) (c : Channel) (v : Byte) : (s.setSel c v).running = s.running := by cases c <;> rfl
@[simp] theorem setSel_trace (s : State) (c : Channel) (v : Byte) : (s.setSel c v).trace = s.trace := by cases c <;> rfl
@[simp] theorem setSel_outcome (s : State) (c : Channel) (v : Byte) : (s.setSel c v).outcome = s.outcome := by cases c <;> rfl
@[simp] theorem setSel_script (s : State) (c : Channel) (v : Byte) : (s.setSel c v).script = s.script := by cases c <;> rfl
@[simp] theorem setSel_drawCount (s : State) (c : Channel) (v : Byte) : (s.setSel c v).drawCount = s.drawCount := by
    cases c <;> rfl
@[simp] theorem setSel_x (s : State) (c : Channel) (v : Byte) (b : CellAddr) : (s.setSel c v).x b = s.x b := by cases c <;> rfl
@[simp] theorem setSel_latch_same (s : State) (c : Channel) (v : Byte) :
    (s.setSel c v).latch c = { s.latch c with sel := v } := by cases c <;> rfl
theorem setSel_latch_other (s : State) {c d : Channel} (v : Byte) (h : d ≠ c) : (s.setSel c v).latch d = s.latch d := by
  cases c <;> cases d <;> first | rfl | exact absurd rfl h

/-! ## `record` -/

@[simp] theorem record_cells (s : State) (e : BusEvent) : (record e s).cells = s.cells := rfl
@[simp] theorem record_idx (s : State) (e : BusEvent) : (record e s).idx = s.idx := rfl
@[simp] theorem record_uipNow (s : State) (e : BusEvent) : (record e s).uipNow = s.uipNow := rfl
@[simp] theorem record_rtcPresent (s : State) (e : BusEvent) : (record e s).rtcPresent = s.rtcPresent := rfl
@[simp] theorem record_latch0 (s : State) (e : BusEvent) : (record e s).latch0 = s.latch0 := rfl
@[simp] theorem record_latch1 (s : State) (e : BusEvent) : (record e s).latch1 = s.latch1 := rfl
@[simp] theorem record_plat (s : State) (e : BusEvent) : (record e s).plat = s.plat := rfl
@[simp] theorem record_ioPermitted (s : State) (e : BusEvent) : (record e s).ioPermitted = s.ioPermitted := rfl
@[simp] theorem record_params (s : State) (e : BusEvent) : (record e s).params = s.params := rfl
@[simp] theorem record_requests (s : State) (e : BusEvent) : (record e s).requests = s.requests := rfl
@[simp] theorem record_running (s : State) (e : BusEvent) : (record e s).running = s.running := rfl
@[simp] theorem record_trace (s : State) (e : BusEvent) : (record e s).trace = s.trace ++ [e] := rfl
@[simp] theorem record_outcome (s : State) (e : BusEvent) : (record e s).outcome = s.outcome := rfl
@[simp] theorem record_script (s : State) (e : BusEvent) : (record e s).script = s.script := rfl
@[simp] theorem record_drawCount (s : State) (e : BusEvent) : (record e s).drawCount = s.drawCount := rfl
@[simp] theorem record_x (s : State) (e : BusEvent) (b : CellAddr) : (record e s).x b = s.x b := rfl

/-! ## `deviceSelect` -/

@[simp] theorem deviceSelect_cells (s : State) (v : Byte) : (deviceSelect v s).cells = s.cells := rfl
@[simp] theorem deviceSelect_idx (s : State) (v : Byte) : (deviceSelect v s).idx = v.setWidth 6 := rfl
@[simp] theorem deviceSelect_uipNow (s : State) (v : Byte) : (deviceSelect v s).uipNow = s.uipNow := rfl
@[simp] theorem deviceSelect_rtcPresent (s : State) (v : Byte) : (deviceSelect v s).rtcPresent = s.rtcPresent := rfl
@[simp] theorem deviceSelect_latch0 (s : State) (v : Byte) : (deviceSelect v s).latch0 = s.latch0 := rfl
@[simp] theorem deviceSelect_latch1 (s : State) (v : Byte) : (deviceSelect v s).latch1 = s.latch1 := rfl
@[simp] theorem deviceSelect_plat (s : State) (v : Byte) : (deviceSelect v s).plat = s.plat := rfl
@[simp] theorem deviceSelect_ioPermitted (s : State) (v : Byte) : (deviceSelect v s).ioPermitted = s.ioPermitted := rfl
@[simp] theorem deviceSelect_params (s : State) (v : Byte) : (deviceSelect v s).params = s.params := rfl
@[simp] theorem deviceSelect_requests (s : State) (v : Byte) : (deviceSelect v s).requests = s.requests := rfl
@[simp] theorem deviceSelect_running (s : State) (v : Byte) : (deviceSelect v s).running = s.running := rfl
@[simp] theorem deviceSelect_trace (s : State) (v : Byte) : (deviceSelect v s).trace = s.trace := rfl
@[simp] theorem deviceSelect_outcome (s : State) (v : Byte) : (deviceSelect v s).outcome = s.outcome := rfl
@[simp] theorem deviceSelect_script (s : State) (v : Byte) : (deviceSelect v s).script = s.script := rfl
@[simp] theorem deviceSelect_drawCount (s : State) (v : Byte) : (deviceSelect v s).drawCount = s.drawCount := rfl
@[simp] theorem deviceSelect_x (s : State) (v : Byte) (b : CellAddr) : (deviceSelect v s).x b = s.x b := rfl

/-! ## `finish` -/

@[simp] theorem finish_cells (s : State) (r : Result) : (finish r s).cells = s.cells := rfl
@[simp] theorem finish_idx (s : State) (r : Result) : (finish r s).idx = s.idx := rfl
@[simp] theorem finish_uipNow (s : State) (r : Result) : (finish r s).uipNow = s.uipNow := rfl
@[simp] theorem finish_rtcPresent (s : State) (r : Result) : (finish r s).rtcPresent = s.rtcPresent := rfl
@[simp] theorem finish_latch0 (s : State) (r : Result) : (finish r s).latch0 = s.latch0 := rfl
@[simp] theorem finish_latch1 (s : State) (r : Result) : (finish r s).latch1 = s.latch1 := rfl
@[simp] theorem finish_plat (s : State) (r : Result) : (finish r s).plat = s.plat := rfl
@[simp] theorem finish_ioPermitted (s : State) (r : Result) : (finish r s).ioPermitted = s.ioPermitted := rfl
@[simp] theorem finish_params (s : State) (r : Result) : (finish r s).params = s.params := rfl
@[simp] theorem finish_requests (s : State) (r : Result) : (finish r s).requests = s.requests := rfl
@[simp] theorem finish_trace (s : State) (r : Result) : (finish r s).trace = s.trace := rfl
@[simp] theorem finish_script (s : State) (r : Result) : (finish r s).script = s.script := rfl
@[simp] theorem finish_drawCount (s : State) (r : Result) : (finish r s).drawCount = s.drawCount := rfl
@[simp] theorem finish_running (s : State) (r : Result) : (finish r s).running = none := rfl
@[simp] theorem finish_outcome (s : State) (r : Result) : (finish r s).outcome = some r := rfl
@[simp] theorem finish_x (s : State) (r : Result) (b : CellAddr) : (finish r s).x b = s.x b := rfl
@[simp] theorem finish_latch (s : State) (r : Result) (c : Channel) : (finish r s).latch c = s.latch c := rfl

/-! ## `accept` -/

@[simp] theorem accept_cells (s : State) (i : Instr) : (accept i s).cells = s.cells := rfl
@[simp] theorem accept_idx (s : State) (i : Instr) : (accept i s).idx = s.idx := rfl
@[simp] theorem accept_uipNow (s : State) (i : Instr) : (accept i s).uipNow = s.uipNow := rfl
@[simp] theorem accept_rtcPresent (s : State) (i : Instr) : (accept i s).rtcPresent = s.rtcPresent := rfl
@[simp] theorem accept_latch0 (s : State) (i : Instr) : (accept i s).latch0 = s.latch0 := rfl
@[simp] theorem accept_latch1 (s : State) (i : Instr) : (accept i s).latch1 = s.latch1 := rfl
@[simp] theorem accept_plat (s : State) (i : Instr) : (accept i s).plat = s.plat := rfl
@[simp] theorem accept_ioPermitted (s : State) (i : Instr) : (accept i s).ioPermitted = s.ioPermitted := rfl
@[simp] theorem accept_params (s : State) (i : Instr) : (accept i s).params = s.params := rfl
@[simp] theorem accept_requests (s : State) (i : Instr) : (accept i s).requests = s.requests := rfl
@[simp] theorem accept_script (s : State) (i : Instr) : (accept i s).script = s.script := rfl
@[simp] theorem accept_drawCount (s : State) (i : Instr) : (accept i s).drawCount = s.drawCount := rfl
@[simp] theorem accept_trace (s : State) (i : Instr) : (accept i s).trace = [] := rfl
@[simp] theorem accept_running (s : State) (i : Instr) : (accept i s).running = some ⟨i, 0⟩ := rfl
@[simp] theorem accept_outcome (s : State) (i : Instr) : (accept i s).outcome = none := rfl
@[simp] theorem accept_x (s : State) (i : Instr) (b : CellAddr) : (accept i s).x b = s.x b := rfl

/-! ## `raise` -/

@[simp] theorem raise_cells (s : State) (e : OpError) : (raise e s).cells = s.cells := rfl
@[simp] theorem raise_idx (s : State) (e : OpError) : (raise e s).idx = s.idx := rfl
@[simp] theorem raise_uipNow (s : State) (e : OpError) : (raise e s).uipNow = s.uipNow := rfl
@[simp] theorem raise_rtcPresent (s : State) (e : OpError) : (raise e s).rtcPresent = s.rtcPresent := rfl
@[simp] theorem raise_latch0 (s : State) (e : OpError) : (raise e s).latch0 = s.latch0 := rfl
@[simp] theorem raise_latch1 (s : State) (e : OpError) : (raise e s).latch1 = s.latch1 := rfl
@[simp] theorem raise_plat (s : State) (e : OpError) : (raise e s).plat = s.plat := rfl
@[simp] theorem raise_ioPermitted (s : State) (e : OpError) : (raise e s).ioPermitted = s.ioPermitted := rfl
@[simp] theorem raise_params (s : State) (e : OpError) : (raise e s).params = s.params := rfl
@[simp] theorem raise_requests (s : State) (e : OpError) : (raise e s).requests = s.requests := rfl
@[simp] theorem raise_running (s : State) (e : OpError) : (raise e s).running = none := rfl
@[simp] theorem raise_trace (s : State) (e : OpError) : (raise e s).trace = [] := rfl
@[simp] theorem raise_outcome (s : State) (e : OpError) : (raise e s).outcome = some (.err e) := rfl
@[simp] theorem raise_script (s : State) (e : OpError) : (raise e s).script = s.script := rfl
@[simp] theorem raise_drawCount (s : State) (e : OpError) : (raise e s).drawCount = s.drawCount := rfl
@[simp] theorem raise_x (s : State) (e : OpError) (b : CellAddr) : (raise e s).x b = s.x b := rfl

/-! ## `runPure` -/

@[simp] theorem runPure_cells (s : State) (v : Value) : (runPure v s).cells = s.cells := rfl
@[simp] theorem runPure_idx (s : State) (v : Value) : (runPure v s).idx = s.idx := rfl
@[simp] theorem runPure_uipNow (s : State) (v : Value) : (runPure v s).uipNow = s.uipNow := rfl
@[simp] theorem runPure_rtcPresent (s : State) (v : Value) : (runPure v s).rtcPresent = s.rtcPresent := rfl
@[simp] theorem runPure_latch0 (s : State) (v : Value) : (runPure v s).latch0 = s.latch0 := rfl
@[simp] theorem runPure_latch1 (s : State) (v : Value) : (runPure v s).latch1 = s.latch1 := rfl
@[simp] theorem runPure_plat (s : State) (v : Value) : (runPure v s).plat = s.plat := rfl
@[simp] theorem runPure_ioPermitted (s : State) (v : Value) : (runPure v s).ioPermitted = s.ioPermitted := rfl
@[simp] theorem runPure_params (s : State) (v : Value) : (runPure v s).params = s.params := rfl
@[simp] theorem runPure_requests (s : State) (v : Value) : (runPure v s).requests = s.requests := rfl
@[simp] theorem runPure_running (s : State) (v : Value) : (runPure v s).running = none := rfl
@[simp] theorem runPure_trace (s : State) (v : Value) : (runPure v s).trace = [] := rfl
@[simp] theorem runPure_outcome (s : State) (v : Value) : (runPure v s).outcome = some (.ok v []) := rfl
@[simp] theorem runPure_script (s : State) (v : Value) : (runPure v s).script = s.script := rfl
@[simp] theorem runPure_drawCount (s : State) (v : Value) : (runPure v s).drawCount = s.drawCount := rfl
@[simp] theorem runPure_x (s : State) (v : Value) (b : CellAddr) : (runPure v s).x b = s.x b := rfl

/-! ## `State.withFetchWord` -/

@[simp] theorem withFetchWord_cells (s : State) (nbits w : Nat) : (s.withFetchWord nbits w).cells = s.cells := rfl
@[simp] theorem withFetchWord_idx (s : State) (nbits w : Nat) : (s.withFetchWord nbits w).idx = s.idx := rfl
@[simp] theorem withFetchWord_uipNow (s : State) (nbits w : Nat) : (s.withFetchWord nbits w).uipNow = s.uipNow := rfl
@[simp] theorem withFetchWord_rtcPresent (s : State) (nbits w : Nat) : (s.withFetchWord nbits w).rtcPresent = s.rtcPresent := rfl
@[simp] theorem withFetchWord_latch0 (s : State) (nbits w : Nat) : (s.withFetchWord nbits w).latch0 = s.latch0 := rfl
@[simp] theorem withFetchWord_latch1 (s : State) (nbits w : Nat) : (s.withFetchWord nbits w).latch1 = s.latch1 := rfl
@[simp] theorem withFetchWord_plat (s : State) (nbits w : Nat) : (s.withFetchWord nbits w).plat = s.plat := rfl
@[simp] theorem withFetchWord_ioPermitted (s : State) (nbits w : Nat) : (s.withFetchWord nbits w).ioPermitted = s.ioPermitted :=
    rfl
@[simp] theorem withFetchWord_params (s : State) (nbits w : Nat) : (s.withFetchWord nbits w).params = s.params := rfl
@[simp] theorem withFetchWord_requests (s : State) (nbits w : Nat) :
    (s.withFetchWord nbits w).requests = tableRequest nbits w :: s.requests := rfl
@[simp] theorem withFetchWord_running (s : State) (nbits w : Nat) : (s.withFetchWord nbits w).running = none := rfl
@[simp] theorem withFetchWord_trace (s : State) (nbits w : Nat) : (s.withFetchWord nbits w).trace = s.trace := rfl
@[simp] theorem withFetchWord_outcome (s : State) (nbits w : Nat) : (s.withFetchWord nbits w).outcome = s.outcome := rfl
@[simp] theorem withFetchWord_script (s : State) (nbits w : Nat) : (s.withFetchWord nbits w).script = s.script := rfl
@[simp] theorem withFetchWord_drawCount (s : State) (nbits w : Nat) : (s.withFetchWord nbits w).drawCount = s.drawCount := rfl
@[simp] theorem withFetchWord_x (s : State) (nbits w : Nat) (b : CellAddr) : (s.withFetchWord nbits w).x b = s.x b := rfl

/-! ## Channel registers -/

theorem latch_eq_of_fields {s t : State} (h0 : t.latch0 = s.latch0) (h1 : t.latch1 = s.latch1) (c : Channel) :
    t.latch c = s.latch c := by cases c <;> assumption

@[simp] theorem setX_latch (s : State) (a : CellAddr) (v : Byte) (c : Channel) : (s.setX a v).latch c = s.latch c :=
  latch_eq_of_fields (s := s) rfl rfl c
@[simp] theorem record_latch (s : State) (e : BusEvent) (c : Channel) : (record e s).latch c = s.latch c :=
  latch_eq_of_fields (s := s) rfl rfl c
@[simp] theorem deviceSelect_latch (s : State) (v : Byte) (c : Channel) : (deviceSelect v s).latch c = s.latch c :=
  latch_eq_of_fields (s := s) rfl rfl c

end Sys2Proof.Machine
end

