-- ==== Sys2Proof/Laws/Agent.lean ====
section
/-! SUPPORT. What the environment's turn can do (10_state.md R85): the fields it leaves alone, the cells it leaves alone, time
cells under SET, Register C, and a quiet turn. -/

namespace Sys2Proof.Machine

open Sys2Proof.Config

/-! ## Running a bus event -/

section
variable {α β : Type}

@[simp] theorem device_bind (m : Device α) (f : α → Device β) (s : State) : (m >>= f) s = f (m s).1 (m s).2 := rfl

@[simp] theorem device_pure (a : α) (s : State) : (pure a : Device α) s = (a, s) := rfl

@[simp] theorem device_get (s : State) : (get : Device State) s = (s, s) := rfl

@[simp] theorem device_modify (f : State → State) (s : State) : (modify f : Device PUnit) s = (⟨⟩, f s) := rfl

@[simp] theorem device_map (f : α → β) (m : Device α) (s : State) : (f <$> m : Device β) s = (f (m s).1, (m s).2) := rfl

/-! ## Running a program -/

@[simp] theorem run_pure (a : α) (s : State) : (Bus.pure a).run s = (a, s) := rfl

@[simp] theorem run_ask (q : Request) (k : Byte → Bus α) (s : State) :
    (Bus.ask q k).run s = (k (perform q s).1).run (perform q s).2 := rfl

@[simp] theorem run_step (b : Bus α) (s : State) : (Bus.step b).run s = b.run s := rfl

@[simp] theorem run_bind (m : Bus α) (f : α → Bus β) (s : State) : (m.bind f).run s = (f (m.run s).1).run (m.run s).2 := by
  induction m generalizing s with
  | pure a => rfl
  | ask q k ih => exact ih _ _
  | step b ih => exact ih _

@[simp] theorem run_stmt (m : Bus α) (f : α → Bus β) (s : State) : (m.stmt f).run s = (f (m.run s).1).run (m.run s).2 := by
  rw [Bus.stmt, run_bind, run_step]

@[simp] theorem run_request (q : Request) (s : State) : (Bus.request q).run s = perform q s := rfl

end

/-! ## Cells -/

theorem replaceCell_x (a b : CellAddr) (v : Option Byte) (s : State) :
    (replaceCell a v s).x b = if b = a then v.getD (s.x b) else s.x b := by
  cases v with
  | none => simp [replaceCell]
  | some w => simp [replaceCell, setX_x]

theorem clockCells_x_other (c : ClockAct) (s : State) {b : CellAddr} (h : timeCell b = false) :
    (clockCells c s).x b = s.x b := by
  simp only [timeCell, Bool.or_eq_false_iff, beq_eq_false_iff_ne] at h
  obtain ⟨⟨⟨⟨⟨⟨h1, h2⟩, h3⟩, h4⟩, h5⟩, h6⟩, h7⟩ := h
  unfold clockCells
  split
  · rfl
  · simp [replaceCell_x, h1, h2, h3, h4, h5, h6, h7]

theorem clockCells_set (c : ClockAct) (s : State) (h : setFlag (s.x REG_B) = true) : clockCells c s = s := by
  simp [clockCells, h]

theorem clockUip_x (v : Option Bool) (s : State) (b : CellAddr) : (clockUip v s).x b = s.x b := by
  cases v <;> rfl

theorem clockFlags_x_other (v : Option Nibble) (s : State) {b : CellAddr} (h : b ≠ REG_C) :
    (clockFlags v s).x b = s.x b := by
  cases v with
  | none => rfl
  | some f => exact setX_x_other _ _ h

theorem clockFlags_x_regC (v : Option Nibble) (s : State) :
    (clockFlags v s).x REG_C = s.x REG_C ||| ((v.getD 0#4).setWidth 8 <<< 4) := by
  cases v with
  | none => simp [clockFlags]
  | some f => simp [clockFlags]

theorem agentCell_false {a : CellAddr} (h : agentCell a = false) : timeCell a = false ∧ a ≠ REG_C := by
  simpa [agentCell] using h

theorem timeCell_ne_regC {a : CellAddr} (h : timeCell a = true) : a ≠ REG_C := by
  rintro rfl
  exact absurd h (by decide)

theorem clockStep_x (c : ClockAct) (s : State) {a : CellAddr} (h : agentCell a = false) :
    (clockStep c s).x a = s.x a := by
  obtain ⟨ht, hc⟩ := agentCell_false h
  rw [clockStep, clockFlags_x_other _ _ hc, clockCells_x_other _ _ ht, clockUip_x]

theorem clockStep_x_set (c : ClockAct) (s : State) {a : CellAddr} (h : a ≠ REG_C)
    (hs : setFlag (s.x REG_B) = true) : (clockStep c s).x a = s.x a := by
  rw [clockStep, clockFlags_x_other _ _ h, clockCells_set _ _ (by rwa [clockUip_x]), clockUip_x]

theorem clockStep_x_regC (c : ClockAct) (s : State) :
    (clockStep c s).x REG_C = s.x REG_C ||| ((c.setFlags.getD 0#4).setWidth 8 <<< 4) := by
  rw [clockStep, clockFlags_x_regC, clockCells_x_other _ _ (by decide), clockUip_x]

theorem clockStep_none (s : State) : clockStep ClockAct.none s = s := by
  cases h : setFlag (s.x REG_B) <;> simp [clockStep, ClockAct.none, clockUip, clockFlags, clockCells, replaceCell, h]

/-! ## The fields the environment leaves alone -/

theorem replaceCell_eq (a : CellAddr) (v : Option Byte) (s : State) :
    ∃ m, replaceCell a v s = { s with cells := m } := by
  cases v with
  | none => exact ⟨s.cells, rfl⟩
  | some b => exact ⟨s.cells.write a b, rfl⟩

/-- A step of the clock agent changes the store and `uip_now` only. -/
theorem clockStep_eq (c : ClockAct) (s : State) : ∃ m u, clockStep c s = { s with cells := m, uipNow := u } := by
  have hu : ∃ u, clockUip c.uip s = { s with uipNow := u } := by
    cases h : c.uip with
    | none => exact ⟨s.uipNow, rfl⟩
    | some b => exact ⟨b, rfl⟩
  have hc : ∀ t, ∃ m, clockCells c t = { t with cells := m } := by
    intro t
    unfold clockCells
    split
    · exact ⟨t.cells, rfl⟩
    · have step : ∀ (a : CellAddr) (v : Option Byte) (r : State), (∃ m, r = { t with cells := m }) →
          ∃ m, replaceCell a v r = { t with cells := m } := by
        rintro a v r ⟨m, rfl⟩
        obtain ⟨m', h⟩ := replaceCell_eq a v { t with cells := m }
        exact ⟨m', h⟩
      exact step _ _ _ (step _ _ _ (step _ _ _ (step _ _ _ (step _ _ _ (step _ _ _ (step _ _ _ ⟨t.cells, rfl⟩))))))
  have hf : ∀ t, ∃ m, clockFlags c.setFlags t = { t with cells := m } := by
    intro t
    cases h : c.setFlags with
    | none => exact ⟨t.cells, rfl⟩
    | some f => exact ⟨_, rfl⟩
  obtain ⟨u, hu⟩ := hu
  obtain ⟨m, hm⟩ := hc (clockUip c.uip s)
  obtain ⟨m', hm'⟩ := hf (clockCells c (clockUip c.uip s))
  refine ⟨m', u, ?_⟩
  rw [clockStep, hm', hm, hu]

theorem nextDraw_eq (s : State) : ∃ l n, (nextDraw s).2 = { s with script := l, drawCount := n } := by
  unfold nextDraw
  split
  · exact ⟨_, s.drawCount, rfl⟩
  · exact ⟨s.script, _, rfl⟩

/-- The environment's turn changes the store, `uip_now` and the draws only. -/
theorem agentTurn_eq (s : State) : ∃ m u l n,
    (agentTurn s).2 = { s with cells := m, uipNow := u, script := l, drawCount := n } := by
  obtain ⟨l, n, hd⟩ := nextDraw_eq s
  obtain ⟨m, u, hc⟩ := clockStep_eq (nextDraw s).1.clock (nextDraw s).2
  refine ⟨m, u, l, n, ?_⟩
  show clockStep (nextDraw s).1.clock (nextDraw s).2 = _
  rw [hc, hd]

@[simp] theorem agentTurn_idx (s : State) : (agentTurn s).2.idx = s.idx := by
  obtain ⟨m, u, l, n, h⟩ := agentTurn_eq s; rw [h]
@[simp] theorem agentTurn_rtcPresent (s : State) : (agentTurn s).2.rtcPresent = s.rtcPresent := by
  obtain ⟨m, u, l, n, h⟩ := agentTurn_eq s; rw [h]
@[simp] theorem agentTurn_latch0 (s : State) : (agentTurn s).2.latch0 = s.latch0 := by
  obtain ⟨m, u, l, n, h⟩ := agentTurn_eq s; rw [h]
@[simp] theorem agentTurn_latch1 (s : State) : (agentTurn s).2.latch1 = s.latch1 := by
  obtain ⟨m, u, l, n, h⟩ := agentTurn_eq s; rw [h]
@[simp] theorem agentTurn_latch (s : State) (c : Channel) : (agentTurn s).2.latch c = s.latch c :=
  latch_eq_of_fields (agentTurn_latch0 s) (agentTurn_latch1 s) c
@[simp] theorem agentTurn_plat (s : State) : (agentTurn s).2.plat = s.plat := by
  obtain ⟨m, u, l, n, h⟩ := agentTurn_eq s; rw [h]
@[simp] theorem agentTurn_ioPermitted (s : State) : (agentTurn s).2.ioPermitted = s.ioPermitted := by
  obtain ⟨m, u, l, n, h⟩ := agentTurn_eq s; rw [h]
@[simp] theorem agentTurn_params (s : State) : (agentTurn s).2.params = s.params := by
  obtain ⟨m, u, l, n, h⟩ := agentTurn_eq s; rw [h]
@[simp] theorem agentTurn_requests (s : State) : (agentTurn s).2.requests = s.requests := by
  obtain ⟨m, u, l, n, h⟩ := agentTurn_eq s; rw [h]
@[simp] theorem agentTurn_running (s : State) : (agentTurn s).2.running = s.running := by
  obtain ⟨m, u, l, n, h⟩ := agentTurn_eq s; rw [h]
@[simp] theorem agentTurn_trace (s : State) : (agentTurn s).2.trace = s.trace := by
  obtain ⟨m, u, l, n, h⟩ := agentTurn_eq s; rw [h]
@[simp] theorem agentTurn_outcome (s : State) : (agentTurn s).2.outcome = s.outcome := by
  obtain ⟨m, u, l, n, h⟩ := agentTurn_eq s; rw [h]

theorem nextDraw_x (s : State) (a : CellAddr) : (nextDraw s).2.x a = s.x a := by
  obtain ⟨l, n, h⟩ := nextDraw_eq s; rw [h]; rfl

theorem agentTurn_run (s : State) : agentTurn s = ((nextDraw s).1, clockStep (nextDraw s).1.clock (nextDraw s).2) := rfl

/-- The environment's turn leaves alone every cell the clock agent does not own. -/
@[simp] theorem agentTurn_x (s : State) {a : CellAddr} (h : agentCell a = false) : (agentTurn s).2.x a = s.x a := by
  rw [agentTurn_run, clockStep_x _ _ h, nextDraw_x]

/-- While SET is 1 the environment's turn leaves the time cells alone (10_state.md R56, R85). -/
theorem agentTurn_x_set (s : State) {a : CellAddr} (h : a ≠ REG_C) (hs : setFlag (s.x REG_B) = true) :
    (agentTurn s).2.x a = s.x a := by
  rw [agentTurn_run, clockStep_x_set _ _ h (by rwa [nextDraw_x]), nextDraw_x]

/-- The environment's turn only sets bits 7:4 of Register C (10_state.md R85). -/
theorem agentTurn_x_regC (s : State) : ∃ f : Nibble, (agentTurn s).2.x REG_C = s.x REG_C ||| (f.setWidth 8 <<< 4) :=
  ⟨_, by rw [agentTurn_run, clockStep_x_regC, nextDraw_x]⟩

/-! ## Quiet turns -/

theorem QuietFor_mono {s : State} {n k : Nat} (h : s.QuietFor n) (hk : k ≤ n) : s.QuietFor k :=
  ⟨hk.trans h.1, fun d hd => h.2 d (List.take_subset_take_left _ hk hd)⟩

/-- A quiet turn takes the script's first draw and changes nothing else. -/
theorem agentTurn_quiet {s : State} {n : Nat} (h : s.QuietFor (n + 1)) :
    ∃ d r, s.script = d :: r ∧ quietDraw d ∧ agentTurn s = (d, { s with script := r }) ∧
      State.QuietFor { s with script := r } n := by
  obtain ⟨hl, hq⟩ := h
  cases hs : s.script with
  | nil => simp [hs] at hl
  | cons d r =>
    have hd : quietDraw d := hq d (by simp [hs])
    refine ⟨d, r, rfl, hd, ?_, ?_⟩
    · rw [agentTurn_run]
      simp [nextDraw, hs, hd.1, clockStep_none]
    · refine ⟨by simpa [hs] using hl, fun e he => hq e ?_⟩
      simp only [hs, List.take_succ_cons, List.mem_cons]
      exact Or.inr he

end Sys2Proof.Machine
end

