-- ==== Sys2Proof/Laws/Bus.lean ====
section
/-! SUPPORT. What each bus and store primitive can do: the fields it leaves alone, the trace it adds, the value it reads, the
cell it writes. -/

namespace Sys2Proof.Machine

open Sys2Proof.Config

/-! ## The device -/

theorem deviceRead_eq (d : Draw) (s : State) : ∃ m, (deviceRead d s).2 = { s with cells := m } := by
  unfold deviceRead
  split
  · split
    · exact ⟨_, rfl⟩
    · split
      · exact ⟨s.cells, rfl⟩
      · split <;> exact ⟨s.cells, rfl⟩
  · exact ⟨s.cells, rfl⟩

theorem deviceWrite_eq (v : Byte) (s : State) : ∃ m, deviceWrite v s = { s with cells := m } := by
  unfold deviceWrite
  split
  · split
    · exact ⟨_, rfl⟩
    · split
      · exact ⟨_, rfl⟩
      · split
        · exact ⟨s.cells, rfl⟩
        · exact ⟨_, rfl⟩
  · exact ⟨s.cells, rfl⟩

/-- A data read changes no cell but Register C, when that is the cell read (20_memory.md R110). -/
theorem deviceRead_x (d : Draw) (s : State) {b : CellAddr} (h : b ≠ REG_C ∨ s.idx ≠ REG_C) :
    (deviceRead d s).2.x b = s.x b := by
  unfold deviceRead
  split
  · split
    · rename_i hc
      exact setX_x_other _ _ (h.resolve_right fun g => g hc)
    · split
      · rfl
      · split <;> rfl
  · rfl

/-- A data read of Register C clears it (10_state.md R60). -/
theorem deviceRead_regC (d : Draw) (s : State) (hp : s.rtcPresent = true) (hi : s.idx = REG_C) :
    deviceRead d s = (readC d (s.x REG_C), s.setX REG_C 0x00#8) := by
  simp [deviceRead, hp, hi]

/-- A data read of a plain cell shows it (10_state.md R81). -/
theorem deviceRead_plain (d : Draw) (s : State) (h : s.readsPlain s.idx) : deviceRead d s = (s.x s.idx, s) := by
  simp [deviceRead, h.1, h.2.1, h.2.2.1, h.2.2.2]

/-- A data read of Register A shows the live UIP over bits 6:0 (10_state.md R81). -/
theorem deviceRead_regA (d : Draw) (s : State) (hp : s.rtcPresent = true) (hi : s.idx = REG_A) :
    deviceRead d s = (overBits s.uipNow ((s.x REG_A).extractLsb' 0 7), s) := by
  rw [deviceRead, if_pos hp, hi, if_neg (by decide), if_neg (by decide), if_pos rfl]

/-- A data read of Register D shows the drawn VRT over bits 6:0 (10_state.md R81). -/
theorem deviceRead_regD (d : Draw) (s : State) (hp : s.rtcPresent = true) (hi : s.idx = REG_D) :
    deviceRead d s = (readD d (s.x REG_D), s) := by
  rw [deviceRead, if_pos hp, hi, if_neg (by decide), if_pos rfl]

/-- A data write changes the addressed cell, as its device rule says, and no other (10_state.md R82). -/
theorem deviceWrite_x (v : Byte) (s : State) (b : CellAddr) (hp : s.rtcPresent = true) :
    (deviceWrite v s).x b = if b = s.idx then storedByte s.params.setClearsUie b (s.x b) v else s.x b := by
  unfold deviceWrite storedByte
  simp only [hp, if_true]
  split
  · rename_i h; rw [setX_x, h]; split <;> simp_all
  · split
    · rename_i h; rw [setX_x, h]; split <;> simp_all
    · split
      · split <;> simp_all
      · rw [setX_x]; split <;> simp_all

/-- An absent RTC absorbs a data write (40_register_store.md R174). -/
theorem deviceWrite_absent (v : Byte) (s : State) (hp : s.rtcPresent = false) : deviceWrite v s = s := by
  simp [deviceWrite, hp]

theorem deviceWrite_x_other (v : Byte) (s : State) {b : CellAddr} (h : b ≠ s.idx) : (deviceWrite v s).x b = s.x b := by
  cases hp : s.rtcPresent
  · rw [deviceWrite_absent v s hp]
  · rw [deviceWrite_x v s b hp, if_neg h]


/-! ## Bus primitives -/

@[simp] theorem deviceRead_rtcPresent (d : Draw) (s : State) : (deviceRead d s).2.rtcPresent = s.rtcPresent := by
  obtain ⟨m, h⟩ := deviceRead_eq d s; rw [h]
@[simp] theorem deviceWrite_rtcPresent (v : Byte) (s : State) : (deviceWrite v s).rtcPresent = s.rtcPresent := by
  obtain ⟨m, h⟩ := deviceWrite_eq v s; rw [h]
@[simp] theorem deviceRead_latch0 (d : Draw) (s : State) : (deviceRead d s).2.latch0 = s.latch0 := by
  obtain ⟨m, h⟩ := deviceRead_eq d s; rw [h]
@[simp] theorem deviceWrite_latch0 (v : Byte) (s : State) : (deviceWrite v s).latch0 = s.latch0 := by
  obtain ⟨m, h⟩ := deviceWrite_eq v s; rw [h]
@[simp] theorem deviceRead_latch1 (d : Draw) (s : State) : (deviceRead d s).2.latch1 = s.latch1 := by
  obtain ⟨m, h⟩ := deviceRead_eq d s; rw [h]
@[simp] theorem deviceWrite_latch1 (v : Byte) (s : State) : (deviceWrite v s).latch1 = s.latch1 := by
  obtain ⟨m, h⟩ := deviceWrite_eq v s; rw [h]
@[simp] theorem deviceRead_plat (d : Draw) (s : State) : (deviceRead d s).2.plat = s.plat := by
  obtain ⟨m, h⟩ := deviceRead_eq d s; rw [h]
@[simp] theorem deviceWrite_plat (v : Byte) (s : State) : (deviceWrite v s).plat = s.plat := by
  obtain ⟨m, h⟩ := deviceWrite_eq v s; rw [h]
@[simp] theorem deviceRead_ioPermitted (d : Draw) (s : State) : (deviceRead d s).2.ioPermitted = s.ioPermitted := by
  obtain ⟨m, h⟩ := deviceRead_eq d s; rw [h]
@[simp] theorem deviceWrite_ioPermitted (v : Byte) (s : State) : (deviceWrite v s).ioPermitted = s.ioPermitted := by
  obtain ⟨m, h⟩ := deviceWrite_eq v s; rw [h]
@[simp] theorem deviceRead_params (d : Draw) (s : State) : (deviceRead d s).2.params = s.params := by
  obtain ⟨m, h⟩ := deviceRead_eq d s; rw [h]
@[simp] theorem deviceWrite_params (v : Byte) (s : State) : (deviceWrite v s).params = s.params := by
  obtain ⟨m, h⟩ := deviceWrite_eq v s; rw [h]
@[simp] theorem deviceRead_requests (d : Draw) (s : State) : (deviceRead d s).2.requests = s.requests := by
  obtain ⟨m, h⟩ := deviceRead_eq d s; rw [h]
@[simp] theorem deviceRead_running (d : Draw) (s : State) : (deviceRead d s).2.running = s.running := by
  obtain ⟨m, h⟩ := deviceRead_eq d s; rw [h]
@[simp] theorem deviceWrite_requests (v : Byte) (s : State) : (deviceWrite v s).requests = s.requests := by
  obtain ⟨m, h⟩ := deviceWrite_eq v s; rw [h]
@[simp] theorem deviceWrite_running (v : Byte) (s : State) : (deviceWrite v s).running = s.running := by
  obtain ⟨m, h⟩ := deviceWrite_eq v s; rw [h]
@[simp] theorem deviceRead_outcome (d : Draw) (s : State) : (deviceRead d s).2.outcome = s.outcome := by
  obtain ⟨m, h⟩ := deviceRead_eq d s; rw [h]
@[simp] theorem deviceWrite_outcome (v : Byte) (s : State) : (deviceWrite v s).outcome = s.outcome := by
  obtain ⟨m, h⟩ := deviceWrite_eq v s; rw [h]
@[simp] theorem deviceRead_idx (d : Draw) (s : State) : (deviceRead d s).2.idx = s.idx := by
  obtain ⟨m, h⟩ := deviceRead_eq d s; rw [h]
@[simp] theorem deviceWrite_idx (v : Byte) (s : State) : (deviceWrite v s).idx = s.idx := by
  obtain ⟨m, h⟩ := deviceWrite_eq v s; rw [h]
@[simp] theorem deviceRead_uipNow (d : Draw) (s : State) : (deviceRead d s).2.uipNow = s.uipNow := by
  obtain ⟨m, h⟩ := deviceRead_eq d s; rw [h]
@[simp] theorem deviceWrite_uipNow (v : Byte) (s : State) : (deviceWrite v s).uipNow = s.uipNow := by
  obtain ⟨m, h⟩ := deviceWrite_eq v s; rw [h]
@[simp] theorem deviceRead_script (d : Draw) (s : State) : (deviceRead d s).2.script = s.script := by
  obtain ⟨m, h⟩ := deviceRead_eq d s; rw [h]
@[simp] theorem deviceWrite_script (v : Byte) (s : State) : (deviceWrite v s).script = s.script := by
  obtain ⟨m, h⟩ := deviceWrite_eq v s; rw [h]
@[simp] theorem deviceRead_drawCount (d : Draw) (s : State) : (deviceRead d s).2.drawCount = s.drawCount := by
  obtain ⟨m, h⟩ := deviceRead_eq d s; rw [h]
@[simp] theorem deviceWrite_drawCount (v : Byte) (s : State) : (deviceWrite v s).drawCount = s.drawCount := by
  obtain ⟨m, h⟩ := deviceWrite_eq v s; rw [h]
@[simp] theorem deviceRead_trace (d : Draw) (s : State) : (deviceRead d s).2.trace = s.trace := by
  obtain ⟨m, h⟩ := deviceRead_eq d s; rw [h]
@[simp] theorem deviceWrite_trace (v : Byte) (s : State) : (deviceWrite v s).trace = s.trace := by
  obtain ⟨m, h⟩ := deviceWrite_eq v s; rw [h]

@[simp] theorem barrier_rtcPresent (s : State) : (barrier s).2.rtcPresent = s.rtcPresent := by simp [barrier]
@[simp] theorem barrier_latch0 (s : State) : (barrier s).2.latch0 = s.latch0 := by simp [barrier]
@[simp] theorem barrier_latch1 (s : State) : (barrier s).2.latch1 = s.latch1 := by simp [barrier]
@[simp] theorem barrier_plat (s : State) : (barrier s).2.plat = s.plat := by simp [barrier]
@[simp] theorem barrier_ioPermitted (s : State) : (barrier s).2.ioPermitted = s.ioPermitted := by simp [barrier]
@[simp] theorem barrier_params (s : State) : (barrier s).2.params = s.params := by simp [barrier]
@[simp] theorem barrier_requests (s : State) : (barrier s).2.requests = s.requests := by simp [barrier]
@[simp] theorem barrier_running (s : State) : (barrier s).2.running = s.running := by simp [barrier]
@[simp] theorem barrier_outcome (s : State) : (barrier s).2.outcome = s.outcome := by simp [barrier]
@[simp] theorem barrier_idx (s : State) : (barrier s).2.idx = s.idx := by simp [barrier]
@[simp] theorem rtcSelect_rtcPresent (v : Byte) (s : State) : (rtcSelect v s).2.rtcPresent = s.rtcPresent := by simp [rtcSelect]
@[simp] theorem rtcSelect_latch0 (v : Byte) (s : State) : (rtcSelect v s).2.latch0 = s.latch0 := by simp [rtcSelect]
@[simp] theorem rtcSelect_latch1 (v : Byte) (s : State) : (rtcSelect v s).2.latch1 = s.latch1 := by simp [rtcSelect]
@[simp] theorem rtcSelect_plat (v : Byte) (s : State) : (rtcSelect v s).2.plat = s.plat := by simp [rtcSelect]
@[simp] theorem rtcSelect_ioPermitted (v : Byte) (s : State) : (rtcSelect v s).2.ioPermitted = s.ioPermitted := by
    simp [rtcSelect]
@[simp] theorem rtcSelect_params (v : Byte) (s : State) : (rtcSelect v s).2.params = s.params := by simp [rtcSelect]
@[simp] theorem rtcSelect_requests (v : Byte) (s : State) : (rtcSelect v s).2.requests = s.requests := by simp [rtcSelect]
@[simp] theorem rtcSelect_running (v : Byte) (s : State) : (rtcSelect v s).2.running = s.running := by simp [rtcSelect]
@[simp] theorem rtcSelect_outcome (v : Byte) (s : State) : (rtcSelect v s).2.outcome = s.outcome := by simp [rtcSelect]
@[simp] theorem rtcDataIn_rtcPresent (s : State) : (rtcDataIn s).2.rtcPresent = s.rtcPresent := by simp [rtcDataIn]
@[simp] theorem rtcDataIn_latch0 (s : State) : (rtcDataIn s).2.latch0 = s.latch0 := by simp [rtcDataIn]
@[simp] theorem rtcDataIn_latch1 (s : State) : (rtcDataIn s).2.latch1 = s.latch1 := by simp [rtcDataIn]
@[simp] theorem rtcDataIn_plat (s : State) : (rtcDataIn s).2.plat = s.plat := by simp [rtcDataIn]
@[simp] theorem rtcDataIn_ioPermitted (s : State) : (rtcDataIn s).2.ioPermitted = s.ioPermitted := by simp [rtcDataIn]
@[simp] theorem rtcDataIn_params (s : State) : (rtcDataIn s).2.params = s.params := by simp [rtcDataIn]
@[simp] theorem rtcDataIn_requests (s : State) : (rtcDataIn s).2.requests = s.requests := by simp [rtcDataIn]
@[simp] theorem rtcDataIn_running (s : State) : (rtcDataIn s).2.running = s.running := by simp [rtcDataIn]
@[simp] theorem rtcDataIn_outcome (s : State) : (rtcDataIn s).2.outcome = s.outcome := by simp [rtcDataIn]
@[simp] theorem rtcDataIn_idx (s : State) : (rtcDataIn s).2.idx = s.idx := by simp [rtcDataIn]
@[simp] theorem rtcDataOut_rtcPresent (v : Byte) (s : State) : (rtcDataOut v s).2.rtcPresent = s.rtcPresent := by
    simp [rtcDataOut]
@[simp] theorem rtcDataOut_latch0 (v : Byte) (s : State) : (rtcDataOut v s).2.latch0 = s.latch0 := by simp [rtcDataOut]
@[simp] theorem rtcDataOut_latch1 (v : Byte) (s : State) : (rtcDataOut v s).2.latch1 = s.latch1 := by simp [rtcDataOut]
@[simp] theorem rtcDataOut_plat (v : Byte) (s : State) : (rtcDataOut v s).2.plat = s.plat := by simp [rtcDataOut]
@[simp] theorem rtcDataOut_ioPermitted (v : Byte) (s : State) : (rtcDataOut v s).2.ioPermitted = s.ioPermitted := by
    simp [rtcDataOut]
@[simp] theorem rtcDataOut_params (v : Byte) (s : State) : (rtcDataOut v s).2.params = s.params := by simp [rtcDataOut]
@[simp] theorem rtcDataOut_requests (v : Byte) (s : State) : (rtcDataOut v s).2.requests = s.requests := by simp [rtcDataOut]
@[simp] theorem rtcDataOut_running (v : Byte) (s : State) : (rtcDataOut v s).2.running = s.running := by simp [rtcDataOut]
@[simp] theorem rtcDataOut_outcome (v : Byte) (s : State) : (rtcDataOut v s).2.outcome = s.outcome := by simp [rtcDataOut]
@[simp] theorem rtcDataOut_idx (v : Byte) (s : State) : (rtcDataOut v s).2.idx = s.idx := by simp [rtcDataOut]
@[simp] theorem selPortIn_rtcPresent (c : Channel) (p : Port) (s : State) : (selPortIn c p s).2.rtcPresent = s.rtcPresent := by
    simp [selPortIn]
@[simp] theorem selPortIn_latch0 (c : Channel) (p : Port) (s : State) : (selPortIn c p s).2.latch0 = s.latch0 := by
    simp [selPortIn]
@[simp] theorem selPortIn_latch1 (c : Channel) (p : Port) (s : State) : (selPortIn c p s).2.latch1 = s.latch1 := by
    simp [selPortIn]
@[simp] theorem selPortIn_plat (c : Channel) (p : Port) (s : State) : (selPortIn c p s).2.plat = s.plat := by simp [selPortIn]
@[simp] theorem selPortIn_ioPermitted (c : Channel) (p : Port) (s : State) : (selPortIn c p s).2.ioPermitted = s.ioPermitted :=
    by simp [selPortIn]
@[simp] theorem selPortIn_params (c : Channel) (p : Port) (s : State) : (selPortIn c p s).2.params = s.params := by
    simp [selPortIn]
@[simp] theorem selPortIn_requests (c : Channel) (p : Port) (s : State) : (selPortIn c p s).2.requests = s.requests := by
    simp [selPortIn]
@[simp] theorem selPortIn_running (c : Channel) (p : Port) (s : State) : (selPortIn c p s).2.running = s.running := by
    simp [selPortIn]
@[simp] theorem selPortIn_outcome (c : Channel) (p : Port) (s : State) : (selPortIn c p s).2.outcome = s.outcome := by
    simp [selPortIn]
@[simp] theorem selPortIn_idx (c : Channel) (p : Port) (s : State) : (selPortIn c p s).2.idx = s.idx := by simp [selPortIn]
@[simp] theorem selPortOut_rtcPresent (c : Channel) (p : Port) (v : Byte) (s : State) :
    (selPortOut c p v s).2.rtcPresent = s.rtcPresent := by simp [selPortOut]
@[simp] theorem selPortOut_plat (c : Channel) (p : Port) (v : Byte) (s : State) : (selPortOut c p v s).2.plat = s.plat := by
    simp [selPortOut]
@[simp] theorem selPortOut_ioPermitted (c : Channel) (p : Port) (v : Byte) (s : State) :
    (selPortOut c p v s).2.ioPermitted = s.ioPermitted := by simp [selPortOut]
@[simp] theorem selPortOut_params (c : Channel) (p : Port) (v : Byte) (s : State) : (selPortOut c p v s).2.params = s.params :=
    by simp [selPortOut]
@[simp] theorem selPortOut_requests (c : Channel) (p : Port) (v : Byte) (s : State) :
    (selPortOut c p v s).2.requests = s.requests := by simp [selPortOut]
@[simp] theorem selPortOut_running (c : Channel) (p : Port) (v : Byte) (s : State) :
    (selPortOut c p v s).2.running = s.running := by simp [selPortOut]
@[simp] theorem selPortOut_outcome (c : Channel) (p : Port) (v : Byte) (s : State) :
    (selPortOut c p v s).2.outcome = s.outcome := by simp [selPortOut]
@[simp] theorem selPortOut_idx (c : Channel) (p : Port) (v : Byte) (s : State) : (selPortOut c p v s).2.idx = s.idx := by
    simp [selPortOut]
@[simp] theorem nibPortIn_rtcPresent (c : Channel) (p : Port) (s : State) : (nibPortIn c p s).2.rtcPresent = s.rtcPresent := by
    simp [nibPortIn]
@[simp] theorem nibDataIn_rtcPresent (c : Channel) (s : State) : (nibDataIn c s).2.rtcPresent = s.rtcPresent := by
    simp [nibDataIn]
@[simp] theorem nibPortIn_latch0 (c : Channel) (p : Port) (s : State) : (nibPortIn c p s).2.latch0 = s.latch0 := by
    simp [nibPortIn]
@[simp] theorem nibDataIn_latch0 (c : Channel) (s : State) : (nibDataIn c s).2.latch0 = s.latch0 := by simp [nibDataIn]
@[simp] theorem nibPortIn_latch1 (c : Channel) (p : Port) (s : State) : (nibPortIn c p s).2.latch1 = s.latch1 := by
    simp [nibPortIn]
@[simp] theorem nibDataIn_latch1 (c : Channel) (s : State) : (nibDataIn c s).2.latch1 = s.latch1 := by simp [nibDataIn]
@[simp] theorem nibPortIn_plat (c : Channel) (p : Port) (s : State) : (nibPortIn c p s).2.plat = s.plat := by simp [nibPortIn]
@[simp] theorem nibDataIn_plat (c : Channel) (s : State) : (nibDataIn c s).2.plat = s.plat := by simp [nibDataIn]
@[simp] theorem nibPortIn_ioPermitted (c : Channel) (p : Port) (s : State) : (nibPortIn c p s).2.ioPermitted = s.ioPermitted :=
    by simp [nibPortIn]
@[simp] theorem nibDataIn_ioPermitted (c : Channel) (s : State) : (nibDataIn c s).2.ioPermitted = s.ioPermitted := by
    simp [nibDataIn]
@[simp] theorem nibPortIn_params (c : Channel) (p : Port) (s : State) : (nibPortIn c p s).2.params = s.params := by
    simp [nibPortIn]
@[simp] theorem nibDataIn_params (c : Channel) (s : State) : (nibDataIn c s).2.params = s.params := by simp [nibDataIn]
@[simp] theorem nibPortIn_requests (c : Channel) (p : Port) (s : State) : (nibPortIn c p s).2.requests = s.requests := by
    simp [nibPortIn]
@[simp] theorem nibDataIn_requests (c : Channel) (s : State) : (nibDataIn c s).2.requests = s.requests := by simp [nibDataIn]
@[simp] theorem nibPortIn_running (c : Channel) (p : Port) (s : State) : (nibPortIn c p s).2.running = s.running := by
    simp [nibPortIn]
@[simp] theorem nibDataIn_running (c : Channel) (s : State) : (nibDataIn c s).2.running = s.running := by simp [nibDataIn]
@[simp] theorem nibPortIn_outcome (c : Channel) (p : Port) (s : State) : (nibPortIn c p s).2.outcome = s.outcome := by
    simp [nibPortIn]
@[simp] theorem nibDataIn_outcome (c : Channel) (s : State) : (nibDataIn c s).2.outcome = s.outcome := by simp [nibDataIn]
@[simp] theorem nibPortIn_idx (c : Channel) (p : Port) (s : State) : (nibPortIn c p s).2.idx = s.idx := by simp [nibPortIn]
@[simp] theorem nibDataIn_idx (c : Channel) (s : State) : (nibDataIn c s).2.idx = s.idx := by simp [nibDataIn]
@[simp] theorem platPortIn_rtcPresent (s : State) : (platPortIn s).2.rtcPresent = s.rtcPresent := by simp [platPortIn]
@[simp] theorem platPortIn_latch0 (s : State) : (platPortIn s).2.latch0 = s.latch0 := by simp [platPortIn]
@[simp] theorem platPortIn_latch1 (s : State) : (platPortIn s).2.latch1 = s.latch1 := by simp [platPortIn]
@[simp] theorem platPortIn_plat (s : State) : (platPortIn s).2.plat = s.plat := by simp [platPortIn]
@[simp] theorem platPortIn_ioPermitted (s : State) : (platPortIn s).2.ioPermitted = s.ioPermitted := by simp [platPortIn]
@[simp] theorem platPortIn_params (s : State) : (platPortIn s).2.params = s.params := by simp [platPortIn]
@[simp] theorem platPortIn_requests (s : State) : (platPortIn s).2.requests = s.requests := by simp [platPortIn]
@[simp] theorem platPortIn_running (s : State) : (platPortIn s).2.running = s.running := by simp [platPortIn]
@[simp] theorem platPortIn_outcome (s : State) : (platPortIn s).2.outcome = s.outcome := by simp [platPortIn]
@[simp] theorem platPortIn_idx (s : State) : (platPortIn s).2.idx = s.idx := by simp [platPortIn]

@[simp] theorem barrier_latch (s : State) (c : Channel) : (barrier s).2.latch c = s.latch c :=
  latch_eq_of_fields (barrier_latch0 s) (barrier_latch1 s) c
@[simp] theorem rtcSelect_latch (v : Byte) (s : State) (c : Channel) : (rtcSelect v s).2.latch c = s.latch c :=
  latch_eq_of_fields (rtcSelect_latch0 v s) (rtcSelect_latch1 v s) c
@[simp] theorem selPortIn_latch (d : Channel) (p : Port) (s : State) (c : Channel) :
    (selPortIn d p s).2.latch c = s.latch c :=
  latch_eq_of_fields (selPortIn_latch0 d p s) (selPortIn_latch1 d p s) c
@[simp] theorem nibPortIn_latch (d : Channel) (p : Port) (s : State) (c : Channel) :
    (nibPortIn d p s).2.latch c = s.latch c :=
  latch_eq_of_fields (nibPortIn_latch0 d p s) (nibPortIn_latch1 d p s) c
@[simp] theorem nibDataIn_latch (d : Channel) (s : State) (c : Channel) : (nibDataIn d s).2.latch c = s.latch c :=
  latch_eq_of_fields (nibDataIn_latch0 d s) (nibDataIn_latch1 d s) c
@[simp] theorem platPortIn_latch (s : State) (c : Channel) : (platPortIn s).2.latch c = s.latch c :=
  latch_eq_of_fields (platPortIn_latch0 s) (platPortIn_latch1 s) c

@[simp] theorem rtcDataIn_latch (s : State) (c : Channel) : (rtcDataIn s).2.latch c = s.latch c :=
  latch_eq_of_fields (rtcDataIn_latch0 s) (rtcDataIn_latch1 s) c
@[simp] theorem rtcDataOut_latch (v : Byte) (s : State) (c : Channel) : (rtcDataOut v s).2.latch c = s.latch c :=
  latch_eq_of_fields (rtcDataOut_latch0 v s) (rtcDataOut_latch1 v s) c

@[simp] theorem rtcSelect_idx (v : Byte) (s : State) : (rtcSelect v s).2.idx = v.setWidth 6 := by simp [rtcSelect]

@[simp] theorem barrier_trace (s : State) : (barrier s).2.trace = s.trace ++ [.barrier] := by simp [barrier]
@[simp] theorem rtcSelect_trace (v : Byte) (s : State) :
    (rtcSelect v s).2.trace = s.trace ++ [.out s.params.rtcAddrPort v] := by simp [rtcSelect]
@[simp] theorem rtcDataIn_trace (s : State) :
    (rtcDataIn s).2.trace = s.trace ++ [.inp s.params.rtcDataPort (rtcDataIn s).1] := by simp [rtcDataIn]
@[simp] theorem rtcDataOut_trace (v : Byte) (s : State) :
    (rtcDataOut v s).2.trace = s.trace ++ [.out s.params.rtcDataPort v] := by simp [rtcDataOut]
@[simp] theorem selPortIn_trace (c : Channel) (p : Port) (s : State) :
    (selPortIn c p s).2.trace = s.trace ++ [.inp p (s.latch c).sel] := by simp [selPortIn]
@[simp] theorem selPortOut_trace (c : Channel) (p : Port) (v : Byte) (s : State) :
    (selPortOut c p v s).2.trace = s.trace ++ [.out p v] := by simp [selPortOut]
@[simp] theorem nibPortIn_trace (c : Channel) (p : Port) (s : State) :
    (nibPortIn c p s).2.trace = s.trace ++ [.inp p (nibPortIn c p s).1] := by simp [nibPortIn]
@[simp] theorem nibDataIn_trace (c : Channel) (s : State) :
    (nibDataIn c s).2.trace = s.trace ++ [.inp s.params.rtcDataPort (nibDataIn c s).1] := by simp [nibDataIn]
@[simp] theorem platPortIn_trace (s : State) :
    (platPortIn s).2.trace = s.trace ++ [.inp s.params.platPort s.plat] := by simp [platPortIn]

@[simp] theorem selPortIn_value (c : Channel) (p : Port) (s : State) : (selPortIn c p s).1 = (s.latch c).sel := by
  simp [selPortIn]
@[simp] theorem platPortIn_value (s : State) : (platPortIn s).1 = s.plat := by simp [platPortIn]

@[simp] theorem selPortOut_latch_same (c : Channel) (p : Port) (v : Byte) (s : State) :
    (selPortOut c p v s).2.latch c = { s.latch c with sel := v } := by
  simp [selPortOut]
theorem selPortOut_latch_other {c d : Channel} (p : Port) (v : Byte) (s : State) (h : d ≠ c) :
    (selPortOut c p v s).2.latch d = s.latch d := by
  simp [selPortOut, setSel_latch_other _ _ h]

/-! ## Cells after a primitive -/


section
variable (s : State) {a : CellAddr} (h : agentCell a = false)
include h

@[simp] theorem barrier_x : (barrier s).2.x a = s.x a := by simp [barrier, h]
@[simp] theorem rtcSelect_x (v : Byte) : (rtcSelect v s).2.x a = s.x a := by simp [rtcSelect, h]
@[simp] theorem rtcDataIn_x : (rtcDataIn s).2.x a = s.x a := by
  simp [rtcDataIn, deviceRead_x _ _ (Or.inl (agentCell_false h).2), h]
@[simp] theorem selPortIn_x (c : Channel) (p : Port) : (selPortIn c p s).2.x a = s.x a := by simp [selPortIn, h]
@[simp] theorem selPortOut_x (c : Channel) (p : Port) (v : Byte) : (selPortOut c p v s).2.x a = s.x a := by
  simp [selPortOut, h]
@[simp] theorem nibPortIn_x (c : Channel) (p : Port) : (nibPortIn c p s).2.x a = s.x a := by simp [nibPortIn, h]
@[simp] theorem nibDataIn_x (c : Channel) : (nibDataIn c s).2.x a = s.x a := by simp [nibDataIn, h]
@[simp] theorem platPortIn_x : (platPortIn s).2.x a = s.x a := by simp [platPortIn, h]

theorem rtcDataOut_x (v : Byte) (hp : s.rtcPresent = true) : (rtcDataOut v s).2.x a =
    if a = s.idx then storedByte s.params.setClearsUie a (s.x a) v else s.x a := by
  simp [rtcDataOut, deviceWrite_x, hp, h]

theorem rtcDataOut_x_other (v : Byte) (ha : a ≠ s.idx) : (rtcDataOut v s).2.x a = s.x a := by
  simp [rtcDataOut, h, deviceWrite_x_other v (agentTurn s).2 (show a ≠ (agentTurn s).2.idx by simpa using ha)]

end

/-! ## Store primitives -/

theorem setWidth_addr (a : CellAddr) : (a.setWidth 8).setWidth 6 = a := by
  simp [BitVec.setWidth_setWidth_of_le]

@[simp] theorem memRead_rtcPresent (a : CellAddr) (s : State) : ((memRead a).run s).2.rtcPresent = s.rtcPresent := by
    simp [memRead, perform]
@[simp] theorem memReadNib_rtcPresent (c : Channel) (a : CellAddr) (s : State) :
    ((memReadNib c a).run s).2.rtcPresent = s.rtcPresent := by simp [memReadNib, perform]
@[simp] theorem memRead_latch0 (a : CellAddr) (s : State) : ((memRead a).run s).2.latch0 = s.latch0 := by simp [memRead, perform]
@[simp] theorem memReadNib_latch0 (c : Channel) (a : CellAddr) (s : State) : ((memReadNib c a).run s).2.latch0 = s.latch0 := by
    simp [memReadNib, perform]
@[simp] theorem memRead_latch1 (a : CellAddr) (s : State) : ((memRead a).run s).2.latch1 = s.latch1 := by simp [memRead, perform]
@[simp] theorem memReadNib_latch1 (c : Channel) (a : CellAddr) (s : State) : ((memReadNib c a).run s).2.latch1 = s.latch1 := by
    simp [memReadNib, perform]
@[simp] theorem memRead_plat (a : CellAddr) (s : State) : ((memRead a).run s).2.plat = s.plat := by simp [memRead, perform]
@[simp] theorem memReadNib_plat (c : Channel) (a : CellAddr) (s : State) : ((memReadNib c a).run s).2.plat = s.plat := by
    simp [memReadNib, perform]
@[simp] theorem memRead_ioPermitted (a : CellAddr) (s : State) : ((memRead a).run s).2.ioPermitted = s.ioPermitted := by
    simp [memRead, perform]
@[simp] theorem memReadNib_ioPermitted (c : Channel) (a : CellAddr) (s : State) :
    ((memReadNib c a).run s).2.ioPermitted = s.ioPermitted := by simp [memReadNib, perform]
@[simp] theorem memRead_params (a : CellAddr) (s : State) : ((memRead a).run s).2.params = s.params := by simp [memRead, perform]
@[simp] theorem memReadNib_params (c : Channel) (a : CellAddr) (s : State) : ((memReadNib c a).run s).2.params = s.params := by
    simp [memReadNib, perform]
@[simp] theorem memRead_requests (a : CellAddr) (s : State) : ((memRead a).run s).2.requests = s.requests := by
    simp [memRead, perform]
@[simp] theorem memReadNib_requests (c : Channel) (a : CellAddr) (s : State) :
    ((memReadNib c a).run s).2.requests = s.requests := by simp [memReadNib, perform]
@[simp] theorem memRead_running (a : CellAddr) (s : State) : ((memRead a).run s).2.running = s.running := by
    simp [memRead, perform]
@[simp] theorem memReadNib_running (c : Channel) (a : CellAddr) (s : State) : ((memReadNib c a).run s).2.running = s.running :=
    by simp [memReadNib, perform]
@[simp] theorem memRead_outcome (a : CellAddr) (s : State) : ((memRead a).run s).2.outcome = s.outcome := by
    simp [memRead, perform]
@[simp] theorem memReadNib_outcome (c : Channel) (a : CellAddr) (s : State) : ((memReadNib c a).run s).2.outcome = s.outcome :=
    by simp [memReadNib, perform]
@[simp] theorem memWrite_rtcPresent (a : CellAddr) (v : Byte) (s : State) :
    ((memWrite a v).run s).2.rtcPresent = s.rtcPresent := by simp [memWrite, perform]
@[simp] theorem memWrite_latch0 (a : CellAddr) (v : Byte) (s : State) : ((memWrite a v).run s).2.latch0 = s.latch0 := by
    simp [memWrite, perform]
@[simp] theorem memWrite_latch1 (a : CellAddr) (v : Byte) (s : State) : ((memWrite a v).run s).2.latch1 = s.latch1 := by
    simp [memWrite, perform]
@[simp] theorem memWrite_plat (a : CellAddr) (v : Byte) (s : State) : ((memWrite a v).run s).2.plat = s.plat := by
    simp [memWrite, perform]
@[simp] theorem memWrite_ioPermitted (a : CellAddr) (v : Byte) (s : State) :
    ((memWrite a v).run s).2.ioPermitted = s.ioPermitted := by simp [memWrite, perform]
@[simp] theorem memWrite_params (a : CellAddr) (v : Byte) (s : State) : ((memWrite a v).run s).2.params = s.params := by
    simp [memWrite, perform]
@[simp] theorem memWrite_requests (a : CellAddr) (v : Byte) (s : State) : ((memWrite a v).run s).2.requests = s.requests := by
    simp [memWrite, perform]
@[simp] theorem memWrite_running (a : CellAddr) (v : Byte) (s : State) : ((memWrite a v).run s).2.running = s.running := by
    simp [memWrite, perform]
@[simp] theorem memWrite_outcome (a : CellAddr) (v : Byte) (s : State) : ((memWrite a v).run s).2.outcome = s.outcome := by
    simp [memWrite, perform]

@[simp] theorem memRead_latch (a : CellAddr) (s : State) (c : Channel) : ((memRead a).run s).2.latch c = s.latch c :=
  latch_eq_of_fields (memRead_latch0 a s) (memRead_latch1 a s) c
@[simp] theorem memReadNib_latch (d : Channel) (a : CellAddr) (s : State) (c : Channel) :
    ((memReadNib d a).run s).2.latch c = s.latch c :=
  latch_eq_of_fields (memReadNib_latch0 d a s) (memReadNib_latch1 d a s) c
@[simp] theorem memWrite_latch (a : CellAddr) (v : Byte) (s : State) (c : Channel) :
    ((memWrite a v).run s).2.latch c = s.latch c :=
  latch_eq_of_fields (memWrite_latch0 a v s) (memWrite_latch1 a v s) c

/-- The trace of a store read (40_register_store.md R171). -/
@[simp] theorem memRead_trace (a : CellAddr) (s : State) :
    ((memRead a).run s).2.trace = s.trace ++ readEvents s.params a ((memRead a).run s).1 := by
  simp [memRead, perform, readEvents]

@[simp] theorem memReadNib_trace (c : Channel) (a : CellAddr) (s : State) :
    ((memReadNib c a).run s).2.trace = s.trace ++ readEvents s.params a ((memReadNib c a).run s).1 := by
  simp [memReadNib, perform, readEvents]

/-- The trace of a store write (40_register_store.md R173). -/
@[simp] theorem memWrite_trace (a : CellAddr) (v : Byte) (s : State) :
    ((memWrite a v).run s).2.trace = s.trace ++ writeEvents s.params a v := by
  simp [memWrite, perform, writeEvents]

/-- A store read changes no cell the clock agent does not own. -/
@[simp] theorem memRead_x (a : CellAddr) (s : State) {b : CellAddr} (h : agentCell b = false) :
    ((memRead a).run s).2.x b = s.x b := by simp [memRead, perform, h]

/-- A store write changes no other cell the clock agent does not own. -/
theorem memWrite_x_other (a : CellAddr) (v : Byte) (s : State) {b : CellAddr} (h : agentCell b = false) (hb : b ≠ a) :
    ((memWrite a v).run s).2.x b = s.x b := by
  simp only [memWrite, run_ask, perform, run_pure]
  rw [barrier_x _ h, rtcDataOut_x_other _ h _ (by simpa [setWidth_addr] using hb)]
  simp [h]

/-- A store write leaves in its cell what the device rule says (10_state.md R82). -/
theorem memWrite_x_same (a : CellAddr) (v : Byte) (s : State) (h : agentCell a = false) (hp : s.rtcPresent = true) :
    ((memWrite a v).run s).2.x a = storedByte s.params.setClearsUie a (s.x a) v := by
  simp only [memWrite, run_ask, perform, run_pure]
  rw [barrier_x _ h, rtcDataOut_x _ h _ (by simpa using hp)]
  simp [h]

/-- A store read of a plain cell the clock agent does not own gives the cell. -/
theorem memRead_value (a : CellAddr) (s : State) (h : agentCell a = false) (hr : s.readsPlain a) :
    ((memRead a).run s).1 = s.x a := by
  have key : ∀ t : State, t.idx = a → t.readsPlain a → (rtcDataIn t).1 = t.x a := by
    intro t hi ht
    simp only [rtcDataIn, device_bind, device_pure]
    rw [deviceRead_plain _ _ (by simpa [State.readsPlain, hi] using ht)]
    simp [hi, h]
  simp only [memRead, run_ask, run_request, perform]
  rw [key _ (by simp) (by simpa [State.readsPlain] using hr)]
  simp [h]

theorem storedByte_plain (clears : Bool) {a : CellAddr} (old v : Byte) (h : storesPlain a) : storedByte clears a old v = v := by
  simp [storedByte, h.1, h.2.1, h.2.2.1, h.2.2.2]

/-! ## The canonical form of the store -/

/-- A step of the clock agent keeps the canonical form. -/
theorem clockStep_wf (c) (s : State) (h : s.cells.wf = true) : (clockStep c s).cells.wf = true := by
  have rc : ∀ a v (r : State), r.cells.wf = true → (replaceCell a v r).cells.wf = true := by
    intro a v r hr; cases v with
    | none => exact hr
    | some b => exact Memory.wf_write _ _ _ hr
  have hu : (clockUip c.uip s).cells.wf = true := by cases h' : c.uip <;> exact h
  have hc : (clockCells c (clockUip c.uip s)).cells.wf = true := by
    unfold clockCells; split
    · exact hu
    · exact rc _ _ _ (rc _ _ _ (rc _ _ _ (rc _ _ _ (rc _ _ _ (rc _ _ _ (rc _ _ _ hu))))))
  unfold clockStep
  cases h' : c.setFlags with
  | none => exact hc
  | some f => exact Memory.wf_write _ _ _ hc

/-- The canonical form of the store is kept on the way from one state to another. -/
def WfStep (s t : State) : Prop := s.cells.wf = true → t.cells.wf = true

theorem agentTurn_wf (s : State) : WfStep s (agentTurn s).2 := fun h => by
  rw [agentTurn_run]
  refine clockStep_wf _ _ ?_
  obtain ⟨l, n, hd⟩ := nextDraw_eq s
  rw [hd]; exact h

theorem deviceRead_wf (d) (s : State) : WfStep s (deviceRead d s).2 := fun h => by
  unfold deviceRead
  split
  · split
    · exact Memory.wf_write s.cells REG_C 0x00#8 h
    · split
      · exact h
      · split <;> exact h
  · exact h

theorem deviceWrite_wf (v) (s : State) : WfStep s (deviceWrite v s) := fun h => by
  unfold deviceWrite
  split
  · split
    · exact Memory.wf_write _ _ _ h
    · split
      · exact Memory.wf_write _ _ _ h
      · split
        · exact h
        · exact Memory.wf_write _ _ _ h
  · exact h

theorem barrier_wf (s) : WfStep s (barrier s).2 := fun h => agentTurn_wf s h

theorem rtcSelect_wf (v s) : WfStep s (rtcSelect v s).2 := fun h => agentTurn_wf s h

theorem memRead_wf (a s) : WfStep s ((memRead a).run s).2 := fun h =>
  deviceRead_wf _ _ (agentTurn_wf _ (barrier_wf _ (rtcSelect_wf _ s h)))

theorem memWrite_wf (a v s) : WfStep s ((memWrite a v).run s).2 := fun h =>
  barrier_wf _ (deviceWrite_wf _ _ (agentTurn_wf _ (barrier_wf _ (rtcSelect_wf _ s h))))

theorem memReadNib_wf (c a s) : WfStep s ((memReadNib c a).run s).2 := fun h =>
  agentTurn_wf _ (barrier_wf _ (rtcSelect_wf _ s h))

theorem selPortIn_wf (c q s) : WfStep s (selPortIn c q s).2 := fun h => agentTurn_wf s h

theorem selPortOut_wf (c q v s) : WfStep s (selPortOut c q v s).2 := fun h => by
  show ((agentTurn s).2.setSel c v).cells.wf = true
  rw [setSel_cells]; exact agentTurn_wf s h

theorem nibPortIn_wf (c q s) : WfStep s (nibPortIn c q s).2 := fun h => agentTurn_wf s h

theorem platPortIn_wf (s) : WfStep s (platPortIn s).2 := fun h => agentTurn_wf s h

/-- Register B as stored, the way 10_state.md R55 says it. -/
theorem storedB_eq (c : Bool) (v : Byte) : storedB c v = if c = true ∧ v.getLsbD 7 = true then v &&& ~~~0x10#8 else v := by
  simp [storedB, setFlag]

/-- A nibble placed at a shift is read back from it, whatever the other bits. -/
theorem nibbleAt_nibbleByte (n : Nibble) (k : Fin 5) (o : Byte) : nibbleAt (nibbleByte n k.val o) k.val = n := by
  have : ∀ k : Fin 5, ∀ n : Nibble, ∀ o : Byte, nibbleAt (nibbleByte n k.val o) k.val = n := by decide +kernel
  exact this k n o

/-- The seven low bits of a byte put together from a bit and seven bits. -/
theorem overBits_low (u v) : (overBits u v).extractLsb' 0 7 = v := by
  have : ∀ u (v : BitVec 7), (overBits u v).extractLsb' 0 7 = v := by decide +kernel
  exact this u v

/-- The top bit of such a byte. -/
theorem overBits_top (u v) : (overBits u v).getLsbD 7 = u := by
  have : ∀ u (v : BitVec 7), (overBits u v).getLsbD 7 = u := by decide +kernel
  exact this u v

end Sys2Proof.Machine
end

