-- ==== Sys2Proof/Laws/Operation.lean ====
section
/-! SUPPORT. One law for all operations: a relation that every primitive an operation may use keeps, the operation keeps; and
the three ways an operation can end. -/

namespace Sys2Proof.Machine

open Sys2Proof.Config

/-! ## Relations a piece of an operation keeps -/

/-- The piece `m` runs from every state with parameters `p` along `R`, and keeps the parameters. -/
def Keeps {α : Type} (p : Params) (R : State → State → Prop) (m : Bus α) : Prop :=
  ∀ s, s.params = p → (m.run s).2.params = p ∧ R s (m.run s).2

/-- A relation that can be followed through an operation that reads the cells `rd`, writes the cells `wr` and uses the ports of the
channels `ch`: it composes, and every primitive the operation may use keeps it. -/
structure OpLaw (p : Params) (rd wr : List CellAddr) (ch : List Channel) (R : State → State → Prop) : Prop where
  refl : ∀ s, R s s
  trans : ∀ {s t u}, R s t → R t u → R s u
  read : ∀ a ∈ rd, Keeps p R (memRead a)
  write : ∀ a ∈ wr, ∀ v, Keeps p R (memWrite a v)
  readNib : ∀ c ∈ ch, ∀ q n, (p.latch c).transport = .store q n → Keeps p R (memReadNib c n)
  barrier : Keeps p R (.request .barrier)
  selIn : ∀ c ∈ ch, ∀ q n, (p.latch c).transport = .port q n → Keeps p R (.request (.selIn c q))
  selOut : ∀ c ∈ ch, ∀ q n, (p.latch c).transport = .port q n → ∀ v, Keeps p R (.request (.selOut c q v))
  nibIn : ∀ c ∈ ch, ∀ q n, (p.latch c).transport = .port q n → Keeps p R (.request (.nibIn c n))
  plat : Keeps p R (.request .platIn)

section
variable {α β : Type} {p : Params} {rd wr : List CellAddr} {ch : List Channel} {R : State → State → Prop}

theorem Keeps.pure (L : OpLaw p rd wr ch R) (a : α) : Keeps p R (.pure a : Bus α) := fun s hs => ⟨hs, L.refl s⟩

theorem Keeps.bind (L : OpLaw p rd wr ch R) {m : Bus α} {f : α → Bus β} (hm : Keeps p R m) (hf : ∀ a, Keeps p R (f a)) :
    Keeps p R (m.bind f) := fun s hs => by
  rw [run_bind]
  have h1 := hm s hs
  have h2 := hf (m.run s).1 (m.run s).2 h1.1
  exact ⟨h2.1, L.trans h1.2 h2.2⟩

theorem Keeps.step {m : Bus α} (h : Keeps p R m) : Keeps p R (.step m) := h

theorem Keeps.stmt (L : OpLaw p rd wr ch R) {m : Bus α} {f : α → Bus β} (hm : Keeps p R m) (hf : ∀ a, Keeps p R (f a)) :
    Keeps p R (m.stmt f) := .bind L hm fun a => .step (hf a)

theorem Keeps.ask (L : OpLaw p rd wr ch R) {q : Request} {k : Byte → Bus α} (hq : Keeps p R (.request q))
    (hk : ∀ v, Keeps p R (k v)) : Keeps p R (.ask q k) := fun s hs =>
  have h1 := hq s hs
  have h2 := hk (perform q s).1 (perform q s).2 h1.1
  ⟨h2.1, L.trans h1.2 h2.2⟩

theorem Keeps.readAll (L : OpLaw p rd wr ch R) : ∀ l : List CellAddr, (∀ a ∈ l, a ∈ rd) → Keeps p R (memReadAll l)
  | [], _ => .pure L _
  | a :: l, h => .bind L (L.read a (h a (by simp))) fun _ =>
      .bind L (Keeps.readAll L l fun b hb => h b (by simp [hb])) fun _ => .pure L _

theorem Keeps.readEach (L : OpLaw p rd wr ch R) : ∀ l : List CellAddr, (∀ a ∈ l, a ∈ rd) → Keeps p R (memReadEach l)
  | [], _ => .pure L _
  | a :: l, h => .stmt L (L.read a (h a (by simp))) fun _ =>
      .bind L (Keeps.readEach L l fun b hb => h b (by simp [hb])) fun _ => .pure L _

theorem Keeps.writeAll (L : OpLaw p rd wr ch R) : ∀ l : List (CellAddr × Byte), (∀ e ∈ l, e.1 ∈ wr) → Keeps p R (memWriteAll l)
  | [], _ => .pure L _
  | e :: l, h => .stmt L (L.write e.1 (h e (by simp)) e.2) fun _ =>
      Keeps.writeAll L l fun b hb => h b (by simp [hb])

theorem Keeps.pollUip (L : OpLaw p rd wr ch R) (h : p.cellMap.regA ∈ rd) : ∀ n, Keeps p R (pollUip p n)
  | 0 => .pure L _
  | n + 1 => .bind L (L.read _ h) fun a => by
      split
      · exact Keeps.pollUip L h n
      · exact .pure L _

theorem Keeps.waitUip (L : OpLaw p rd wr ch R) (h : p.cellMap.regA ∈ rd) : Keeps p R (waitUip p) := .pollUip L h p.uipPollMax

theorem Keeps.ckSum (L : OpLaw p rd wr ch R) (h : ∀ a ∈ coveredCells, a ∈ rd) : Keeps p R ckSum :=
  .bind L (.readAll L _ h) fun _ => .pure L _

theorem Keeps.ckUpdate (L : OpLaw p rd wr ch R) (h : ∀ a ∈ coveredCells, a ∈ rd) (hw : ∀ a ∈ checksumCells p, a ∈ wr) :
    Keeps p R (ckUpdate p) :=
  .bind L (.ckSum L h) fun _ => .bind L (L.write _ (hw _ (by simp [checksumCells])) _) fun _ =>
    .bind L (L.write _ (hw _ (by simp [checksumCells])) _) fun _ => .pure L _

theorem Keeps.haltBegin (L : OpLaw p rd wr ch R) (h : p.cellMap.regB ∈ rd) (hw : p.cellMap.regB ∈ wr) :
    Keeps p R (haltBegin p) :=
  .bind L (L.read _ h) fun _ => .bind L (L.write _ hw _) fun _ => .pure L _

/-- The read-modify-write shape of the drive and equipment setters (44_config_fields.md R280). -/
theorem Keeps.setter (L : OpLaw p rd wr ch R) (a : CellAddr) (g : Byte → Byte) (v : Value × List Warning)
    (h : ∀ b ∈ a :: coveredCells, b ∈ rd) (hw : ∀ b ∈ a :: checksumCells p, b ∈ wr) :
    Keeps p R ((memRead a).stmt fun b => .step <| (memWrite a (g b)).stmt fun _ => (Machine.ckUpdate p).stmt fun _ => .pure v) :=
  .stmt L (L.read _ (h a (by simp))) fun _ => .step <| .stmt L (L.write _ (hw a (by simp)) _) fun _ =>
    .stmt L (.ckUpdate L (fun b hb => h b (by simp [hb])) fun b hb => hw b (by simp [hb])) fun _ => .pure L _

theorem Keeps.selRead (L : OpLaw p rd wr ch R) (c : Channel) (hc : c ∈ ch) (h : ∀ a ∈ channelCells p c, a ∈ rd) :
    Keeps p R (selRead p c) := by
  unfold Machine.selRead
  unfold channelCells at h
  cases ht : (p.latch c).transport with
  | port q r => exact L.selIn c hc q r ht
  | store a b => exact L.read a (h a (by simp [ht]))

theorem Keeps.nibRead (L : OpLaw p rd wr ch R) (c : Channel) (hc : c ∈ ch) : Keeps p R (nibRead p c) := by
  unfold Machine.nibRead
  refine .bind L ?_ fun _ => .pure L _
  cases ht : (p.latch c).transport with
  | port q r => exact L.nibIn c hc q r ht
  | store a b => exact L.readNib c hc a b ht

theorem Keeps.selWrite (L : OpLaw p rd wr ch R) (c : Channel) (hc : c ∈ ch) (v : Byte) (h : ∀ a ∈ selectorCells p c, a ∈ wr) :
    Keeps p R (selWrite p c v) := by
  unfold Machine.selWrite
  unfold selectorCells at h
  cases ht : (p.latch c).transport with
  | port q r => exact .ask L (L.selOut c hc q r ht v) fun _ => .ask L L.barrier fun _ => .pure L _
  | store a b => exact L.write a (h a (by simp [ht])) v

theorem Keeps.latchRead (L : OpLaw p rd wr ch R) (c : Channel) (hc : c ∈ ch) (h : ∀ a ∈ channelCells p c, a ∈ rd)
    (hw : ∀ a ∈ selectorCells p c, a ∈ wr) : Keeps p R (latchReadBody p c) :=
  .step <| .step <| .step <| .stmt L (.selRead L c hc h) fun _ => .stmt L (.selWrite L c hc _ hw) fun _ =>
  .stmt L (.nibRead L c hc) fun _ => .stmt L (.selWrite L c hc _ hw) fun _ => .stmt L (.nibRead L c hc) fun _ =>
  .stmt L (.selWrite L c hc _ hw) fun _ => .step <| .step <| .pure L _

end

/-! ## What an operation comes to -/

theorem checkRange_in {f : OperandName} {lo hi v : Int} (h : lo ≤ v ∧ v ≤ hi) : checkRange f lo hi v = none := if_pos h
theorem checkRange_out {f : OperandName} {lo hi v : Int} (h : ¬(lo ≤ v ∧ v ≤ hi)) : checkRange f lo hi v = some f := if_neg h

/-- An alarm operand is in range from −1, the wildcard, on (42_time_alarm.md R240). -/
theorem checkAlarm_eq (f : OperandName) {hi : Int} (h : 0 ≤ hi) (v : Int) : checkAlarm f hi v = checkRange f (-1) hi v := by
  unfold checkAlarm checkRange
  congr 1
  simp only [eq_iff_iff]
  omega

@[simp] theorem validated_nil (o : Operation) : validated [] o = o := rfl
@[simp] theorem validated_none (l : List (Option OperandName)) (o : Operation) :
    validated (none :: l) o = .step (validated l o) := rfl
@[simp] theorem validated_some (f : OperandName) (l : List (Option OperandName)) (o : Operation) :
    validated (some f :: l) o = .fails (.validation f) := rfl
@[simp] theorem withOperand_none {α : Type} (f : OperandName) (o : α → Operation) :
    withOperand f none o = .fails (.validation f) := rfl
@[simp] theorem withOperand_some {α : Type} (f : OperandName) (a : α) (o : α → Operation) :
    withOperand f (some a) o = .step (o a) := rfl
theorem checkIf_pos {c : Prop} [Decidable c] (h : c) (check : Option OperandName) : checkIf c check = check := if_pos h
theorem checkIf_neg {c : Prop} [Decidable c] (h : ¬c) (check : Option OperandName) : checkIf c check = none := if_neg h

@[simp] theorem runOperation_step (o : Operation) (s : State) : runOperation (.step o) s = runOperation o s := rfl
@[simp] theorem runOperation_steps (n : Nat) (o : Operation) (s : State) : runOperation (o.steps n) s = runOperation o s := by
  induction n with
  | zero => rfl
  | succ n ih => exact ih
@[simp] theorem runOperation_fails (e : OpError) (s : State) : runOperation (.fails e) s = raise e s := rfl
@[simp] theorem runOperation_value (v : Value) (s : State) : runOperation (.value v) s = runPure v s := rfl

/-- The state in which an operation's first bus event meets the environment. -/
def State.started (s : State) : State := { s with trace := [], outcome := none }

theorem started_x (s : State) (a) : s.started.x a = s.x a := rfl

theorem started_trace (s : State) : s.started.trace = [] := rfl

theorem runOperation_permitted {b : Bus (Value × List Warning)} {s : State} (h : s.ioPermitted = true) :
    runOperation (.bus b) s = finish (.ok (b.run s.started).1.1 (b.run s.started).1.2) (b.run s.started).2 := by
  rw [runOperation, Operation.run, if_pos h]
  rfl

theorem runOperation_denied {b : Bus (Value × List Warning)} {s : State} (h : s.ioPermitted = false) :
    runOperation (.bus b) s = raise .portAccessDenied s := by
  rw [runOperation, Operation.run, if_neg (by simp [h])]
  rfl

/-- The channels whose ports an operation may use. -/
def opChannels : Instr → List Channel
  | .latchRead channel => (channelOf channel).toList
  | _ => []

/-- What an operation may come to, its first statements passed: an error; a value, for the operations without bus events; or a program that runs along every
relation its primitives keep, for the others. -/
inductive Shape (i : Instr) (p : Params) : Operation → Prop where
  | step (o : Operation) (h : Shape i p o) : Shape i p (.step o)
  | fails (e : OpError) : Shape i p (.fails e)
  | value (v : Value) (h : isPure i = true) : Shape i p (.value v)
  | bus (b : Bus (Value × List Warning)) (hi : isPure i = false)
      (h : ∀ R, OpLaw p (readCells p i) (storedCells p i) (opChannels i) R → Keeps p R b) : Shape i p (.bus b)

section
variable {i : Instr} {p : Params}

theorem Shape.validated {checks : List (Option OperandName)} {o : Operation} (h : Shape i p o) :
    Shape i p (validated checks o) := by
  induction checks with
  | nil => exact h
  | cons c l ih =>
    cases c with
    | none => exact .step _ ih
    | some f => exact .fails _

theorem Shape.withOperand {α : Type} {f : OperandName} {a : Option α} {o : α → Operation} (h : ∀ v, a = some v → Shape i p (o v)) :
    Shape i p (withOperand f a o) := by
  cases a with
  | none => exact .fails _
  | some v => exact .step _ (h v rfl)

theorem Shape.steps {o : Operation} (h : Shape i p o) : ∀ n, Shape i p (o.steps n)
  | 0 => h
  | n + 1 => .step _ (Shape.steps h n)

end

section
variable {p : Params} {rd wr : List CellAddr} {ch : List Channel} {R : State → State → Prop} (L : OpLaw p rd wr ch R)
include L

theorem Keeps.readTime (h : ∀ a ∈ [p.cellMap.regA, p.cellMap.regB, p.cellMap.sec, p.cellMap.min, p.cellMap.hour,
      p.cellMap.dow, p.cellMap.dom, p.cellMap.month, p.cellMap.year, p.centuryAddr], a ∈ rd) :
    Keeps p R (readTimeBody p) :=
  .stmt L (.waitUip L (h _ (by simp))) fun _ => .stmt L (L.read _ (h _ (by simp))) fun _ => .step <| .step <|
  .stmt L (L.read _ (h _ (by simp))) fun _ => .stmt L (L.read _ (h _ (by simp))) fun _ =>
  .stmt L (L.read _ (h _ (by simp))) fun _ => .stmt L (L.read _ (h _ (by simp))) fun _ =>
  .stmt L (L.read _ (h _ (by simp))) fun _ => .stmt L (L.read _ (h _ (by simp))) fun _ =>
  .stmt L (L.read _ (h _ (by simp))) fun _ => .stmt L (L.read _ (h _ (by simp))) fun _ => .pure L _

theorem Keeps.readAlarm
    (h : ∀ a ∈ [p.cellMap.regA, p.cellMap.regB, p.cellMap.secAlm, p.cellMap.minAlm, p.cellMap.hourAlm], a ∈ rd) :
    Keeps p R (readAlarmBody p) :=
  .stmt L (.waitUip L (h _ (by simp))) fun _ => .stmt L (L.read _ (h _ (by simp))) fun _ => .step <| .step <|
  .stmt L (L.read _ (h _ (by simp))) fun _ => .stmt L (L.read _ (h _ (by simp))) fun _ =>
  .stmt L (L.read _ (h _ (by simp))) fun _ => .pure L _

theorem Keeps.writeTime (h m c : Nat) (hr : p.cellMap.regB ∈ rd)
    (hw : ∀ a ∈ [p.cellMap.regB, p.cellMap.sec, p.cellMap.min, p.cellMap.hour], a ∈ wr) :
    Keeps p R (writeTimeBody p h m c) :=
  .stmt L (.haltBegin L hr (hw _ (by simp))) fun _ => .step <| .step <| .stmt L (L.write _ (hw _ (by simp)) _) fun _ =>
  .stmt L (L.write _ (hw _ (by simp)) _) fun _ => .stmt L (L.write _ (hw _ (by simp)) _) fun _ =>
  .stmt L (L.write _ (hw _ (by simp)) _) fun _ => .pure L _

theorem Keeps.writeDate (d m y : Nat) (hr : p.cellMap.regB ∈ rd)
    (hw : ∀ a ∈ [p.cellMap.regB, p.cellMap.dom, p.cellMap.month, p.cellMap.year, p.centuryAddr], a ∈ wr) :
        Keeps p R (writeDateBody p d m y) :=
  .stmt L (.haltBegin L hr (hw _ (by simp))) fun _ => .step <| .stmt L (L.write _ (hw _ (by simp)) _) fun _ =>
  .stmt L (L.write _ (hw _ (by simp)) _) fun _ => .stmt L (L.write _ (hw _ (by simp)) _) fun _ =>
  .stmt L (L.write _ (hw _ (by simp)) _) fun _ => .stmt L (L.write _ (hw _ (by simp)) _) fun _ => .pure L _

theorem Keeps.writeDow (n : Nat) (hr : p.cellMap.regB ∈ rd) (hw : ∀ a ∈ [p.cellMap.regB, p.cellMap.dow], a ∈ wr) :
    Keeps p R (writeDowBody p n) :=
  .stmt L (.haltBegin L hr (hw _ (by simp))) fun _ => .step <| .stmt L (L.write _ (hw _ (by simp)) _) fun _ =>
  .stmt L (L.write _ (hw _ (by simp)) _) fun _ => .pure L _

theorem Keeps.writeAlarm (h m c : Int) (hr : p.cellMap.regB ∈ rd)
    (hw : ∀ a ∈ [p.cellMap.regB, p.cellMap.secAlm, p.cellMap.minAlm, p.cellMap.hourAlm], a ∈ wr) :
    Keeps p R (writeAlarmBody p h m c) :=
  .stmt L (.haltBegin L hr (hw _ (by simp))) fun _ => .step <| .step <| .stmt L (L.write _ (hw _ (by simp)) _) fun _ =>
  .stmt L (L.write _ (hw _ (by simp)) _) fun _ => .stmt L (L.write _ (hw _ (by simp)) _) fun _ =>
  .stmt L (L.write _ (hw _ (by simp)) _) fun _ => .pure L _

theorem Keeps.getHarddisk (second : Bool) (h : ∀ a ∈ [p.cfgMap.hdd, p.cfgMap.hddExt0, p.cfgMap.hddExt1], a ∈ rd) :
    Keeps p R (getHarddiskBody p second) :=
  .stmt L (L.read _ (h _ (by simp))) fun b => .step <| .step <| by
    split
    · exact .stmt L (L.read _ (h _ (by cases second <;> simp))) fun _ => .pure L _
    · exact .pure L _

theorem Keeps.setMemword (a : CellAddr × CellAddr) (v : Word16) (h : ∀ b ∈ coveredCells, b ∈ rd)
    (hw : ∀ b ∈ a.1 :: a.2 :: checksumCells p, b ∈ wr) : Keeps p R (setMemwordBody p a v) :=
  .step <| .stmt L (L.write _ (hw _ (by simp)) _) fun _ => .stmt L (L.write _ (hw _ (by simp)) _) fun _ =>
  .stmt L (.ckUpdate L h fun b hb => hw b (by simp [hb])) fun _ => .pure L _

theorem Keeps.ckVerify (h : ∀ a ∈ coveredCells ++ checksumCells p, a ∈ rd) : Keeps p R (ckVerifyBody p) :=
  .stmt L (.ckSum L fun a ha => h a (by simp [ha])) fun _ =>
  .stmt L (.bind L (L.read _ (h _ (by simp [checksumCells]))) fun _ =>
    .bind L (L.read _ (h _ (by simp [checksumCells]))) fun _ => .pure L _) fun _ => .step <| .step <| .pure L _

theorem Keeps.ckUpdateBody (h : ∀ a ∈ coveredCells, a ∈ rd) (hw : ∀ a ∈ checksumCells p, a ∈ wr) : Keeps p R (ckUpdateBody p) :=
  .stmt L (.ckSum L h) fun _ => .stmt L (L.write _ (hw _ (by simp [checksumCells])) _) fun _ =>
  .stmt L (L.write _ (hw _ (by simp [checksumCells])) _) fun _ => .pure L _

theorem Keeps.readStatus (h : ∀ a ∈ [p.cellMap.regA, p.cellMap.regB, REG_C, REG_D], a ∈ rd) : Keeps p R (readStatusBody p) :=
  .stmt L (L.read _ (h _ (by simp))) fun _ => .stmt L (L.read _ (h _ (by simp))) fun _ =>
  .stmt L (L.read _ (h _ (by simp))) fun _ => .stmt L (L.read _ (h _ (by simp))) fun _ => .pure L _

theorem Keeps.importPass (data : List Byte) : ∀ l : List CellAddr, (∀ a ∈ l, a ≠ REG_C → a ≠ REG_D → a ∈ wr) →
    Keeps p R (importPass p data l)
  | [], _ => .pure L _
  | a :: l, h => by
    have hl := Keeps.importPass data l fun b hb => h b (by simp [hb])
    unfold Machine.importPass
    split
    · rename_i hc
      simp only [Bool.and_eq_true, bne_iff_ne, ne_eq] at hc
      exact .step (.stmt L (L.write a (h a (by simp) hc.1 hc.2) _) fun _ => hl)
    · exact .step hl

theorem Keeps.importSnapshot (data : List Byte) (hr : p.cellMap.regB ∈ rd) (hw : ∀ a ∈ (importWrites p data).map Prod.fst, a ∈ wr)
    (hb : p.cellMap.regB ∈ wr) : Keeps p R (importSnapshotBody p data) :=
  .step <| .stmt L (L.read _ hr) fun _ => .stmt L (L.write _ hb _) fun _ =>
  .bind L (.importPass L data _ fun a _ h1 h2 => hw a (by
    simp only [importWrites, List.map_map, List.mem_map, List.mem_filter, Function.comp_apply]
    exact ⟨a, ⟨by revert a; decide +kernel, by simp [h1, h2]⟩, rfl⟩)) fun _ =>
  .stmt L (L.write _ hb _) fun _ => .pure L _

theorem Keeps.factoryReset (h : ∀ a ∈ coveredCells, a ∈ rd)
    (hw : ∀ a ∈ (tableWrites p).map Prod.fst ++ (zeroWrites p).map Prod.fst ++ checksumCells p, a ∈ wr) :
    Keeps p R (factoryResetBody p) :=
  .bind L (.writeAll L _ fun _ he => hw _ (by simp [List.mem_map_of_mem he])) fun _ =>
  .bind L (.writeAll L _ fun _ he => hw _ (by simp [List.mem_map_of_mem he])) fun _ =>
  .stmt L (.ckUpdate L h fun a ha => hw a (by simp [ha])) fun _ => .pure L _

end

/-- The cells an import stores to do not depend on the data. -/
theorem importWrites_cells (p : Params) (data : List Byte) :
    (importWrites p data).map Prod.fst = allCells.filter fun a => a != REG_C && a != REG_D := by
  simp [importWrites, Function.comp_def]

/-- Every operation comes to one of three things. -/
theorem operation_shape (i : Instr) (p : Params) : Shape i p (operation p i) := by
  cases i with
  | readCell addr => exact .validated (.bus _ rfl fun R L => .bind L (L.read _ (by simp [readCells])) fun _ => .pure L _)
  | writeCell addr value =>
    exact .validated (.bus _ rfl fun R L => .stmt L (L.write _ (by simp [storedCells]) _) fun _ => .pure L _)
  | bcdDecode raw mode => exact .validated (.withOperand fun _ _ => .value _ rfl)
  | bcdEncode n mode => exact .withOperand fun _ _ => .validated (.value _ rfl)
  | readTime => exact .bus _ rfl fun R L => .readTime L (by simp [readCells])
  | writeTime h m sec => exact .validated (.bus _ rfl fun R L => .writeTime L _ _ _ (by simp [readCells]) (by simp [storedCells]))
  | writeDate day month year =>
    exact .validated (.bus _ rfl fun R L => .writeDate L _ _ _ (by simp [readCells]) (by simp [storedCells]))
  | writeDow n => exact .validated (.bus _ rfl fun R L => .writeDow L _ (by simp [readCells]) (by simp [storedCells]))
  | readAlarm => exact .bus _ rfl fun R L => .readAlarm L (by simp [readCells])
  | writeAlarm h m sec =>
    exact .validated (.bus _ rfl fun R L => .writeAlarm L _ _ _ (by simp [readCells]) (by simp [storedCells]))
  | setAlarmEnabled enable =>
    exact .withOperand fun _ _ => .bus _ rfl fun R L =>
      .stmt L (L.read _ (by simp [readCells])) fun _ => .stmt L (L.write _ (by simp [storedCells]) _) fun _ => .pure L _
  | readStatus => exact .bus _ rfl fun R L => .readStatus L (by simp [readCells])
  | getFloppy drive =>
    exact .withOperand fun _ _ => .bus _ rfl fun R L => .stmt L (L.read _ (by simp [readCells])) fun _ => .step <| .pure L _
  | setFloppy drive type =>
    exact .withOperand fun _ _ => .validated (.bus _ rfl fun R L => .setter L p.cfgMap.floppy _ _ (fun _ h => h) fun _ h => h)
  | getHarddisk drive => exact .withOperand fun _ _ => .bus _ rfl fun R L => .getHarddisk L _ (by simp [readCells])
  | setHarddisk drive type =>
    exact .withOperand fun _ _ => .validated (.bus _ rfl fun R L => .setter L p.cfgMap.hdd _ _ (fun _ h => h) fun _ h => h)
  | getEquip => exact .bus _ rfl fun R L => .stmt L (L.read _ (by simp [readCells])) fun _ => .pure L _
  | setEquip field value =>
    exact .withOperand fun _ _ => .validated (.bus _ rfl fun R L => .setter L p.cfgMap.equip _ _ (fun _ h => h) fun _ h => h)
  | getMemword which =>
    exact .withOperand fun a ha => .bus _ rfl fun R L =>
      .step <| .stmt L (L.read _ (by simp [readCells, ha])) fun _ => .stmt L (L.read _ (by simp [readCells, ha])) fun _ => .pure L _
  | setMemword which value =>
    exact .withOperand fun a ha => .validated (.bus _ rfl fun R L => .setMemword L a _ (fun _ h => h) (by simp [storedCells, ha]))
  | getDiag => exact .bus _ rfl fun R L => .stmt L (L.read _ (by simp [readCells])) fun _ => .pure L _
  | clearDiag => exact .bus _ rfl fun R L => .stmt L (L.write _ (by simp [storedCells]) _) fun _ => .pure L _
  | getShutdown => exact .bus _ rfl fun R L => .stmt L (L.read _ (by simp [readCells])) fun _ => .pure L _
  | ckCompute => exact .bus _ rfl fun R L => .bind L (.ckSum L fun _ h => h) fun _ => .pure L _
  | ckVerify => exact .bus _ rfl fun R L => .ckVerify L fun _ h => h
  | ckUpdate => exact .bus _ rfl fun R L => .ckUpdateBody L (fun _ h => h) fun _ h => h
  | latchRead channel =>
    exact .withOperand fun c hc => .bus _ rfl fun R L =>
      .latchRead L c (by simp [opChannels, hc]) (by simp [readCells, hc]) (by simp [storedCells, hc])
  | platformStatus => exact .bus _ rfl fun R L => .stmt L L.plat fun _ => .step <| .step <| .step <| .pure L _
  | exportSnapshot =>
    exact .bus _ rfl fun R L => .stmt L (.waitUip L (by simp [readCells])) fun _ =>
      .bind L (.readEach L _ fun _ h => by simp [readCells, h]) fun _ => .pure L _
  | importSnapshot data =>
    show Shape _ p (importSnapshotOp p data)
    unfold importSnapshotOp
    split
    · exact .step _ (.bus _ rfl fun R L =>
        .importSnapshot L data (by simp [readCells]) (fun _ h => by simp [storedCells, h]) (by simp [storedCells]))
    · exact .fails _
  | factoryReset => exact .bus _ rfl fun R L => .factoryReset L (fun _ h => h) fun _ h => h
  | diff a b => exact .steps (.value _ rfl) _

/-- The meaning of a request is the run of what it comes to. -/
theorem exec_operation (i : Instr) (s : State) : exec i s = .next (runOperation (operation s.params i) s) := by
  cases i <;> rfl

/-- The ways an operation can end: with an error and nothing else changed; with a value and no bus event, for the pure
operations; or with the value and warnings of a program that ran along every relation its primitives keep. -/
inductive Ends (i : Instr) (s : State) : State → Prop where
  | err (e : OpError) : Ends i s (raise e s)
  | value (v : Value) (h : isPure i = true) : Ends i s (runPure v s)
  | ran (u : State) (v : Value) (ws : List Warning) (hp : s.ioPermitted = true) (hi : isPure i = false)
      (h : ∀ R, OpLaw s.params (readCells s.params i) (storedCells s.params i) (opChannels i) R → R s.started u) :
      Ends i s (finish (.ok v ws) u)

/-- Every operation gives a next state, and ends in one of three ways. -/
theorem exec_ends (i : Instr) (s : State) : ∃ t, exec i s = .next t ∧ Ends i s t := by
  refine ⟨_, exec_operation i s, ?_⟩
  have h := operation_shape i s.params
  generalize operation s.params i = o at h
  induction h with
  | step o _ ih => exact ih
  | fails e => exact .err e
  | value v h => exact .value v h
  | bus b hi h =>
    cases hp : s.ioPermitted
    · rw [runOperation_denied hp]; exact .err _
    · rw [runOperation_permitted hp]; exact .ran _ _ _ hp hi fun R L => (h R L s.started rfl).2

/-- Every primitive keeps the canonical form, and so every operation does. -/
theorem wf_law (p rd wr ch) : OpLaw p rd wr ch WfStep where
  refl _ h := h
  trans h g x := g (h x)
  read a _ s hs := ⟨by simpa using hs, memRead_wf a s⟩
  write a _ v s hs := ⟨by simpa using hs, memWrite_wf a v s⟩
  readNib c _ _ n _ s hs := ⟨by simpa using hs, memReadNib_wf c n s⟩
  barrier s hs := ⟨by simpa [perform] using hs, barrier_wf s⟩
  selIn c _ q _ _ s hs := ⟨by simpa [perform] using hs, selPortIn_wf c q s⟩
  selOut c _ q _ _ v s hs := ⟨by simpa [perform] using hs, selPortOut_wf c q v s⟩
  nibIn c _ _ q _ s hs := ⟨by simpa [perform] using hs, nibPortIn_wf c q s⟩
  plat s hs := ⟨by simpa [perform] using hs, platPortIn_wf s⟩

/-- What an operation comes to, its first statements passed. -/
def Operation.comesTo : Operation → Operation
  | .step o => o.comesTo
  | o => o

@[simp] theorem comesTo_step (o : Operation) : (Operation.step o).comesTo = o.comesTo := rfl
@[simp] theorem comesTo_bus (b : Bus (Value × List Warning)) : (Operation.bus b).comesTo = .bus b := rfl

theorem runOperation_comesTo (o : Operation) (s : State) : runOperation o.comesTo s = runOperation o s := by
  induction o with
  | step o ih => exact ih
  | fails e => rfl
  | value v => rfl
  | bus b => rfl

/-- An operation that comes to a program, with port access, ends as its program does. -/
theorem exec_ran {i s b v ws u} (h : (operation s.params i).comesTo = .bus b) (hio : s.ioPermitted = true)
    (hr : b.run s.started = ((v, ws), u)) : exec i s = .next (finish (.ok v ws) u) := by
  rw [exec_operation, ← runOperation_comesTo, h, runOperation_permitted hio, hr]

/-- No bus procedure changes the port permission. -/
theorem permission_law (p rd wr ch) : OpLaw p rd wr ch fun s t => t.ioPermitted = s.ioPermitted where
  refl _ := rfl
  trans h g := g.trans h
  read a _ s hs := ⟨by simpa using hs, by simp⟩
  write a _ v s hs := ⟨by simpa using hs, by simp⟩
  readNib c _ _ n _ s hs := ⟨by simpa using hs, by simp⟩
  barrier s hs := ⟨by simpa [perform] using hs, by simp [perform]⟩
  selIn c _ q _ _ s hs := ⟨by simpa [perform] using hs, by simp [perform]⟩
  selOut c _ q _ _ v s hs := ⟨by simpa [perform] using hs, by simp [perform]⟩
  nibIn c _ _ q _ s hs := ⟨by simpa [perform] using hs, by simp [perform]⟩
  plat s hs := ⟨by simpa [perform] using hs, by simp [perform]⟩

theorem exec_ioPermitted {i s t} (h : exec i s = .next t) : t.ioPermitted = s.ioPermitted := by
  obtain ⟨t', ht, e⟩ := exec_ends i s
  rw [h] at ht
  cases ht
  cases e with
  | err e => rfl
  | value v _ => rfl
  | ran u v ws _ _ g => exact g _ (permission_law _ _ _ _)

/-- Reads a statement each come to what the same reads inside one statement come to. -/
@[simp] theorem run_memReadEach (l : List CellAddr) (s : State) : (memReadEach l).run s = (memReadAll l).run s := by
  induction l generalizing s with
  | nil => rfl
  | cons a l ih => simp only [memReadEach, memReadAll, run_stmt, run_bind, run_pure, ih]

/-- An import's pass over some cells comes to its writes in their order (47_snapshot.md R374). -/
theorem run_importPass_cells (p : Params) (data : List Byte) (l : List CellAddr) (s : State) : (importPass p data l).run s =
    (memWriteAll ((l.filter fun a => a != REG_C && a != REG_D).map fun a => (a, importByte p data a))).run s := by
  induction l generalizing s with
  | nil => rfl
  | cons a l ih =>
    rw [importPass, run_step, List.filter_cons]
    split
    · simp only [List.map_cons, memWriteAll, run_stmt, ih]
    · exact ih s

/-- An import's pass comes to its writes in ascending order (47_snapshot.md R374). -/
@[simp] theorem run_importPass (p : Params) (data : List Byte) (s : State) :
    (importPass p data allCells).run s = (memWriteAll (importWrites p data)).run s := run_importPass_cells p data _ s

/-- The statements of CK_UPDATE come to what `ck_update()` comes to (45_checksum.md R337). -/
theorem run_ckUpdateBody (p : Params) (s : State) :
    (ckUpdateBody p).run s = ((.word ((ckUpdate p).run s).1, []), ((ckUpdate p).run s).2) := by
  simp only [ckUpdateBody, ckUpdate, run_stmt, run_bind, run_pure]

/-- A poll and then the reads of any cells end with the bytes read. -/
theorem pollThenRead_value (p : Params) (l : List CellAddr) (s : State) : ∃ bs ws,
    (((waitUip p).stmt fun ws => (memReadEach l).bind fun bs => .pure (Value.snapshot bs, ws)).run s).1 = (.snapshot bs, ws) := by
  simp only [run_stmt, run_bind, run_pure]
  exact ⟨_, _, rfl⟩

/-- With port access an export ends with a snapshot. -/
theorem exportSnapshot_ran {s : State} (h : s.ioPermitted = true) :
    ∃ t bs ws, exec .exportSnapshot s = .next t ∧ t.outcome = some (.ok (.snapshot bs) ws) := by
  obtain ⟨bs, ws, hb⟩ := pollThenRead_value s.params allCells s.started
  refine ⟨_, bs, ws, exec_operation _ _, ?_⟩
  show (runOperation (.bus (exportSnapshotBody s.params)) s).outcome = _
  rw [runOperation_permitted h, exportSnapshotBody, hb]
  rfl

end Sys2Proof.Machine
end

