-- ==== Sys2Proof/Laws/Along.lean ====
section
/-! SUPPORT. What a piece of an operation can do to the machine, as one relation: it is kept by every primitive, and so by every
operation. -/

namespace Sys2Proof.Machine

open Sys2Proof.Config

/-- The fields no piece of an operation changes (a selector register apart). -/
structure State.SameInputs (s t : State) : Prop where
  rtcPresent : t.rtcPresent = s.rtcPresent
  plat : t.plat = s.plat
  ioPermitted : t.ioPermitted = s.ioPermitted
  params : t.params = s.params
  requests : t.requests = s.requests
  outcome : t.outcome = s.outcome
  running : t.running = s.running

/-- What can happen between two points of a piece that reads cells `rd` and writes cells `wr`: the inputs stay; a cell that is
neither written nor the clock agent's stays; with SET = 1, and Register B not written, every cell that is not written stays but
Register C; the trace grows; and if the draws of the new events are quiet, `uip_now` and every cell that is not written stay,
Register C too where it is not read. -/
structure Along (rd wr : List CellAddr) (s t : State) : Prop where
  same : s.SameInputs t
  kept : ∀ a, a ∉ wr → agentCell a = false → t.x a = s.x a
  frozen : REG_B ∉ wr → setFlag (s.x REG_B) = true → ∀ a, a ∉ wr → a ≠ REG_C → t.x a = s.x a
  events : ∃ ev, t.trace = s.trace ++ ev ∧ ∀ n, s.QuietFor (ev.length + n) →
    t.QuietFor n ∧ t.uipNow = s.uipNow ∧ ∀ a, a ∉ wr → (a = REG_C → REG_C ∉ rd) → t.x a = s.x a

theorem State.SameInputs.refl (s : State) : s.SameInputs s := ⟨rfl, rfl, rfl, rfl, rfl, rfl, rfl⟩

theorem State.SameInputs.trans {s t u : State} (h : s.SameInputs t) (g : t.SameInputs u) : s.SameInputs u :=
  ⟨g.1.trans h.1, g.2.trans h.2, g.3.trans h.3, g.4.trans h.4, g.5.trans h.5, g.6.trans h.6, g.7.trans h.7⟩

theorem regB_not_agent : agentCell REG_B = false := by decide

section
variable {rd wr : List CellAddr} {s t u : State}

theorem Along.refl (s : State) : Along rd wr s s :=
  ⟨.refl s, fun _ _ _ => rfl, fun _ _ _ _ _ => rfl, [], by simp, fun n h => ⟨by simpa using h, rfl, fun _ _ _ => rfl⟩⟩

theorem Along.trans (h : Along rd wr s t) (g : Along rd wr t u) : Along rd wr s u := by
  refine ⟨h.same.trans g.same, fun a ha hb => (g.kept a ha hb).trans (h.kept a ha hb), fun hB hs a ha hc => ?_, ?_⟩
  · exact (g.frozen hB (by rwa [h.kept _ hB regB_not_agent]) a ha hc).trans (h.frozen hB hs a ha hc)
  · obtain ⟨e1, ht1, q1⟩ := h.events
    obtain ⟨e2, ht2, q2⟩ := g.events
    refine ⟨e1 ++ e2, by rw [ht2, ht1, List.append_assoc], fun n hq => ?_⟩
    rw [List.length_append, Nat.add_assoc] at hq
    obtain ⟨hq1, hu1, hx1⟩ := q1 _ hq
    obtain ⟨hq2, hu2, hx2⟩ := q2 _ hq1
    exact ⟨hq2, hu2.trans hu1, fun a ha hc => (hx2 a ha hc).trans (hx1 a ha hc)⟩

/-- The environment's turn, then an effect `f` of the device and a recorded event: what `f` must not do. -/
theorem Along.event (s : State) (e : BusEvent) (f : State → State)
    (hsame : ∀ r : State, r.SameInputs (f r)) (htr : ∀ r, (f r).trace = r.trace) (huip : ∀ r, (f r).uipNow = r.uipNow)
    (hscript : ∀ r, (f r).script = r.script)
    (hx : ∀ r : State, r.idx = s.idx → r.rtcPresent = s.rtcPresent → ∀ a, a ∉ wr → (a = REG_C → REG_C ∉ rd) → (f r).x a = r.x a) :
    Along rd wr s (record e (f (agentTurn s).2)) := by
  have hi := agentTurn_idx s
  have hs : s.SameInputs (agentTurn s).2 := by constructor <;> simp
  have hf : s.SameInputs (record e (f (agentTurn s).2)) :=
    (hs.trans (hsame _)).trans ⟨rfl, rfl, rfl, rfl, rfl, rfl, rfl⟩
  refine ⟨hf, fun a ha hb => ?_, fun hB hset a ha hc => ?_, [e], by simp [htr], fun n hq => ?_⟩
  · rw [record_x, hx _ hi (agentTurn_rtcPresent s) a ha (fun e => absurd e (agentCell_false hb).2), agentTurn_x s hb]
  · rw [record_x, hx _ hi (agentTurn_rtcPresent s) a ha (fun e => absurd e hc), agentTurn_x_set s hc hset]
  · rw [List.length_singleton, Nat.add_comm] at hq
    obtain ⟨d, r, hscr, hd, hrun, hq'⟩ := agentTurn_quiet hq
    have hst : (record e (f (agentTurn s).2)).script = r := by rw [record_script, hscript, hrun]
    refine ⟨?_, by rw [record_uipNow, huip, hrun], fun a ha hc => ?_⟩
    · unfold State.QuietFor at hq' ⊢
      rwa [hst]
    · rw [record_x, hx _ hi (agentTurn_rtcPresent s) a ha hc, hrun]
      rfl

end

section
variable (rd wr : List CellAddr)

theorem Along.barrier (s : State) : Along rd wr s (barrier s).2 :=
  .event s _ id (fun r => .refl r) (fun _ => rfl) (fun _ => rfl) (fun _ => rfl) fun _ _ _ _ _ _ => rfl

theorem Along.rtcSelect (v : Byte) (s : State) : Along rd wr s (rtcSelect v s).2 :=
  .event s _ (deviceSelect v) (fun _ => ⟨rfl, rfl, rfl, rfl, rfl, rfl, rfl⟩) (fun _ => rfl) (fun _ => rfl) (fun _ => rfl)
    fun _ _ _ _ _ _ => rfl

theorem Along.rtcDataIn (s : State) (h : s.idx ∈ rd) : Along rd wr s (rtcDataIn s).2 :=
  .event s _ (fun r => (deviceRead (agentTurn s).1 r).2) (fun r => by constructor <;> simp)
    (fun r => by simp) (fun r => by simp) (fun r => by simp)
    fun r hi _ a _ hc => deviceRead_x _ _ (by
      rw [hi]
      by_cases hs : s.idx = REG_C
      · exact .inl fun ha => hc ha (hs ▸ h)
      · exact .inr hs)

theorem Along.rtcDataOut (v : Byte) (s : State) (h : s.idx ∈ wr) : Along rd wr s (rtcDataOut v s).2 :=
  .event s _ (deviceWrite v) (fun r => by constructor <;> simp)
    (fun r => by simp) (fun r => by simp) (fun r => by simp)
    fun r hi _ a ha _ => deviceWrite_x_other v r (by rintro rfl; exact ha (hi ▸ h))

/-- An absent RTC's data read changes nothing (10_state.md R86). -/
theorem Along.rtcDataIn_absent (s : State) (h : s.rtcPresent = false) : Along rd wr s (Machine.rtcDataIn s).2 :=
  .event s _ (fun r => (deviceRead (agentTurn s).1 r).2) (fun r => by constructor <;> simp)
    (fun r => by simp) (fun r => by simp) (fun r => by simp)
    fun r _ hp a _ _ => by simp [deviceRead, hp, h]

/-- An absent RTC absorbs a data write (40_register_store.md R174). -/
theorem Along.rtcDataOut_absent (v : Byte) (s : State) (h : s.rtcPresent = false) : Along rd wr s (Machine.rtcDataOut v s).2 :=
  .event s _ (deviceWrite v) (fun r => by constructor <;> simp)
    (fun r => by simp) (fun r => by simp) (fun r => by simp)
    fun r _ hp a _ _ => by rw [deviceWrite_absent v r (hp.trans h)]

theorem Along.selPortIn (c : Channel) (p : Port) (s : State) : Along rd wr s (selPortIn c p s).2 :=
  .event s _ id (fun r => .refl r) (fun _ => rfl) (fun _ => rfl) (fun _ => rfl) fun _ _ _ _ _ _ => rfl

theorem Along.selPortOut (c : Channel) (p : Port) (v : Byte) (s : State) : Along rd wr s (selPortOut c p v s).2 :=
  .event s _ (fun r => r.setSel c v) (fun r => by constructor <;> simp)
    (fun r => by simp) (fun r => by simp) (fun r => by simp) fun r _ _ a _ _ => by simp

theorem Along.nibPortIn (c : Channel) (p : Port) (s : State) : Along rd wr s (nibPortIn c p s).2 :=
  .event s _ id (fun r => .refl r) (fun _ => rfl) (fun _ => rfl) (fun _ => rfl) fun _ _ _ _ _ _ => rfl

theorem Along.nibDataIn (c : Channel) (s : State) : Along rd wr s (nibDataIn c s).2 :=
  .event s _ id (fun r => .refl r) (fun _ => rfl) (fun _ => rfl) (fun _ => rfl) fun _ _ _ _ _ _ => rfl

theorem Along.platPortIn (s : State) : Along rd wr s (platPortIn s).2 :=
  .event s _ id (fun r => .refl r) (fun _ => rfl) (fun _ => rfl) (fun _ => rfl) fun _ _ _ _ _ _ => rfl

theorem Along.memRead {a : CellAddr} (h : a ∈ rd) (s : State) : Along rd wr s ((memRead a).run s).2 :=
  ((Along.rtcSelect rd wr _ s).trans (.barrier rd wr _)).trans (.rtcDataIn rd wr _ (by simpa [setWidth_addr] using h))

theorem Along.memWrite {a : CellAddr} (h : a ∈ wr) (v : Byte) (s : State) : Along rd wr s ((memWrite a v).run s).2 :=
  (((Along.rtcSelect rd wr _ s).trans (.barrier rd wr _)).trans
    (.rtcDataOut rd wr v _ (by simpa [setWidth_addr] using h))).trans (.barrier rd wr _)

theorem Along.memReadNib (c : Channel) (a : CellAddr) (s : State) : Along rd wr s ((Machine.memReadNib c a).run s).2 :=
  ((Along.rtcSelect rd wr _ s).trans (.barrier rd wr _)).trans (.nibDataIn rd wr c _)

/-- Every primitive of an operation goes along. -/
theorem Along.law (p : Params) (ch : List Channel) : OpLaw p rd wr ch (Along rd wr) where
  refl := .refl
  trans := .trans
  read a h s hs := ⟨by simpa using hs, .memRead rd wr h s⟩
  write a h v s hs := ⟨by simpa using hs, .memWrite rd wr h v s⟩
  readNib c _ _ n _ s hs := ⟨by simpa using hs, .memReadNib rd wr c n s⟩
  barrier s hs := ⟨by simpa [perform] using hs, .barrier rd wr s⟩
  selIn c _ q _ _ s hs := ⟨by simpa [perform] using hs, .selPortIn rd wr c q s⟩
  selOut c _ q _ _ v s hs := ⟨by simpa [perform] using hs, .selPortOut rd wr c q v s⟩
  nibIn c _ _ n _ s hs := ⟨by simpa [perform] using hs, .nibPortIn rd wr c n s⟩
  plat s hs := ⟨by simpa [perform] using hs, .platPortIn rd wr s⟩

end

/-- From an empty trace: a cell that is not written, and that the clock agent could not change, stays. -/
theorem Along.steady {rd wr s t} (h : Along rd wr s t) (ht : s.trace = []) {a : CellAddr} (hw : a ∉ wr)
    (hC : a = REG_C → REG_C ∉ rd) (hB : REG_B ∈ wr → timeCell a = false ∨ s.QuietFor t.trace.length)
    (hs : s.Steady a t.trace.length) : t.x a = s.x a := by
  obtain ⟨ev, htr, hq⟩ := h.events
  have hlen : t.trace.length = ev.length + 0 := by rw [htr, ht]; simp
  have quiet : s.QuietFor t.trace.length → t.x a = s.x a := fun q => by
    rw [hlen] at q; exact (hq 0 q).2.2 a hw hC
  rcases hs with hs | ⟨htm, hset⟩ | hs
  · exact h.kept a hw hs
  · by_cases hb : REG_B ∈ wr
    · rcases hB hb with g | g
      · rw [g] at htm; cases htm
      · exact quiet g
    · exact h.frozen hb hset a hw (timeCell_ne_regC htm)
  · exact quiet hs

/-- Draws quiet for the whole trace are quiet for the rest of it. -/
theorem Along.later {rd s r} (al : Along rd [] s r) (h0 : s.trace = []) {n} (hq : s.QuietFor n) {k} (hk : r.trace.length + k ≤ n) :
    r.QuietFor k := by
  obtain ⟨ev, htr, h⟩ := al.events
  have : r.trace.length = ev.length := by rw [htr, h0]; simp
  exact (h k (QuietFor_mono hq (by omega))).1

/-- A cell the clock agent cannot change for the whole trace is unchanged later, and cannot be changed in the rest of it. -/
theorem Along.steady_later {rd s r} (al : Along rd [] s r) (h0 : s.trace = []) {a n k} (hC : a = REG_C → REG_C ∉ rd)
    (hst : s.Steady a n) (hk : r.trace.length + k ≤ n) :
    r.Steady a k ∧ r.x a = s.x a := by
  refine ⟨?_, ?_⟩
  · rcases hst with h | ⟨h, hs⟩ | h
    · exact .inl h
    · exact .inr (.inl ⟨h, by rwa [al.kept _ (by simp) regB_not_agent]⟩)
    · exact .inr (.inr (al.later h0 h hk))
  · refine al.steady h0 (by simp) hC (by simp) ?_
    rcases hst with h | h | h
    · exact .inl h
    · exact .inr (.inl h)
    · exact .inr (.inr (QuietFor_mono h (by omega)))

end Sys2Proof.Machine
end

