-- ==== Sys2Proof/Laws/BusSteps.lean ====
section
/-! SUPPORT. What the steps of an operation under way can do: the bus events do not look at `running`, each is recorded with the
answer it gave, and the statements passed and the answers recorded say what is left of the operation. -/

namespace Sys2Proof.Machine

open Sys2Proof.Config

/-! ## The bus does not look at `running` -/

/-- A state with another operation under way. -/
abbrev State.busy (s : State) (r : Option Running) : State := { s with running := r }

section
variable (s : State) (r : Option Running)

theorem nextDraw_busy : nextDraw (s.busy r) = ((nextDraw s).1, (nextDraw s).2.busy r) := by
  unfold nextDraw
  show (match s.script with | d :: l => _ | [] => _) = _
  cases s.script <;> rfl

theorem replaceCell_busy (a : CellAddr) (v : Option Byte) : replaceCell a v (s.busy r) = (replaceCell a v s).busy r := by
  cases v <;> rfl

theorem clockStep_busy (c : ClockAct) : clockStep c (s.busy r) = (clockStep c s).busy r := by
  have h1 : ∀ u : State, clockUip c.uip (u.busy r) = (clockUip c.uip u).busy r := fun u => by cases c.uip <;> rfl
  have h2 : ∀ u : State, clockCells c (u.busy r) = (clockCells c u).busy r := fun u => by
    unfold clockCells
    show (if setFlag (u.x REG_B) then _ else _) = _
    split
    · rfl
    · simp only [replaceCell_busy]
  have h3 : ∀ u : State, clockFlags c.setFlags (u.busy r) = (clockFlags c.setFlags u).busy r := fun u => by
    cases c.setFlags <;> rfl
  simp only [clockStep, h1, h2, h3]

theorem agentTurn_busy : agentTurn (s.busy r) = ((agentTurn s).1, (agentTurn s).2.busy r) := by
  show ((nextDraw (s.busy r)).1, clockStep (nextDraw (s.busy r)).1.clock (nextDraw (s.busy r)).2) = _
  rw [nextDraw_busy, clockStep_busy]
  rfl

theorem deviceRead_busy (d : Draw) : deviceRead d (s.busy r) = ((deviceRead d s).1, (deviceRead d s).2.busy r) := by
  unfold deviceRead
  show (if s.rtcPresent = true then if s.idx = REG_C then _ else if s.idx = REG_D then _ else if s.idx = REG_A then _ else _
    else _) = _
  split_ifs <;> rfl

theorem deviceWrite_busy (v : Byte) : deviceWrite v (s.busy r) = (deviceWrite v s).busy r := by
  unfold deviceWrite
  show (if s.rtcPresent = true then if s.idx = REG_A then _ else if s.idx = REG_B then _
    else if s.idx = REG_C ∨ s.idx = REG_D then _ else _ else _) = _
  split_ifs <;> rfl

theorem latch_busy (c : Channel) : (s.busy r).latch c = s.latch c := by cases c <;> rfl

theorem nibSource_busy (c : Channel) (d : Draw) : nibSource c d (s.busy r) = nibSource c d s := by
  simp only [nibSource, presentedNibble, selectorValue, latch_busy]
  rfl

theorem deviceReadNib_busy (c : Channel) (d : Draw) : deviceReadNib c d (s.busy r) = deviceReadNib c d s := by
  unfold deviceReadNib
  rw [nibSource_busy]

/-- A bus primitive gives the same answer and the same state, whatever is under way. -/
theorem perform_busy (q : Request) : perform q (s.busy r) = ((perform q s).1, (perform q s).2.busy r) := by
  cases q with
  | barrier => simp only [perform, barrier, device_bind, agentTurn_busy]; rfl
  | select v => simp only [perform, rtcSelect, device_bind, agentTurn_busy]; rfl
  | dataIn => simp only [perform, rtcDataIn, device_bind, agentTurn_busy, deviceRead_busy]; rfl
  | dataOut v => simp only [perform, rtcDataOut, device_bind, device_modify, agentTurn_busy, deviceWrite_busy]; rfl
  | nibDataIn c =>
    simp only [perform, nibDataIn, device_bind, device_get, device_modify, device_pure, agentTurn_busy, deviceReadNib_busy]; rfl
  | selIn c p =>
    simp only [perform, selPortIn, device_bind, device_get, device_modify, device_pure, agentTurn_busy, latch_busy]; rfl
  | selOut c p v => simp only [perform, selPortOut, device_bind, device_modify, agentTurn_busy]; cases c <;> rfl
  | nibIn c p =>
    simp only [perform, nibPortIn, device_bind, device_get, device_modify, device_pure, agentTurn_busy, nibSource_busy]; rfl
  | platIn => simp only [perform, platPortIn, device_bind, agentTurn_busy]; rfl

end

/-- A program run to its end gives the same value and the same state, whatever is under way. -/
theorem run_busy {α : Type} (b : Bus α) (s : State) (r : Option Running) :
    b.run (s.busy r) = ((b.run s).1, (b.run s).2.busy r) := by
  induction b generalizing s with
  | pure a => rfl
  | ask q n ih => rw [run_ask, run_ask, perform_busy]; exact ih _ _
  | step b ih => exact ih s

/-! ## Answers and what is left -/

/-- A bus primitive records one event, with the answer it gave. -/
theorem perform_event (q : Request) (s : State) : ∃ e, (perform q s).2.trace = s.trace ++ [e] ∧ e.answer = (perform q s).1 := by
  cases q <;> simp [perform, BusEvent.answer]

/-- A program only adds events to the trace. -/
theorem run_trace {α : Type} (b : Bus α) (s : State) : s.trace <+: (b.run s).2.trace := by
  induction b generalizing s with
  | pure a => exact List.prefix_rfl
  | ask q n ih =>
    obtain ⟨e, h, -⟩ := perform_event q s
    exact (h ▸ List.prefix_append _ _).trans (ih _ _)
  | step b ih => exact ih s

section
variable {α : Type}

/-- `b`, after `k` statements and the answers `l`, all of them used, is `c`. -/
inductive Bus.At : Bus α → Nat → List Byte → Bus α → Prop where
  | here (c : Bus α) : Bus.At c 0 [] c
  | ask {q : Request} {n : Byte → Bus α} {v : Byte} {k : Nat} {l : List Byte} {c : Bus α} (h : Bus.At (n v) k l c) :
      Bus.At (.ask q n) k (v :: l) c
  | step {b : Bus α} {k : Nat} {l : List Byte} {c : Bus α} (h : Bus.At b k l c) : Bus.At (.step b) (k + 1) l c

theorem Bus.At.after {b c : Bus α} {k : Nat} {l : List Byte} (h : b.At k l c) : b.after k l = c := by
  induction h with
  | here c => cases c <;> rfl
  | ask _ ih => exact ih
  | step _ ih => exact ih

/-- One answer more, and the piece goes on by it. -/
theorem Bus.At.answered {b c : Bus α} {k : Nat} {l : List Byte} (h : b.At k l c) {q : Request} {n : Byte → Bus α}
    (hc : c = .ask q n) (v : Byte) : b.At k (l ++ [v]) (n v) := by
  induction h with
  | here c => subst hc; exact .ask (.here _)
  | ask _ ih => exact .ask (ih hc)
  | step _ ih => exact .step (ih hc)

/-- One statement more. -/
theorem Bus.At.passed {b c d : Bus α} {k : Nat} {l : List Byte} (h : b.At k l c) (hc : c = .step d) : b.At (k + 1) l d := by
  induction h with
  | here c => subst hc; exact .step (.here _)
  | ask _ ih => exact .ask (ih hc)
  | step _ ih => exact .step (ih hc)

end

/-- `o`, after `k` statements and the answers `l`, all of them used, is `c`. -/
inductive Operation.At : Operation → Nat → List Byte → Operation → Prop where
  | here (c : Operation) : Operation.At c 0 [] c
  | step {o : Operation} {k : Nat} {l : List Byte} {c : Operation} (h : Operation.At o k l c) :
      Operation.At (.step o) (k + 1) l c
  | bus {b c : Bus (Value × List Warning)} {k : Nat} {l : List Byte} (h : b.At k l c) : Operation.At (.bus b) k l (.bus c)

section
variable {o c : Operation} {k : Nat} {l : List Byte}

theorem Operation.At.after (h : o.At k l c) : o.after k l = c := by
  induction h with
  | here c => cases c with
    | bus b => exact congrArg _ (Bus.At.here b).after
    | _ => rfl
  | step _ ih => exact ih
  | bus h => exact congrArg _ h.after

theorem Operation.At.passed (h : o.At k l c) {d : Operation} (hc : c = .step d) : o.At (k + 1) l d := by
  induction h with
  | here c => subst hc; exact .step (.here _)
  | step _ ih => exact .step (ih hc)
  | bus h => cases hc

/-- A program that an operation comes to is reached by its own statements and answers. -/
theorem Operation.At.bus_next (h : o.At k l c) {b d : Bus (Value × List Warning)} (hc : c = .bus b) {j : Nat} {m : List Byte}
    (hd : ∀ b0 k l, Bus.At b0 k l b → b0.At (k + j) (l ++ m) d) : o.At (k + j) (l ++ m) (.bus d) := by
  induction h with
  | here c => subst hc; exact .bus (by simpa using hd b 0 [] (.here b))
  | step _ ih => rw [Nat.add_right_comm]; exact .step (ih hc)
  | bus h => cases hc; exact .bus (hd _ _ _ h)

/-- Only a program has answers. -/
theorem Operation.At.no_answers (h : o.At k l c) (hc : ∀ b, c ≠ .bus b) : l = [] := by
  induction h with
  | here c => rfl
  | step _ ih => exact ih hc
  | bus h => exact absurd rfl (hc _)

end

/-! ## Every operation with bus events issues one before it ends -/

/-- The program issues a bus primitive before it ends. -/
def Bus.Asks {α : Type} : Bus α → Prop
  | .pure _ => False
  | .ask _ _ => True
  | .step b => b.Asks

theorem Bus.Asks.bind {α β : Type} {m : Bus α} {f : α → Bus β} (hf : ∀ a, (f a).Asks) : (m.bind f).Asks := by
  induction m with
  | pure a => exact hf a
  | ask q n _ => trivial
  | step b ih => exact ih

theorem Bus.Asks.bind_left {α β : Type} {m : Bus α} {f : α → Bus β} (hm : m.Asks) : (m.bind f).Asks := by
  induction m with
  | pure a => exact hm.elim
  | ask q n _ => trivial
  | step b ih => exact ih hm

/-- An operation that comes to a program issues a bus primitive before it ends. -/
def Operation.Asks : Operation → Prop
  | .step o => o.Asks
  | .fails _ => True
  | .value _ => True
  | .bus b => b.Asks

theorem Operation.Asks.validated {checks : List (Option OperandName)} {o : Operation} (h : o.Asks) :
    (validated checks o).Asks := by
  induction checks with
  | nil => exact h
  | cons c l ih =>
    cases c with
    | none => exact ih
    | some f => trivial

theorem Operation.Asks.withOperand {α : Type} {f : OperandName} {a : Option α} {o : α → Operation} (h : ∀ v, (o v).Asks) :
    (withOperand f a o).Asks := by
  cases a with
  | none => trivial
  | some v => exact h v

theorem asks_selRead (p : Params) (c : Channel) : (selRead p c).Asks := by
  unfold selRead
  split <;> trivial

theorem asks_ckUpdate (p : Params) : (ckUpdate p).Asks := .bind fun _ => trivial

theorem operation_asks (p : Params) (i : Instr) : (operation p i).Asks := by
  cases i with
  | bcdDecode raw mode => exact .validated (.withOperand fun _ => trivial)
  | bcdEncode n mode => exact .withOperand fun _ => .validated trivial
  | readTime => exact Bus.Asks.bind fun _ => trivial
  | readAlarm => exact Bus.Asks.bind fun _ => trivial
  | getFloppy drive => exact .withOperand fun _ => trivial
  | setFloppy drive type => exact .withOperand fun _ => .validated trivial
  | getHarddisk drive => exact .withOperand fun _ => trivial
  | setHarddisk drive type => exact .withOperand fun _ => .validated trivial
  | setEquip field value => exact .withOperand fun _ => .validated trivial
  | getMemword which => exact .withOperand fun _ => trivial
  | setMemword which value => exact .withOperand fun _ => .validated trivial
  | setAlarmEnabled enable => exact .withOperand fun _ => trivial
  | latchRead channel => exact .withOperand fun c => Bus.Asks.bind_left (asks_selRead p c)
  | ckVerify => exact Bus.Asks.bind fun _ => trivial
  | ckUpdate => exact Bus.Asks.bind fun _ => trivial
  | exportSnapshot => exact Bus.Asks.bind fun _ => trivial
  | importSnapshot data =>
    show (importSnapshotOp p data).Asks
    unfold importSnapshotOp
    split <;> trivial
  | factoryReset => exact Bus.Asks.bind fun _ => Bus.Asks.bind fun _ => Bus.Asks.bind_left (asks_ckUpdate p)
  | diff a b => trivial
  | _ => first | exact .validated trivial | trivial

/-! ## The steps of an operation under way (10_state.md R42) -/

/-- A property that every bus primitive, a change of the operation under way and an operation's end keep, both grains of step
keep. -/
theorem steps_keep {P : State → Prop} (ask : ∀ q s, P s → P (perform q s).2) (busy : ∀ s r, P s → P (s.busy r))
    (ends : ∀ s l r, P s → P (finish r { s with trace := l })) {s : State} (h : P s) : P (blockStep s) ∧ P (busStep s) := by
  have key : ∀ piece r, (∀ b, P (piece b s).2) → P (advance piece r s) := fun piece r hp => by
    unfold advance
    split
    · exact busy _ _ h
    · exact ends s [] _ h
    · exact ends s [] _ h
    · rename_i b _
      split
      · exact ends s [] _ h
      · have hb := hp b
        generalize piece b s = x at hb
        obtain ⟨y, u⟩ := x
        cases y with
        | inside => exact hb
        | next => exact busy _ _ hb
        | ended v => exact ends u u.trace _ hb
  have statement : ∀ (b : Bus (Value × List Warning)) (u : State), P u → P (b.statement u).2 := fun b => by
    induction b with
    | pure v => exact fun _ hu => hu
    | ask q n ih => exact fun u hu => ih _ _ (ask q u hu)
    | step b _ => exact fun _ hu => hu
  have event : ∀ b : Bus (Value × List Warning), P (b.event s).2 := fun b => by
    cases b with
    | ask q n => exact ask q s h
    | _ => exact h
  unfold blockStep busStep
  split
  · exact ⟨h, h⟩
  · exact ⟨key _ _ fun b => statement b s h, key _ _ event⟩

/-- The operation `i` is under way in `s` at statement `k`, what is left of it is `o`, and from here it ends in `t`. -/
structure UnderWay (i : Instr) (k : Nat) (o : Operation) (t s : State) : Prop where
  running : s.running = some ⟨i, k⟩
  left : (operation s.params i).At k s.answers o
  asks : s.ioPermitted = true ∨ o.Asks ∧ s.trace = []
  ends : o.run s = t

section
variable {i : Instr} {k : Nat} {o : Operation} {b : Bus (Value × List Warning)} {s t : State}

theorem UnderWay.rest_eq (h : UnderWay i k o t s) : s.rest ⟨i, k⟩ = o := h.left.after

/-- A whole step of an operation under way runs what is left of it to its end. -/
theorem UnderWay.step_eq (h : UnderWay i k o t s) : step s = .next t := by
  unfold step
  rw [h.running, ← h.ends, ← h.rest_eq]
  rfl

/-- What an operation under way has issued is the beginning of what it has issued in the end. -/
theorem UnderWay.trace_prefix (h : UnderWay i k o t s) : s.trace <+: t.trace := by
  have hnil : (∀ b, o ≠ .bus b) → s.trace = [] := fun hb => List.map_eq_nil_iff.mp (h.left.no_answers hb)
  rw [← h.ends]
  cases o with
  | step o => rw [hnil (by simp)]; exact List.nil_prefix
  | fails e => rw [hnil (by simp)]; exact List.nil_prefix
  | value v => rw [hnil (by simp)]; exact List.nil_prefix
  | bus b =>
    cases hp : s.ioPermitted with
    | true => rw [Operation.run, hp]; exact run_trace b s
    | false => rw [(h.asks.resolve_left (by simp [hp])).2]; exact List.nil_prefix

/-- The state after a statement is passed: nothing but the step index has changed. -/
theorem run_passed (o : Operation) (s : State) (r : Option Running) : o.run (s.busy r) = o.run s := by
  induction o with
  | step o ih => exact ih
  | fails e => rfl
  | value v => rfl
  | bus b =>
    simp only [Operation.run, runToEnd, run_busy]
    rfl

/-- A statement with no bus event. -/
theorem UnderWay.passed (h : UnderWay i k (.step o) t s) : UnderWay i (k + 1) o t (s.busy (some ⟨i, k + 1⟩)) where
  running := rfl
  left := h.left.passed rfl
  asks := h.asks
  ends := (run_passed o s _).trans h.ends

/-- The end of a statement of a program. -/
theorem UnderWay.passed_bus (h : UnderWay i k (.bus (.step b)) t s) :
    UnderWay i (k + 1) (.bus b) t (s.busy (some ⟨i, k + 1⟩)) where
  running := rfl
  left := by
    have := h.left.bus_next rfl (j := 1) (m := []) fun _ _ _ g => by rw [List.append_nil]; exact g.passed rfl
    rwa [List.append_nil] at this
  asks := h.asks
  ends := (run_passed (.bus b) s _).trans h.ends

/-- A bus event: one event more, and the operation is at the same statement. -/
theorem UnderWay.answered {q : Request} {n : Byte → Bus (Value × List Warning)} (h : UnderWay i k (.bus (.ask q n)) t s)
    (hp : s.ioPermitted = true) : UnderWay i k (.bus (n (perform q s).1)) t (perform q s).2 := by
  have hpar : (perform q s).2.params = s.params := by cases q <;> simp [perform]
  have hrun : (perform q s).2.running = s.running := by cases q <;> simp [perform]
  have hio : (perform q s).2.ioPermitted = s.ioPermitted := by cases q <;> simp [perform]
  obtain ⟨e, htr, he⟩ := perform_event q s
  have hans : (perform q s).2.answers = s.answers ++ [(perform q s).1] := by
    simp only [State.answers, htr, List.map_append, List.map_cons, List.map_nil, he]
  refine ⟨hrun.trans h.running, ?_, .inl (hio.trans hp), ?_⟩
  · rw [hpar, hans]
    exact h.left.bus_next rfl (j := 0) fun _ _ _ g => g.answered rfl _
  · rw [← h.ends, Operation.run, Operation.run, hio, if_pos hp, if_pos hp]
    rfl

/-- Without port access an operation under way ends at its first bus primitive. -/
theorem UnderWay.denied {q : Request} {n : Byte → Bus (Value × List Warning)} (h : UnderWay i k (.bus (.ask q n)) t s)
    (hp : s.ioPermitted = false) : raise .portAccessDenied s = t := by
  rw [← h.ends, Operation.run, if_neg (by simp [hp])]

/-- The end of a program, with port access or not. -/
theorem UnderWay.ended {v : Value × List Warning} (h : UnderWay i k (.bus (.pure v)) t s) : finish (.ok v.1 v.2) s = t := by
  rw [← h.ends, Operation.run, if_pos (h.asks.resolve_right fun g => g.1)]
  rfl

/-- An operation accepted is at its first statement, and ends where its meaning does. -/
theorem underWay_accept (i : Instr) (s : State) :
    UnderWay i 0 (operation s.params i) (runOperation (operation s.params i) s) (accept i s) where
  running := rfl
  left := .here _
  asks := .inr ⟨operation_asks _ _, rfl⟩
  ends := run_passed _ ({ s with trace := [], outcome := none } : State) _

end

end Sys2Proof.Machine
end

