-- ==== Sys2Proof/Laws/PerInstr.lean ====
section
/-! SUPPORT. One statement about every request as syntax: its wire form begins with an operation code of the map, and its length
can be told from its head (30_encoding.md R142, R145). -/

namespace Sys2Proof.Laws.EncodedForm

open Sys2Proof

/-- The request's wire form begins with its operation code, which is in the map, and has the length its head gives. -/
def Statement (i : Instr) : Prop :=
  (encode i).head? = some i.opcode ∧ i.opcode ∈ Spec.operationCodes ∧
    (i.wf = true → requestLength (encode i) = (encode i).length)

theorem opcode_in_map {i : Instr} (h : Spec.operationCodes.contains i.opcode = true) : i.opcode ∈ Spec.operationCodes := by
  simpa using h

theorem leBytes_length : ∀ n v, (leBytes n v).length = n
  | 0, _ => rfl
  | n + 1, v => by simp [leBytes, leBytes_length n]

theorem putInt_length (n : Int) : (putInt n).length = 4 := leBytes_length _ _

theorem length_bytes (l : List Byte) (h : bytesOk l = true) :
    ((putBytes l).getD 0 0#8).toNat + 256 * ((putBytes l).getD 1 0#8).toNat = l.length := by
  have : l.length ≤ 65535 := by simpa [bytesOk] using h
  simp only [putBytes, leBytes, List.cons_append, List.getD_cons_zero, List.getD_cons_succ, BitVec.toNat_ofNat]
  omega

theorem readCell (addr : Int) : Statement (.readCell addr) :=
  ⟨rfl, opcode_in_map rfl, fun _ => by
  simp [encode, Instr.opcode, Instr.operandBytes, requestLength, putInt_length]⟩

theorem writeCell (addr : Int) (value : Int) : Statement (.writeCell addr value) :=
  ⟨rfl, opcode_in_map rfl, fun _ => by
  simp [encode, Instr.opcode, Instr.operandBytes, requestLength, putInt_length]⟩

theorem bcdDecode (raw : Int) (mode : Byte) : Statement (.bcdDecode raw mode) :=
  ⟨rfl, opcode_in_map rfl, fun _ => by
  simp [encode, Instr.opcode, Instr.operandBytes, requestLength, putInt_length]⟩

theorem bcdEncode (n : Int) (mode : Byte) : Statement (.bcdEncode n mode) :=
  ⟨rfl, opcode_in_map rfl, fun _ => by
  simp [encode, Instr.opcode, Instr.operandBytes, requestLength, putInt_length]⟩

theorem readTime : Statement .readTime :=
  ⟨rfl, opcode_in_map rfl, fun _ => by
  simp [encode, Instr.opcode, Instr.operandBytes, requestLength]⟩

theorem writeTime (h : Int) (m : Int) (sec : Int) : Statement (.writeTime h m sec) :=
  ⟨rfl, opcode_in_map rfl, fun _ => by
  simp [encode, Instr.opcode, Instr.operandBytes, requestLength, putInt_length]⟩

theorem writeDate (day : Int) (month : Int) (year : Int) : Statement (.writeDate day month year) :=
  ⟨rfl, opcode_in_map rfl, fun _ => by
  simp [encode, Instr.opcode, Instr.operandBytes, requestLength, putInt_length]⟩

theorem writeDow (n : Int) : Statement (.writeDow n) :=
  ⟨rfl, opcode_in_map rfl, fun _ => by
  simp [encode, Instr.opcode, Instr.operandBytes, requestLength, putInt_length]⟩

theorem readAlarm : Statement .readAlarm :=
  ⟨rfl, opcode_in_map rfl, fun _ => by
  simp [encode, Instr.opcode, Instr.operandBytes, requestLength]⟩

theorem writeAlarm (h : Int) (m : Int) (sec : Int) : Statement (.writeAlarm h m sec) :=
  ⟨rfl, opcode_in_map rfl, fun _ => by
  simp [encode, Instr.opcode, Instr.operandBytes, requestLength, putInt_length]⟩

theorem setAlarmEnabled (enable : Byte) : Statement (.setAlarmEnabled enable) :=
  ⟨rfl, opcode_in_map rfl, fun _ => by
  simp [encode, Instr.opcode, Instr.operandBytes, requestLength]⟩

theorem readStatus : Statement .readStatus :=
  ⟨rfl, opcode_in_map rfl, fun _ => by
  simp [encode, Instr.opcode, Instr.operandBytes, requestLength]⟩

theorem getFloppy (drive : Byte) : Statement (.getFloppy drive) :=
  ⟨rfl, opcode_in_map rfl, fun _ => by
  simp [encode, Instr.opcode, Instr.operandBytes, requestLength]⟩

theorem setFloppy (drive : Byte) (type : Int) : Statement (.setFloppy drive type) :=
  ⟨rfl, opcode_in_map rfl, fun _ => by
  simp [encode, Instr.opcode, Instr.operandBytes, requestLength, putInt_length]⟩

theorem getHarddisk (drive : Byte) : Statement (.getHarddisk drive) :=
  ⟨rfl, opcode_in_map rfl, fun _ => by
  simp [encode, Instr.opcode, Instr.operandBytes, requestLength]⟩

theorem setHarddisk (drive : Byte) (type : Int) : Statement (.setHarddisk drive type) :=
  ⟨rfl, opcode_in_map rfl, fun _ => by
  simp [encode, Instr.opcode, Instr.operandBytes, requestLength, putInt_length]⟩

theorem getEquip : Statement .getEquip :=
  ⟨rfl, opcode_in_map rfl, fun _ => by
  simp [encode, Instr.opcode, Instr.operandBytes, requestLength]⟩

theorem setEquip (field : Byte) (value : Int) : Statement (.setEquip field value) :=
  ⟨rfl, opcode_in_map rfl, fun _ => by
  simp [encode, Instr.opcode, Instr.operandBytes, requestLength, putInt_length]⟩

theorem getMemword (which : Byte) : Statement (.getMemword which) :=
  ⟨rfl, opcode_in_map rfl, fun _ => by
  simp [encode, Instr.opcode, Instr.operandBytes, requestLength]⟩

theorem setMemword (which : Byte) (value : Int) : Statement (.setMemword which value) :=
  ⟨rfl, opcode_in_map rfl, fun _ => by
  simp [encode, Instr.opcode, Instr.operandBytes, requestLength, putInt_length]⟩

theorem getDiag : Statement .getDiag :=
  ⟨rfl, opcode_in_map rfl, fun _ => by
  simp [encode, Instr.opcode, Instr.operandBytes, requestLength]⟩

theorem clearDiag : Statement .clearDiag :=
  ⟨rfl, opcode_in_map rfl, fun _ => by
  simp [encode, Instr.opcode, Instr.operandBytes, requestLength]⟩

theorem getShutdown : Statement .getShutdown :=
  ⟨rfl, opcode_in_map rfl, fun _ => by
  simp [encode, Instr.opcode, Instr.operandBytes, requestLength]⟩

theorem ckCompute : Statement .ckCompute :=
  ⟨rfl, opcode_in_map rfl, fun _ => by
  simp [encode, Instr.opcode, Instr.operandBytes, requestLength]⟩

theorem ckVerify : Statement .ckVerify :=
  ⟨rfl, opcode_in_map rfl, fun _ => by
  simp [encode, Instr.opcode, Instr.operandBytes, requestLength]⟩

theorem ckUpdate : Statement .ckUpdate :=
  ⟨rfl, opcode_in_map rfl, fun _ => by
  simp [encode, Instr.opcode, Instr.operandBytes, requestLength]⟩

theorem latchRead (channel : Byte) : Statement (.latchRead channel) :=
  ⟨rfl, opcode_in_map rfl, fun _ => by
  simp [encode, Instr.opcode, Instr.operandBytes, requestLength]⟩

theorem platformStatus : Statement .platformStatus :=
  ⟨rfl, opcode_in_map rfl, fun _ => by
  simp [encode, Instr.opcode, Instr.operandBytes, requestLength]⟩

theorem exportSnapshot : Statement .exportSnapshot :=
  ⟨rfl, opcode_in_map rfl, fun _ => by
  simp [encode, Instr.opcode, Instr.operandBytes, requestLength]⟩

theorem importSnapshot (data : List Byte) : Statement (.importSnapshot data) :=
  ⟨rfl, opcode_in_map rfl, fun h => by
  have := length_bytes data h
  simp only [encode, Instr.opcode, Instr.operandBytes, requestLength, List.getD_cons_zero, List.getD_cons_succ, List.length_cons]
  simp only [putBytes, leBytes, List.cons_append, List.nil_append, List.getD_cons_zero, List.getD_cons_succ, List.length_cons] at this ⊢
  simp only [BitVec.toNat_ofNat, Nat.reducePow, Nat.reduceMod]
  omega⟩

theorem factoryReset : Statement .factoryReset :=
  ⟨rfl, opcode_in_map rfl, fun _ => by
  simp [encode, Instr.opcode, Instr.operandBytes, requestLength]⟩

theorem diff (a : List Byte) (b : List Byte) : Statement (.diff a b) :=
  ⟨rfl, opcode_in_map rfl, fun h => by
  simp only [Instr.wf, snapOk, Bool.and_eq_true, decide_eq_true_eq] at h
  simp [encode, Instr.opcode, Instr.operandBytes, requestLength, h.1, h.2]⟩

end Sys2Proof.Laws.EncodedForm
end

