-- ==== Sys2Proof/Laws/Procedures.lean ====
section
/-! SUPPORT. What each shared procedure gives: the answer of a store read, reads and writes in sequence, the poll, the checksum. -/

namespace Sys2Proof.Machine

open Sys2Proof.Config

/-! ## The answer of a store read -/

/-- A store read's answer is the device's, in a state that comes along with no read and no write. -/
theorem memRead_answer (a : CellAddr) (s : State) : ∃ d r, ((memRead a).run s).1 = (deviceRead d r).1 ∧ r.idx = a ∧
    r.SameInputs s ∧ (∀ c, r.latch c = s.latch c) ∧ (s.QuietFor 3 → quietDraw d ∧ r.uipNow = s.uipNow) ∧
    (∀ b, s.Steady b 3 → r.x b = s.x b) := by
  let s2 := (barrier (rtcSelect (a.setWidth 8) s).2).2
  have al : Along [] [] s s2 := (Along.rtcSelect [] [] _ s).trans (.barrier [] [] _)
  obtain ⟨ev, htr, hq⟩ := al.events
  have hlen : ev.length = 2 := by
    have : s2.trace = s.trace ++ [.out s.params.rtcAddrPort (a.setWidth 8), .barrier] := by simp [s2]
    rw [this] at htr
    simpa using (congrArg List.length (List.append_cancel_left htr)).symm
  rw [hlen] at hq
  have quiet : s.QuietFor 3 → ∃ d r, quietDraw d ∧ agentTurn s2 = (d, { s2 with script := r }) ∧
      s2.uipNow = s.uipNow ∧ ∀ b, s2.x b = s.x b := fun h => by
    obtain ⟨h1, hu, hx⟩ := hq 1 h
    obtain ⟨d, r, -, hd, hrun, -⟩ := agentTurn_quiet h1
    exact ⟨d, r, hd, hrun, hu, fun b => hx b (by simp) (by simp)⟩
  refine ⟨(agentTurn s2).1, (agentTurn s2).2, rfl, by simp [s2], by constructor <;> simp [s2],
    fun c => by simp [s2], fun h => ?_, fun b h => ?_⟩
  · obtain ⟨d, r, hd, hrun, hu, -⟩ := quiet h
    rw [hrun]
    exact ⟨hd, hu⟩
  · rcases h with h | ⟨h, hset⟩ | h
    · rw [agentTurn_x _ h, al.kept b (by simp) h]
    · rw [agentTurn_x_set _ (timeCell_ne_regC h) (by rwa [al.kept _ (by simp) regB_not_agent]),
        al.frozen (by simp) hset b (by simp) (timeCell_ne_regC h)]
    · obtain ⟨d, r, -, hrun, -, hx⟩ := quiet h
      rw [hrun]
      exact hx b

/-- A store read of a plain cell the clock agent cannot change gives the cell. -/
theorem memRead_steady {a : CellAddr} {s : State} (hr : s.readsPlain a) (h : s.Steady a 3) : ((memRead a).run s).1 = s.x a := by
  obtain ⟨d, r, hv, hi, hs, -, -, hx⟩ := memRead_answer a s
  rw [hv, deviceRead_plain _ _ (by rw [hi]; exact ⟨hs.rtcPresent ▸ hr.1, hr.2⟩), hi]
  exact hx a h

/-- A quiet store read of Register A shows `uip_now` over the stored bits 6:0. -/
theorem memRead_regA_quiet {s : State} (hp : s.rtcPresent = true) (h : s.QuietFor 3) :
    ((memRead REG_A).run s).1 = overBits s.uipNow ((s.x REG_A).extractLsb' 0 7) := by
  obtain ⟨d, r, hv, hi, hs, -, hq, hx⟩ := memRead_answer REG_A s
  rw [hv, deviceRead_regA _ _ (hs.rtcPresent ▸ hp) hi, (hq h).2, hx _ (.inr (.inr h))]

/-- Bits 6:0 of a store read of Register A are the stored ones. -/
theorem memRead_regA_low {s : State} (hp : s.rtcPresent = true) :
    ((memRead REG_A).run s).1 = overBits (uipFlag ((memRead REG_A).run s).1) ((s.x REG_A).extractLsb' 0 7) := by
  obtain ⟨d, r, hv, hi, hs, -, -, hx⟩ := memRead_answer REG_A s
  rw [hv, deviceRead_regA _ _ (hs.rtcPresent ▸ hp) hi, hx _ (.inl (by decide))]
  have key : ∀ (u : Bool) (v : Byte), overBits u (v.extractLsb' 0 7) =
      overBits (uipFlag (overBits u (v.extractLsb' 0 7))) (v.extractLsb' 0 7) := by decide +kernel
  exact key _ _

/-- A store read of Register D shows a VRT draw over bits 6:0, as stored or drawn. -/
theorem memRead_regD {s : State} (hp : s.rtcPresent = true) : ∃ d, ((memRead REG_D).run s).1 = readD d (s.x REG_D) ∧
    (s.QuietFor 3 → quietDraw d) := by
  obtain ⟨d, r, hv, hi, hs, -, hq, hx⟩ := memRead_answer REG_D s
  exact ⟨d, by rw [hv, deviceRead_regD _ _ (hs.rtcPresent ▸ hp) hi, hx _ (.inl (by decide))], fun h => (hq h).1⟩

/-- A quiet store read of Register C gives the byte. -/
theorem memRead_regC_quiet {s : State} (hp : s.rtcPresent = true) (h : s.QuietFor 3) : ((memRead REG_C).run s).1 = s.x REG_C := by
  obtain ⟨d, r, hv, hi, hs, -, hq, hx⟩ := memRead_answer REG_C s
  rw [hv, deviceRead_regC _ _ (hs.rtcPresent ▸ hp) hi, hx _ (.inr (.inr h))]
  simp [readC, (hq h).1.2.1]

/-- A store read of Register C leaves it clear (10_state.md R60). -/
theorem memRead_regC_clears {s : State} (hp : s.rtcPresent = true) : ((memRead REG_C).run s).2.x REG_C = 0x00#8 := by
  simp only [memRead, run_ask, run_request, perform, rtcDataIn, device_bind, device_pure, device_modify, record_x]
  rw [deviceRead_regC _ _ (by simpa using hp) (by simp)]
  simp

/-- Two settings of flags are one. -/
theorem flags_or_flags (x : Byte) (f g : Nibble) :
    x ||| (f.setWidth 8 <<< 4) ||| (g.setWidth 8 <<< 4) = x ||| ((f ||| g).setWidth 8 <<< 4) := by
  have : ∀ f g : Nibble, (f.setWidth 8 <<< 4 : Byte) ||| (g.setWidth 8 <<< 4) = ((f ||| g).setWidth 8 <<< 4) := by
    decide +kernel
  rw [BitVec.or_assoc, this]

/-- Up to the data read of a store read, the clock agent may set flags of Register C (10_state.md R85.3). -/
theorem selected_x_regC (a : CellAddr) (s : State) : ∃ f : Nibble,
    (agentTurn (barrier (rtcSelect (a.setWidth 8) s).2).2).2.x REG_C = s.x REG_C ||| (f.setWidth 8 <<< 4) := by
  obtain ⟨f, h1⟩ := agentTurn_x_regC s
  obtain ⟨g, h2⟩ := agentTurn_x_regC (rtcSelect (a.setWidth 8) s).2
  obtain ⟨k, h3⟩ := agentTurn_x_regC (barrier (rtcSelect (a.setWidth 8) s).2).2
  have e1 : (rtcSelect (a.setWidth 8) s).2.x REG_C = s.x REG_C ||| (f.setWidth 8 <<< 4) := h1
  have e2 : (barrier (rtcSelect (a.setWidth 8) s).2).2.x REG_C =
      (rtcSelect (a.setWidth 8) s).2.x REG_C ||| (g.setWidth 8 <<< 4) := h2
  exact ⟨f ||| g ||| k, by rw [h3, e2, e1, flags_or_flags _ f g, flags_or_flags]⟩

/-- A store read of another cell leaves every flag of Register C set that was. -/
theorem memRead_x_regC {a : CellAddr} (h : a ≠ REG_C) (s : State) : ∃ f : Nibble,
    ((memRead a).run s).2.x REG_C = s.x REG_C ||| (f.setWidth 8 <<< 4) := by
  obtain ⟨f, hf⟩ := selected_x_regC a s
  refine ⟨f, ?_⟩
  simp only [memRead, run_ask, run_request, perform, rtcDataIn, device_bind, device_pure, device_modify, record_x]
  rw [deviceRead_x _ _ (.inr (by simpa using h)), hf]

/-- A store read of Register C gives every flag that was set, and maybe more (10_state.md R81, R85.3). -/
theorem memRead_regC_flags {s : State} (hp : s.rtcPresent = true) :
    s.x REG_C &&& 0xF0#8 &&& ~~~((memRead REG_C).run s).1 = 0x00#8 := by
  obtain ⟨f, hf⟩ := selected_x_regC REG_C s
  have hv : ((memRead REG_C).run s).1 = (deviceRead (agentTurn (barrier (rtcSelect (REG_C.setWidth 8) s).2).2).1
      (agentTurn (barrier (rtcSelect (REG_C.setWidth 8) s).2).2).2).1 := rfl
  rw [hv, deviceRead_regC _ _ (by simpa using hp) (by simp), hf]
  generalize (agentTurn (barrier (rtcSelect (REG_C.setWidth 8) s).2).2).1 = d
  apply BitVec.eq_of_getLsbD_eq
  intro i _
  unfold readC
  split <;> simp only [BitVec.getLsbD_and, BitVec.getLsbD_not, BitVec.getLsbD_or, BitVec.getLsbD_zero] <;>
    cases (s.x REG_C).getLsbD i <;> cases (0xF0#8).getLsbD i <;> simp

/-- A quiet store write leaves in its cell what the device rule says, whoever's cell it is (10_state.md R82). -/
theorem memWrite_x_quiet (a : CellAddr) (v : Byte) (s : State) (hp : s.rtcPresent = true) (h : s.QuietFor 4) :
    ((memWrite a v).run s).2.x a = storedByte s.params.setClearsUie a (s.x a) v := by
  let s2 := (barrier (rtcSelect (a.setWidth 8) s).2).2
  have al : Along [] [] s s2 := (Along.rtcSelect [] [] _ s).trans (.barrier [] [] _)
  obtain ⟨ev, htr, hq⟩ := al.events
  have hlen : ev.length = 2 := by
    have : s2.trace = s.trace ++ [.out s.params.rtcAddrPort (a.setWidth 8), .barrier] := by simp [s2]
    rw [this] at htr
    simpa using (congrArg List.length (List.append_cancel_left htr)).symm
  rw [hlen] at hq
  obtain ⟨h2, -, hx⟩ := hq 2 h
  obtain ⟨d, r, -, -, hrun, h1⟩ := agentTurn_quiet (n := 1) h2
  let s3 := (rtcDataOut v s2).2
  have hx3 : s3.x a = storedByte s.params.setClearsUie a (s.x a) v := by
    show (deviceWrite v (agentTurn s2).2).x a = _
    rw [hrun, deviceWrite_x _ _ _ (by simp [s2, hp]), if_pos (by simp [s2])]
    have := hx a (by simp) (by simp)
    show storedByte s2.params.setClearsUie a (s2.x a) v = _
    rw [this, al.same.params]
  have q3 : s3.QuietFor 1 := by
    show (deviceWrite v (agentTurn s2).2).QuietFor 1
    rw [hrun]
    unfold State.QuietFor at h1 ⊢
    rw [deviceWrite_script]; exact h1
  show (agentTurn s3).2.x a = _
  obtain ⟨d', r', -, -, hrun', -⟩ := agentTurn_quiet (n := 0) q3
  rw [hrun', ← hx3]; rfl

/-! ## Sequences -/

theorem memReadAll_length : ∀ (l : List CellAddr) (s : State), ((memReadAll l).run s).1.length = l.length
  | [], _ => rfl
  | a :: l, s => by simp [memReadAll, memReadAll_length l]

theorem memReadAll_trace : ∀ (l : List CellAddr) (s : State),
    ((memReadAll l).run s).2.trace = s.trace ++ readAllEvents s.params l ((memReadAll l).run s).1
  | [], s => by simp [memReadAll, readAllEvents]
  | a :: l, s => by simp [memReadAll, memReadAll_trace l, readAllEvents]

theorem memReadAll_along {rd wr : List CellAddr} (l : List CellAddr) (h : ∀ a ∈ l, a ∈ rd) (s : State) :
    Along rd wr s ((memReadAll l).run s).2 :=
  (Keeps.readAll (Along.law rd wr s.params []) l h s rfl).2

theorem Along.readsPlain {rd wr : List CellAddr} {s t : State} (h : Along rd wr s t) {a : CellAddr} (hr : s.readsPlain a) :
    t.readsPlain a := ⟨h.same.rtcPresent ▸ hr.1, hr.2⟩

/-- Reads of plain cells that no agent changes give the cells. -/
theorem memReadAll_value : ∀ (l : List CellAddr) (s : State),
    (∀ a ∈ l, s.readsPlain a ∧ agentCell a = false) → ((memReadAll l).run s).1 = l.map s.x
  | [], _, _ => rfl
  | a :: l, s, h => by
    obtain ⟨hr, hn⟩ := h a (by simp)
    have al : Along [a] [] s ((memRead a).run s).2 := .memRead _ _ (by simp) s
    have ih := memReadAll_value l ((memRead a).run s).2 fun b hb =>
      have g := h b (by simp [hb]); ⟨al.readsPlain g.1, g.2⟩
    simp only [memReadAll, run_bind, run_pure, List.map_cons]
    rw [memRead_value a s hn hr, ih]
    congr 1
    exact List.map_congr_left fun b hb => al.kept b (by simp) (h b (by simp [hb])).2

theorem memWriteAll_trace : ∀ (l : List (CellAddr × Byte)) (s : State),
    ((memWriteAll l).run s).2.trace = s.trace ++ writeAllEvents s.params l
  | [], s => by simp [memWriteAll, writeAllEvents]
  | e :: l, s => by simp [memWriteAll, memWriteAll_trace l, writeAllEvents]

theorem memWriteAll_along {rd wr : List CellAddr} (l : List (CellAddr × Byte)) (h : ∀ e ∈ l, e.1 ∈ wr) (s : State) :
    Along rd wr s ((memWriteAll l).run s).2 :=
  (Keeps.writeAll (Along.law rd wr s.params []) l h s rfl).2

theorem memWrite_along {rd wr : List CellAddr} {a : CellAddr} (h : a ∈ wr) (v : Byte) (s : State) :
    Along rd wr s ((memWrite a v).run s).2 := .memWrite rd wr h v s

/-- After writes at distinct cells, each written cell no agent changes holds what its device rule leaves. -/
theorem memWriteAll_x : ∀ (l : List (CellAddr × Byte)) (s : State), s.rtcPresent = true → (l.map Prod.fst).Nodup →
    ∀ e ∈ l, agentCell e.1 = false →
      ((memWriteAll l).run s).2.x e.1 = storedByte s.params.setClearsUie e.1 (s.x e.1) e.2
  | [], _, _, _, _, he, _ => absurd he (by simp)
  | f :: l, s, hp, hn, e, he, ha => by
    rw [List.map_cons, List.nodup_cons] at hn
    simp only [memWriteAll, run_stmt]
    rcases List.mem_cons.mp he with rfl | he
    · have al := memWriteAll_along (rd := []) (wr := l.map Prod.fst) l (fun _ h => List.mem_map_of_mem h) ((memWrite e.1 e.2).run s).2
      rw [al.kept _ hn.1 ha, memWrite_x_same _ _ _ ha hp]
    · have hne : e.1 ≠ f.1 := fun h => hn.1 (h ▸ List.mem_map_of_mem he)
      rw [memWriteAll_x l _ (by simpa using hp) hn.2 e he ha, memWrite_x_other _ _ _ ha hne]
      simp

/-! ## The poll (42_time_alarm.md R211) -/

/-- The poll's bytes and warnings are a run of it, and its events are its reads of Register A. -/
theorem pollUip_run (p : Params) : ∀ (n : Nat) (s : State), s.params = p → ∃ polls, pollRun n polls ((pollUip p n).run s).1 ∧
    ((pollUip p n).run s).2.trace = s.trace ++ pollEvents p polls ∧
    (p.cellMap.regA = REG_A → s.rtcPresent = true → s.QuietFor (pollEvents p polls).length →
      ∀ v ∈ polls, v = overBits s.uipNow ((s.x REG_A).extractLsb' 0 7))
  | 0, s, _ => ⟨[], by simp [pollRun, pollUip], by simp [pollUip, pollEvents], by simp⟩
  | n + 1, s, hs => by
    have al : Along [p.cellMap.regA] [] s ((memRead p.cellMap.regA).run s).2 := .memRead _ _ (by simp) s
    have hlen : ∀ v polls, (pollEvents p (v :: polls)).length = 3 + (pollEvents p polls).length := by
      intro v polls
      simp [pollEvents, readEvents]
      omega
    have hev : p.cellMap.regA = REG_A → ∀ m, s.QuietFor (3 + m) → ((memRead p.cellMap.regA).run s).2.QuietFor m ∧
        ((memRead p.cellMap.regA).run s).2.uipNow = s.uipNow ∧ ((memRead p.cellMap.regA).run s).2.x REG_A = s.x REG_A := by
      intro hA m hq
      obtain ⟨ev, htr, hev⟩ := al.events
      have : ev = readEvents s.params p.cellMap.regA ((memRead p.cellMap.regA).run s).1 := by
        rw [memRead_trace] at htr
        exact (List.append_cancel_left htr).symm
      obtain ⟨h1, h2, h3⟩ := hev m (by simpa [this, readEvents] using hq)
      exact ⟨h1, h2, h3 REG_A (by simp) (fun h => absurd h (by decide))⟩
    have hrun : (pollUip p (n + 1)).run s = (if uipFlag ((memRead p.cellMap.regA).run s).1 then pollUip p n else .pure []).run
        ((memRead p.cellMap.regA).run s).2 := by rw [pollUip, run_bind]
    by_cases hu : uipFlag ((memRead p.cellMap.regA).run s).1 = true
    · obtain ⟨polls, hrun', htr, hval⟩ := pollUip_run p n ((memRead p.cellMap.regA).run s).2 (by simpa using hs)
      rw [if_pos hu] at hrun
      refine ⟨((memRead p.cellMap.regA).run s).1 :: polls, ?_, ?_, fun hA hp hq v hv => ?_⟩
      · rw [hrun]
        rcases hrun' with ⟨l, a, rfl, hl, hall, ha, hw⟩ | ⟨hl, hall, hw⟩
        · exact .inl ⟨((memRead p.cellMap.regA).run s).1 :: l, a, rfl, by simpa using hl, by simpa [hu] using hall, ha, hw⟩
        · exact .inr ⟨by simp [hl], by simpa [hu] using hall, hw⟩
      · rw [hrun, htr, memRead_trace]
        simp [pollEvents, hs]
      · rw [hlen] at hq
        obtain ⟨h1, h2, h3⟩ := hev hA _ hq
        rcases List.mem_cons.mp hv with rfl | hv
        · rw [hA]
          exact memRead_regA_quiet hp (QuietFor_mono hq (by omega))
        · rw [hval hA (by simpa using hp) h1 v hv, h2, h3]
    · rw [if_neg hu, run_pure] at hrun
      refine ⟨[((memRead p.cellMap.regA).run s).1], ?_, ?_, fun hA hp hq v hv => ?_⟩
      · rw [hrun]
        exact .inl ⟨[], _, rfl, by simp, by simp, by simpa using hu, rfl⟩
      · rw [hrun, memRead_trace]
        simp [pollEvents, hs]
      · rw [List.mem_singleton.mp hv, hA]
        exact memRead_regA_quiet hp (QuietFor_mono hq (by simp [pollEvents, readEvents]))

theorem waitUip_run (s : State) : ∃ polls, pollRun s.params.uipPollMax polls ((waitUip s.params).run s).1 ∧
    ((waitUip s.params).run s).2.trace = s.trace ++ pollEvents s.params polls ∧
    (s.params.cellMap.regA = REG_A → s.rtcPresent = true → s.QuietFor (pollEvents s.params polls).length →
      ∀ v ∈ polls, v = overBits s.uipNow ((s.x REG_A).extractLsb' 0 7)) :=
  pollUip_run s.params s.params.uipPollMax s rfl

theorem waitUip_along {rd wr : List CellAddr} (s : State) (h : s.params.cellMap.regA ∈ rd) :
    Along rd wr s ((waitUip s.params).run s).2 :=
  (Keeps.waitUip (Along.law rd wr s.params []) h s rfl).2

/-! ## The checksum (45_checksum.md R330-R337) -/

/-- What the checksum range is to the model: no agent's, no Register's. -/
theorem covered_plain : ∀ a ∈ coveredCells, agentCell a = false ∧ storesPlain a := by decide

theorem covered_readsPlain {s : State} (hp : s.rtcPresent = true) {a : CellAddr} (ha : a ∈ coveredCells) : s.readsPlain a :=
  ⟨hp, (covered_plain a ha).2.1, (covered_plain a ha).2.2.2⟩

theorem mem_covered (a : CellAddr) : a ∈ coveredCells ↔ CK_FIRST ≤ a ∧ a ≤ CK_LAST := by
  have : ∀ a : CellAddr, a ∈ coveredCells ↔ CK_FIRST ≤ a ∧ a ≤ CK_LAST := by decide +kernel
  exact this a

/-- What the named cells are where the maps are the chip's. -/
theorem fitsChip_named {p : Params} (hf : fitsChip p = true) : p.cellMap.regA = REG_A ∧ p.cellMap.regB = REG_B ∧
    p.namedCells.Nodup ∧ (∀ a ∈ p.namedCells, a ≠ REG_C ∧ a ≠ REG_D) ∧ ∀ a, timeCell a = true → a ∈ p.timeCells := by
  simp only [fitsChip, Bool.and_eq_true, beq_iff_eq, decide_eq_true_eq, List.all_eq_true, bne_iff_ne, ne_eq,
    List.contains_iff_mem, and_assoc] at hf
  refine ⟨hf.1, hf.2.1, hf.2.2.1, hf.2.2.2.1, fun a ha => hf.2.2.2.2 a ?_⟩
  simpa [timeCell, or_assoc] using ha

/-- An alarm, century, configuration or checksum cell is a plain cell that no agent changes, where the maps are the chip's. -/
theorem fitsChip_plain {p : Params} (hf : fitsChip p = true) {a : CellAddr}
    (ha : a ∈ p.ckHiAddr :: p.ckLoAddr :: p.centuryAddr :: p.alarmConfigCells) : agentCell a = false ∧ storesPlain a := by
  obtain ⟨hA, hB, hn, hCD, ht⟩ := fitsChip_named hf
  have hr : a ∈ p.ckHiAddr :: p.ckLoAddr :: p.centuryAddr :: (p.timeCells ++ p.alarmConfigCells) := by
    simp only [List.mem_cons, List.mem_append] at ha ⊢
    tauto
  have hm : a ∈ p.namedCells := List.mem_cons_of_mem _ (List.mem_cons_of_mem _ hr)
  obtain ⟨hC, hD⟩ := hCD a hm
  rw [Params.namedCells, List.nodup_cons, List.nodup_cons] at hn
  have hab : a ≠ p.cellMap.regA ∧ a ≠ p.cellMap.regB :=
    ⟨fun h => hn.1 (h ▸ List.mem_cons_of_mem _ hr), fun h => hn.2.1 (h ▸ hr)⟩
  refine ⟨?_, hA ▸ hab.1, hB ▸ hab.2, hC, hD⟩
  have hta : timeCell a = false := Bool.eq_false_iff.mpr fun h => by
    have hn' := hn.2.2
    rw [List.nodup_cons, List.nodup_cons, List.nodup_cons, List.nodup_append] at hn'
    have hx := ht a h
    simp only [List.mem_cons, List.mem_append] at ha hn'
    rcases ha with rfl | rfl | rfl | ha
    · exact hn'.1 (.inr (.inr (.inl hx)))
    · exact hn'.2.1 (.inr (.inl hx))
    · exact hn'.2.2.1 (.inl hx)
    · exact hn'.2.2.2.2.2 a hx a ha rfl
  simp [agentCell, hta, hC]

/-- The checksum cells of a valid instance (45_checksum.md R333). -/
theorem checksum_valid {p : Params} (hv : p.valid = true) : p.ckHiAddr ≠ p.ckLoAddr ∧ p.ckHiAddr ∉ coveredCells ∧
    p.ckLoAddr ∉ coveredCells := by
  have h : p.checksumOk = true := by simp only [Params.valid, Bool.and_eq_true] at hv; exact hv.1.1.1.1.1.1.1.2
  simp only [Params.checksumOk, Bool.and_eq_true, bne_iff_ne, ne_eq, List.all_cons, Bool.not_eq_true', List.all_nil] at h
  obtain ⟨h1, ⟨-, h2⟩, ⟨-, h3⟩, -⟩ := h
  exact ⟨h1, by simpa [mem_covered] using h2, by simpa [mem_covered] using h3⟩

/-- What a checksum update needs of the checksum cells: plain cells that no agent changes, distinct, outside the range. -/
structure ChecksumPlain (p : Params) : Prop where
  ne : p.ckHiAddr ≠ p.ckLoAddr
  hi : agentCell p.ckHiAddr = false ∧ storesPlain p.ckHiAddr
  lo : agentCell p.ckLoAddr = false ∧ storesPlain p.ckLoAddr
  covered : ∀ a ∈ coveredCells, a ∉ checksumCells p

theorem checksumPlain {p : Params} (hv : p.valid = true) (hf : fitsChip p = true) : ChecksumPlain p where
  ne := (checksum_valid hv).1
  hi := fitsChip_plain hf (by simp)
  lo := fitsChip_plain hf (by simp)
  covered a ha h := by
    obtain ⟨-, h1, h2⟩ := checksum_valid hv
    simp only [checksumCells, List.mem_cons, List.not_mem_nil, or_false] at h
    rcases h with rfl | rfl
    · exact h1 ha
    · exact h2 ha

theorem ckSum_run (s : State) :
    ckSum.run s = (sumBytes 0#16 ((memReadAll coveredCells).run s).1, ((memReadAll coveredCells).run s).2) := by
  simp only [ckSum, run_bind, run_pure]

theorem ckUpdate_run (p : Params) (s : State) : (ckUpdate p).run s = ((ckSum.run s).1,
    ((memWrite p.ckLoAddr ((ckSum.run s).1.extractLsb' 0 8)).run
      ((memWrite p.ckHiAddr ((ckSum.run s).1.extractLsb' 8 8)).run (ckSum.run s).2).2).2) := by
  simp only [ckUpdate, run_bind, run_pure]

theorem ckSum_value {s : State} (hp : s.rtcPresent = true) : (ckSum.run s).1 = s.coveredSum := by
  rw [ckSum_run, memReadAll_value _ _ fun a ha => ⟨covered_readsPlain hp ha, (covered_plain a ha).1⟩, State.coveredSum]

theorem ckSum_trace {s : State} (hp : s.rtcPresent = true) :
    (ckSum.run s).2.trace = s.trace ++ readAllEvents s.params coveredCells (coveredCells.map s.x) := by
  rw [ckSum_run, memReadAll_trace, memReadAll_value _ _ fun a ha => ⟨covered_readsPlain hp ha, (covered_plain a ha).1⟩]

theorem ckSum_along {rd wr : List CellAddr} (h : ∀ a ∈ coveredCells, a ∈ rd) (s : State) : Along rd wr s (ckSum.run s).2 := by
  have := memReadAll_along (wr := wr) coveredCells h s
  simpa only [ckSum_run] using this

theorem ckUpdate_along {rd wr : List CellAddr} (h : ∀ a ∈ coveredCells, a ∈ rd) (s : State)
    (hw : ∀ a ∈ checksumCells s.params, a ∈ wr) : Along rd wr s ((ckUpdate s.params).run s).2 :=
  (Keeps.ckUpdate (Along.law rd wr s.params []) h hw s rfl).2

/-- The sum depends on the covered cells alone. -/
theorem coveredSum_congr {s t : State} (h : ∀ a ∈ coveredCells, t.x a = s.x a) : t.coveredSum = s.coveredSum := by
  unfold State.coveredSum
  rw [List.map_congr_left h]

theorem ckUpdate_value (p : Params) {s : State} (hp : s.rtcPresent = true) : ((ckUpdate p).run s).1 = s.coveredSum := by
  rw [ckUpdate_run, ckSum_value hp]

theorem ckUpdate_trace {s : State} (hp : s.rtcPresent = true) :
    ((ckUpdate s.params).run s).2.trace = s.trace ++ s.ckUpdateEvents := by
  have h := (ckSum_along (rd := coveredCells) (wr := []) (fun _ h => h) s).same.params
  rw [ckUpdate_run, memWrite_trace, memWrite_trace, memWrite_params, h, ckSum_trace hp, ckSum_value hp, State.ckUpdateEvents]
  simp only [List.append_assoc]

/-- An update leaves the sum of the covered cells in the checksum cells, and the covered cells alone. -/
theorem ckUpdate_stored {s : State} (hp : s.rtcPresent = true) (hc : ChecksumPlain s.params) :
    ((ckUpdate s.params).run s).2.storedSum = s.coveredSum ∧ ((ckUpdate s.params).run s).2.coveredSum = s.coveredSum := by
  have al1 := ckSum_along (rd := coveredCells) (wr := []) (fun _ h => h) s
  have hp1 : (ckSum.run s).2.rtcPresent = true := by rw [al1.same.rtcPresent, hp]
  have al := ckUpdate_along (rd := coveredCells) (fun _ h => h) s (fun _ h => h)
  have hhi : ((ckUpdate s.params).run s).2.x s.params.ckHiAddr = s.coveredSum.extractLsb' 8 8 := by
    rw [ckUpdate_run, memWrite_x_other _ _ _ hc.hi.1 hc.ne, memWrite_x_same _ _ _ hc.hi.1 hp1,
      storedByte_plain _ _ _ hc.hi.2, ckSum_value hp]
  have hlo : ((ckUpdate s.params).run s).2.x s.params.ckLoAddr = s.coveredSum.extractLsb' 0 8 := by
    rw [ckUpdate_run, memWrite_x_same _ _ _ hc.lo.1 (by simpa using hp1), storedByte_plain _ _ _ hc.lo.2, ckSum_value hp]
  refine ⟨?_, coveredSum_congr fun a ha => al.kept a (hc.covered a ha) (covered_plain a ha).1⟩
  rw [State.storedSum, al.same.params, hhi, hlo]
  generalize s.coveredSum = w
  apply BitVec.eq_of_toNat_eq
  rw [BitVec.toNat_append, ← Nat.shiftLeft_add_eq_or_of_lt (BitVec.isLt _)]
  simp [Nat.shiftLeft_eq, Nat.shiftRight_eq_div_pow]
  omega

/-- The stored checksum, high byte first (45_checksum.md R332). -/
theorem ckStored_value {s : State} (hp : s.rtcPresent = true) (hc : ChecksumPlain s.params) :
    ((ckStored s.params).run s).1 = s.storedSum := by
  have h1 := memRead_value s.params.ckHiAddr s hc.hi.1 ⟨hp, hc.hi.2.1, hc.hi.2.2.2⟩
  have h2 := memRead_value s.params.ckLoAddr ((memRead s.params.ckHiAddr).run s).2 hc.lo.1
    ⟨by simpa using hp, hc.lo.2.1, hc.lo.2.2.2⟩
  rw [memRead_x _ _ hc.lo.1] at h2
  simp only [ckStored, run_bind, run_pure, State.storedSum]
  rw [h1, h2]
  generalize s.x s.params.ckHiAddr = a
  generalize s.x s.params.ckLoAddr = b
  apply BitVec.eq_of_toNat_eq
  have := a.isLt
  have := b.isLt
  rw [BitVec.toNat_append, ← Nat.shiftLeft_add_eq_or_of_lt b.isLt]
  simp [Nat.shiftLeft_eq]
  omega

/-! ## Longer sequences -/

/-- Reads in sequence, after a piece that wrote nothing: each plain cell that stays steady for the whole trace is read as it was. -/
theorem memReadAll_later {rd s} (h0 : s.trace = []) : ∀ (L : List CellAddr) (r : State), Along rd [] s r → (∀ a ∈ L, a ∈ rd) →
    ∀ e ∈ L.zip ((memReadAll L).run r).1, s.readsPlain e.1 →
      s.Steady e.1 ((memReadAll L).run r).2.trace.length → e.2 = s.x e.1
  | [], _, _, _, _, he => by simp [memReadAll] at he
  | a :: L, r, al, hL, e, he => by
    intro hr hst
    have al2 : Along rd [] s ((memRead a).run r).2 := al.trans (.memRead _ _ (hL a (by simp)) r)
    simp only [memReadAll, run_bind, run_pure, List.zip_cons_cons, List.mem_cons] at he hst
    rcases he with rfl | he
    · have hlen : r.trace.length + 3 ≤ ((memReadAll L).run ((memRead a).run r).2).2.trace.length := by
        rw [memReadAll_trace, memRead_trace]; simp [readEvents]
      obtain ⟨h1, h2⟩ := al.steady_later h0 (fun h => absurd h hr.2.2.1) hst hlen
      rw [← h2]
      exact memRead_steady (al.readsPlain hr) h1
    · exact memReadAll_later h0 L _ al2 (fun b hb => hL b (by simp [hb])) e he hr hst

/-- After writes at distinct cells, each written cell holds what its device rule leaves, if it is no agent's or the draws are quiet. -/
theorem memWriteAll_x_quiet : ∀ (l : List (CellAddr × Byte)) (s : State), s.rtcPresent = true → (l.map Prod.fst).Nodup →
    ∀ e ∈ l, agentCell e.1 = false ∨ s.QuietFor (writeAllEvents s.params l).length →
      ((memWriteAll l).run s).2.x e.1 = storedByte s.params.setClearsUie e.1 (s.x e.1) e.2
  | [], _, _, _, _, he => absurd he (by simp)
  | f :: l, s, hp, hn, e, he => by
    intro ha
    rw [List.map_cons, List.nodup_cons] at hn
    have hlen : (writeAllEvents s.params (f :: l)).length = 4 + (writeAllEvents s.params l).length := by
        simp [writeAllEvents, writeEvents]; omega
    have al : Along [] [f.1] s ((memWrite f.1 f.2).run s).2 := .memWrite _ _ (by simp) _ s
    have hlater : ∀ n, s.QuietFor (4 + n) → ((memWrite f.1 f.2).run s).2.QuietFor n ∧ ∀ b, b ≠ f.1 →
        ((memWrite f.1 f.2).run s).2.x b = s.x b := by
      intro n hq
      obtain ⟨ev, htr, h⟩ := al.events
      have : ev.length = 4 := by
        rw [memWrite_trace] at htr
        simpa [writeEvents] using (congrArg List.length (List.append_cancel_left htr)).symm
      rw [this] at h
      obtain ⟨h1, -, h3⟩ := h n hq
      exact ⟨h1, fun b hb => h3 b (by simpa using hb) (by simp)⟩
    rw [hlen] at ha
    simp only [memWriteAll, run_stmt]
    have al2 := memWriteAll_along (rd := []) (wr := l.map Prod.fst) l (fun _ h => List.mem_map_of_mem h) ((memWrite f.1 f.2).run s).2
    rcases List.mem_cons.mp he with rfl | he
    · rcases ha with ha | ha
      · rw [al2.kept _ hn.1 ha, memWrite_x_same _ _ _ ha hp]
      · obtain ⟨h1, -⟩ := hlater _ ha
        obtain ⟨ev, htr, h⟩ := al2.events
        rw [memWriteAll_trace] at htr
        rw [memWrite_params] at htr
        have : ev.length = (writeAllEvents s.params l).length := (congrArg List.length (List.append_cancel_left htr)).symm
        rw [(h 0 (by simpa [this] using h1)).2.2 _ hn.1 (by simp), memWrite_x_quiet _ _ _ hp (QuietFor_mono ha (by omega))]
    · have hne : e.1 ≠ f.1 := fun h => hn.1 (h ▸ List.mem_map_of_mem he)
      have hx : ((memWrite f.1 f.2).run s).2.x e.1 = s.x e.1 := by
        rcases ha with ha | ha
        · exact memWrite_x_other _ _ _ ha hne
        · exact (hlater _ ha).2 _ hne
      rw [memWriteAll_x_quiet l _ (by simpa using hp) hn.2 e he (ha.imp id fun h => by rw [memWrite_params]; exact (hlater _ h).1), hx]
      simp

theorem writeAllEvents_append (p l m) : writeAllEvents p (l ++ m) = writeAllEvents p l ++ writeAllEvents p m := by
  induction l with
  | nil => rfl
  | cons e l ih => simp [writeAllEvents, ih]

theorem memWriteAll_append (l m : List (CellAddr × Byte)) (s : State) :
    ((memWriteAll (l ++ m)).run s) = (memWriteAll m).run ((memWriteAll l).run s).2 := by
  induction l generalizing s with
  | nil => rfl
  | cons e l ih => simp [memWriteAll, ih]

theorem memReadAll_append (l m : List CellAddr) (s : State) :
    (memReadAll (l ++ m)).run s =
      (((memReadAll l).run s).1 ++ ((memReadAll m).run ((memReadAll l).run s).2).1,
        ((memReadAll m).run ((memReadAll l).run s).2).2) := by
  induction l generalizing s with
  | nil => rfl
  | cons a l ih => simp [memReadAll, ih]

/-- The poll and then reads in sequence: the shape of READ_TIME, READ_ALARM and EXPORT_SNAPSHOT. -/
theorem poll_then_read (L : List CellAddr) (rd : List CellAddr) (s : State) (hA : s.params.cellMap.regA ∈ rd)
    (hrd : ∀ a ∈ L, a ∈ rd) (h0 : s.trace = []) : ∃ polls, pollRun s.params.uipPollMax polls ((waitUip s.params).run s).1 ∧
   ((memReadAll L).run ((waitUip s.params).run s).2).2.trace = pollEvents s.params polls ++
     readAllEvents s.params L ((memReadAll L).run ((waitUip s.params).run s).2).1 ∧
   (∀ e ∈ L.zip ((memReadAll L).run ((waitUip s.params).run s).2).1, s.readsPlain e.1 →
      s.Steady e.1 ((memReadAll L).run ((waitUip s.params).run s).2).2.trace.length → e.2 = s.x e.1) ∧
   (s.params.cellMap.regA = REG_A → s.rtcPresent = true →
      s.QuietFor ((memReadAll L).run ((waitUip s.params).run s).2).2.trace.length → ∀ v ∈ polls, v.getLsbD 7 = s.uipNow) := by
  obtain ⟨polls, hp, htr, hq⟩ := waitUip_run s
  rw [h0, List.nil_append] at htr
  have al := waitUip_along (rd := rd) (wr := []) s hA
  have htr' : ((memReadAll L).run ((waitUip s.params).run s).2).2.trace = pollEvents s.params polls ++
      readAllEvents s.params L ((memReadAll L).run ((waitUip s.params).run s).2).1 := by
    rw [memReadAll_trace, htr, al.same.params]
  refine ⟨polls, hp, htr', ?_, ?_⟩
  · exact memReadAll_later h0 L _ al hrd
  · intro hA' hp' hqq v hv'
    rw [hq hA' hp' (QuietFor_mono hqq (by rw [htr']; simp)) v hv', overBits_top]

end Sys2Proof.Machine
end

