-- ==== Sys2Proof/Laws/Transactions.lean ====
section
/-! SUPPORT. One law for each transaction of an operation: a store read, a store write, a checksum update, the nibble channels'
reads and writes, and the factory table. -/

namespace Sys2Proof.Machine

open Sys2Proof.Config

/-- All a store read of cell `a` from `s` to `t` with the answer `v` can do. -/
structure ReadLaw (a : CellAddr) (s : State) (v : Byte) (t : State) : Prop where
  pres : s.rtcPresent = true → t.rtcPresent = true
  params : t.params = s.params
  trace : t.trace = s.trace ++ readEvents s.params a v
  along : Along [a] [] s t
  quiet : ∀ n, s.QuietFor (3 + n) → t.QuietFor n ∧ t.uipNow = s.uipNow ∧ ∀ b, (b = REG_C → a ≠ REG_C) → t.x b = s.x b
  plain : agentCell a = false → s.readsPlain a → v = s.x a
  steady : s.readsPlain a → s.Steady a 3 → v = s.x a
  same : ∀ b, agentCell b = false → t.x b = s.x b
  readsPlain : ∀ b, s.readsPlain b → t.readsPlain b
  regAlow : a = REG_A → s.rtcPresent = true → v.extractLsb' 0 7 = (s.x REG_A).extractLsb' 0 7
  regAtop : a = REG_A → s.rtcPresent = true → s.QuietFor 3 → v.getLsbD 7 = s.uipNow
  regD : a = REG_D → s.rtcPresent = true → s.QuietFor 3 → v.extractLsb' 0 7 = (s.x REG_D).extractLsb' 0 7
  regC : a = REG_C → s.rtcPresent = true → s.QuietFor 3 → v = s.x REG_C
  regCclr : a = REG_C → s.rtcPresent = true → t.x REG_C = 0
  regCflags : a = REG_C → s.rtcPresent = true → s.x REG_C &&& 0xF0#8 &&& ~~~v = 0x00#8
  flagsKept : a ≠ REG_C → ∃ f : Nibble, t.x REG_C = s.x REG_C ||| (f.setWidth 8 <<< 4)

theorem memRead_readLaw (a : CellAddr) (s : State) : ReadLaw a s ((memRead a).run s).1 ((memRead a).run s).2 where
  pres h := by rw [memRead_rtcPresent, h]
  params := memRead_params _ _
  trace := memRead_trace _ _
  along := Along.memRead [a] [] (a := a) (by simp) s
  quiet n hq := by
    obtain ⟨ev, htr, h⟩ := (Along.memRead [a] [] (a := a) (by simp) s).events
    rw [memRead_trace] at htr
    have : ev.length = 3 := by simpa [readEvents] using (congrArg List.length (List.append_cancel_left htr)).symm
    obtain ⟨h1, h2, h3⟩ := h n (by simpa [this] using hq)
    exact ⟨h1, h2, fun b hb => h3 b (by simp) (fun e => by simpa using Ne.symm (hb e))⟩
  plain h1 h2 := memRead_value _ _ h1 h2
  steady h1 h2 := memRead_steady h1 h2
  same b h := memRead_x _ _ h
  readsPlain b h := (Along.memRead [a] [] (a := a) (by simp) s).readsPlain h
  regAlow e hp := by subst e; rw [memRead_regA_low hp]; exact overBits_low _ _
  regAtop e hp hq := by subst e; rw [memRead_regA_quiet hp hq]; exact overBits_top _ _
  regD e hp hq := by
    subst e
    obtain ⟨dd, h1, h2⟩ := memRead_regD hp
    rw [h1, readD, (h2 hq).2.2]; exact overBits_low _ _
  regC e hp hq := by subst e; exact memRead_regC_quiet hp hq
  regCclr e hp := by subst e; exact memRead_regC_clears hp
  regCflags e hp := by subst e; exact memRead_regC_flags hp
  flagsKept h := memRead_x_regC h s

/-- A store read, with its answer and the state after it named. -/
theorem memRead_law (a : CellAddr) (s : State) : ∃ v t, (memRead a).run s = (v, t) ∧ ReadLaw a s v t :=
    ⟨_, _, rfl, memRead_readLaw a s⟩

/-- All a store write of `w` to cell `a` from `s` to `t` can do. -/
structure WriteLaw (a : CellAddr) (w : Byte) (s t : State) : Prop where
  pres : s.rtcPresent = true → t.rtcPresent = true
  params : t.params = s.params
  trace : t.trace = s.trace ++ writeEvents s.params a w
  along : Along [] [a] s t
  same : ∀ b, agentCell b = false → b ≠ a → t.x b = s.x b
  stored : agentCell a = false → s.rtcPresent = true → t.x a = storedByte s.params.setClearsUie a (s.x a) w
  plainStored : agentCell a = false → storesPlain a → s.rtcPresent = true → t.x a = w

/-- A store write, with the state after it named. -/
theorem memWrite_law (a : CellAddr) (w) (s : State) : ∃ t, ((memWrite a w).run s).2 = t ∧ WriteLaw a w s t := ⟨_, rfl, {
  pres h := by rw [memWrite_rtcPresent, h]
  params := memWrite_params _ _ _
  trace := memWrite_trace _ _ _
  along := Along.memWrite [] [a] (a := a) (by simp) w s
  same b h hb := memWrite_x_other _ _ _ h hb
  stored h hp := memWrite_x_same _ _ _ h hp
  plainStored h1 h2 hp := by
    rw [memWrite_x_same _ _ _ h1 hp]; exact storedByte_plain _ _ _ h2 }⟩

/-- All a checksum update from `s` to `t` can do, with an RTC and checksum cells that are plain. -/
structure UpdateLaw (s t : State) : Prop where
  pres : t.rtcPresent = s.rtcPresent
  params : t.params = s.params
  trace : t.trace = s.trace ++ t.ckUpdateEvents
  along : Along coveredCells (checksumCells s.params) s t
  sums : t.storedSum = t.coveredSum
  sum : t.coveredSum = s.coveredSum
  ev : t.ckUpdateEvents = s.ckUpdateEvents
  same : ∀ b, agentCell b = false → b ∉ checksumCells s.params → t.x b = s.x b
  covered : ∀ b ∈ coveredCells, t.x b = s.x b

/-- A checksum update, with its result and the state after it named. -/
theorem ckUpdate_law (s : State) (hp : s.rtcPresent = true) (hc : ChecksumPlain s.params) :
    ∃ v t, (ckUpdate s.params).run s = (v, t) ∧ v = s.coveredSum ∧ UpdateLaw s t := by
  have al := ckUpdate_along (rd := coveredCells) (fun _ h => h) s (fun _ h => h)
  obtain ⟨h1, h2⟩ := ckUpdate_stored hp hc
  have hval := ckUpdate_value s.params hp
  have htr := ckUpdate_trace hp
  rcases e : (ckUpdate s.params).run s with ⟨v, t⟩
  rw [e] at al h1 h2 hval htr
  dsimp only at al h1 h2 hval htr
  have hcov : ∀ b ∈ coveredCells, t.x b = s.x b := fun b hb => al.kept b (hc.covered b hb) (covered_plain b hb).1
  have hev : t.ckUpdateEvents = s.ckUpdateEvents := by
    unfold State.ckUpdateEvents
    rw [h2, List.map_congr_left hcov, al.same.params]
  exact ⟨v, t, rfl, hval, {
    pres := al.same.rtcPresent
    params := al.same.params
    trace := by rw [hev]; exact htr
    along := al
    sums := by rw [h1, h2]
    sum := h2
    ev := hev
    same := fun b hb hc => al.kept b hc hb
    covered := hcov }⟩

/-- All a read of channel `c`'s nibble cell from `s` to `t` with the answer `v` can do (10_state.md R89, R90). -/
structure NibLaw (c : Channel) (a : CellAddr) (s : State) (v : Byte) (t : State) : Prop where
  pres : t.rtcPresent = s.rtcPresent
  params : t.params = s.params
  trace : t.trace = s.trace ++ readEvents s.params a v
  along : Along [] [] s t
  same : ∀ b, agentCell b = false → t.x b = s.x b
  latch : ∀ d, t.latch d = s.latch d
  nibble : ∀ sel nib, s.rtcPresent = true → (s.params.latch c).transport = .store sel nib → agentCell sel = false →
    nibbleAt v (s.params.latch c).nibShift.val =
      if (s.x sel).getLsbD (s.params.latch c).selBit.val then (s.latch c).n1 else (s.latch c).n0

/-- A read of a nibble cell shows the nibble the selector cell chooses (10_state.md R89, R90). -/
theorem memReadNib_nibble (c : Channel) (a : CellAddr) (s : State) {sel nib} (hp : s.rtcPresent = true)
    (ht : (s.params.latch c).transport = .store sel nib) (hs : agentCell sel = false) :
    nibbleAt ((memReadNib c a).run s).1 (s.params.latch c).nibShift.val =
      if (s.x sel).getLsbD (s.params.latch c).selBit.val then (s.latch c).n1 else (s.latch c).n0 := by
  have key : ∀ r : State, r.rtcPresent = true → r.params = s.params → r.latch c = s.latch c → r.x sel = s.x sel →
      nibbleAt (nibDataIn c r).1 (s.params.latch c).nibShift.val =
        if (s.x sel).getLsbD (s.params.latch c).selBit.val then (s.latch c).n1 else (s.latch c).n0 := by
    intro r h1 h2 h3 h4
    simp only [nibDataIn, device_bind, device_get, device_pure, deviceReadNib, agentTurn_rtcPresent, h1, if_true, nibSource,
      agentTurn_params, h2, nibbleAt_nibbleByte, presentedNibble, selectorValue, ht, agentTurn_latch, h3, agentTurn_x _ hs, h4]
  exact key _ (by simpa [perform] using hp) (by simp [perform]) (by simp [perform]) (by simp [perform, hs])

/-- A read of a nibble cell, with its answer and the state after it named. -/
theorem memReadNib_law (c : Channel) (a : CellAddr) (s : State) : ∃ v t, (memReadNib c a).run s = (v, t) ∧ NibLaw c a s v t := by
  have al := Along.memReadNib [] [] c a s
  exact ⟨_, _, rfl, memReadNib_rtcPresent _ _ _, memReadNib_params _ _ _, memReadNib_trace _ _ _, al,
    fun b h => al.kept b (by simp) h, memReadNib_latch c a s, fun _ _ hp ht hs => memReadNib_nibble c a s hp ht hs⟩

/-- A selector byte with one bit forced keeps its other bits (30_encoding.md R150). -/
theorem withBit_bits (v : Byte) (b : Fin 8) (k : Bool) :
    ∀ i < 8, (withBit v b.val k).getLsbD i = if i = b.val then k else v.getLsbD i := by
  have : ∀ (b : Fin 8) (k : Bool) (v : Byte), ∀ i < 8, (withBit v b.val k).getLsbD i = if i = b.val then k else v.getLsbD i := by
    intro b k; cases k <;> revert b <;> decide +kernel
  exact this b k v

theorem withBit_bit (v : Byte) (b : Fin 8) (k : Bool) : (withBit v b.val k).getLsbD b.val = k := by
  rw [withBit_bits v b k b.val b.isLt, if_pos rfl]

/-- A read of a nibble port shows the nibble the selector chooses (10_state.md R89). -/
theorem nibPort_ex (c : Channel) (nib : Port) (s : State) {sel n} (ht : (s.params.latch c).transport = .port sel n) :
    ∃ v t, nibPortIn c nib s = (v, t) ∧ nibbleAt v (s.params.latch c).nibShift.val =
      (if (s.latch c).sel.getLsbD (s.params.latch c).selBit.val then (s.latch c).n1 else (s.latch c).n0) ∧
    t.trace = s.trace ++ [.inp nib v] ∧ t.params = s.params ∧ t.latch c = s.latch c ∧ t.idx = s.idx := by
  refine ⟨(nibPortIn c nib s).1, (nibPortIn c nib s).2, rfl, ?_, nibPortIn_trace _ _ _, nibPortIn_params _ _ _,
    nibPortIn_latch _ _ _ _, nibPortIn_idx _ _ _⟩
  simp only [nibPortIn, device_bind, device_get, device_pure, nibSource]
  rw [agentTurn_params, nibbleAt_nibbleByte]
  simp only [presentedNibble, selectorValue, agentTurn_params, ht, agentTurn_latch]

/-- A write of a selector port and its barrier set the selector and nothing else of the channel (10_state.md R88). -/
theorem selPort_ex (c : Channel) (sel : Port) (v : Byte) (s : State) : ∃ t, (barrier (selPortOut c sel v s).2).2 = t ∧
    t.trace = s.trace ++ [.out sel v, .barrier] ∧ t.params = s.params ∧ t.latch c = { s.latch c with sel := v } ∧
    t.idx = s.idx := ⟨_, rfl, by simp, by simp, by simp, by simp⟩

/-- Looking up ascending keys in an ascending table gives the table. -/
theorem filterMap_table : ∀ (l : List CellAddr) (T : List (CellAddr × Byte)), l.Pairwise (· < ·) →
    (T.map Prod.fst).Pairwise (· < ·) → (∀ e ∈ T, e.1 ∈ l) →
    (l.filterMap fun a => (T.lookup a).map fun v => (a, v)) = T
  | [], [], _, _, _ => rfl
  | [], e :: T, _, _, h => absurd (h e (by simp)) (by simp)
  | c :: l, [], _, _, _ => by simp
  | c :: l, (k, v) :: T, hl, hT, h => by
    rw [List.pairwise_cons] at hl
    rw [List.map_cons, List.pairwise_cons] at hT
    simp only [List.mem_map, forall_exists_index, and_imp, forall_apply_eq_imp_iff₂] at hT
    have hlt : ∀ a b : CellAddr, a < b → a ≠ b := by intro a b h e; subst e; exact absurd h (by simp)
    by_cases hk : k = c
    · subst hk
      have h1 : ∀ e ∈ T, e.1 ∈ l := by
        intro e he
        rcases List.mem_cons.mp (h e (by simp [he])) with g | g
        · exact absurd g.symm (hlt _ _ (hT.1 e he))
        · exact g
      have ih := filterMap_table l T hl.2 hT.2 h1
      rw [List.filterMap_cons]
      simp only [List.lookup_cons_self, Option.map_some]
      congr 1
      rw [← ih]
      apply List.filterMap_congr
      intro a ha
      have : (a == k) = false := by simpa using Ne.symm (hlt _ _ (hl.1 a ha))
      simp only [List.lookup_cons, this, ih]
    · have hkl : k ∈ l := by
        rcases List.mem_cons.mp (h (k, v) (by simp)) with g | g
        · exact absurd g hk
        · exact g
      have hck := hl.1 k hkl
      have hnone : List.lookup c ((k, v) :: T) = none := by
        rw [List.lookup_eq_none_iff]
        intro e he
        rcases List.mem_cons.mp he with rfl | he
        · simpa using hlt _ _ hck
        · have := hT.1 e he
          simpa using hlt _ _ (BitVec.lt_trans hck this)
      rw [List.filterMap_cons, hnone]
      simp only [Option.map_none]
      refine filterMap_table l ((k, v) :: T) hl.2 (by rw [List.map_cons, List.pairwise_cons]; simpa using hT) fun e he => ?_
      rcases List.mem_cons.mp (h e he) with g | g
      · rcases List.mem_cons.mp he with rfl | he'
        · exact absurd g hk
        · have := hT.1 e he'
          rw [g] at this
          exact absurd (BitVec.lt_trans this hck) (by simp)
      · exact g

/-- What a valid instance says of the factory table and the zero ranges (47_snapshot.md R381). -/
theorem valid_parts {p : Params} (hv : p.valid = true) : (p.factoryTable.map Prod.fst).Pairwise (· < ·) ∧
    (∀ e ∈ p.factoryTable, e.1 ≠ REG_C ∧ e.1 ≠ REG_D) ∧ p.zeroRangeOk p.zeroRange0 = true ∧ p.zeroRangeOk p.zeroRange1 = true :=
        by
  simp only [Params.valid, Bool.and_eq_true, decide_eq_true_eq] at hv
  obtain ⟨⟨⟨⟨⟨-, h4⟩, h5⟩, -⟩, h7⟩, h8⟩ := hv.1
  exact ⟨h4, fun e he => by simpa using List.all_eq_true.mp h5 e he, h7, h8⟩

/-- In a valid instance the cell after a memory word's low cell is its high cell (10_state.md R78). -/
theorem memword_adjacent {p : Params} (hv : p.valid = true) :
    p.cfgMap.basememLo + 1#6 = p.cfgMap.basememHi ∧ p.cfgMap.extmemLo + 1#6 = p.cfgMap.extmemHi := by
  simp only [Params.valid, CfgMap.wordsAdjacent, Bool.and_eq_true, beq_iff_eq] at hv
  obtain ⟨hb, he⟩ := hv.2
  exact ⟨by bv_omega, by bv_omega⟩

/-- In a valid instance the table's writes are the table (47_snapshot.md R380). -/
theorem tableWrites_eq {p : Params} (hv : p.valid = true) : tableWrites p = p.factoryTable := by
  have hall : ∀ a : CellAddr, a ∈ allCells := by decide +kernel
  exact filterMap_table _ _ (by decide +kernel) (valid_parts hv).1 fun e _ => hall e.1

end Sys2Proof.Machine
end

