-- ==== Sys2Proof/Machine/Commands.lean ====
section
/-! DEFINITION. The command surface that shapes the core API: what each command expands to (30_encoding.md R158), and the
assembler syntax of a request (R157). No meaning of an operation rests on this file. -/

namespace Sys2Proof.Machine

open Sys2Proof.Config

/-- The commands of PBSPEC §6 that expand to core operations (30_encoding.md R158). -/
inductive Command where
  | time
  | alarm
  | floppy
  | harddisk
  | equipment
  | memory
  | status
  | diag
  | battery
  | platformIdentification
  | setTime (h m sec : Int)
  | setDate (day month year : Int)
  | setDow (n : Int)
  | setAlarm (h m sec : Int)
  | alarmEnable
  | alarmDisable
  | setFloppy (d : Byte) (t : Int)
  | setHarddisk (d : Byte) (t : Int)
  | setEquip (f : Byte) (v : Int)
  | setBasemem (v : Int)
  | write (a v : Int)
  | rawRead (a : Int)
  | factoryReset
  | clearDiag
  | checksumFix
  | save
  | load (file : List Byte)
  | compare (file : List Byte)
deriving DecidableEq, Repr

/-- The operations a command expands to (30_encoding.md R158). `compare` goes on with `compareDiff`, on its first operation's
outcome. -/
def Command.expand : Command → List Instr
  | .time => [.readTime]
  | .alarm => [.readAlarm]
  | .floppy => [.getFloppy 0x41#8, .getFloppy 0x42#8]
  | .harddisk => [.getHarddisk 0x30#8, .getHarddisk 0x31#8]
  | .equipment => [.getEquip]
  | .memory => [.getMemword 0x00#8, .getMemword 0x01#8]
  | .status => [.readStatus]
  | .diag => [.getDiag, .getShutdown]
  | .battery => [.readCell 0x0D]
  | .platformIdentification => [.platformStatus, .latchRead 0x00#8, .latchRead 0x01#8]
  | .setTime h m sec => [.writeTime h m sec]
  | .setDate day month year => [.writeDate day month year]
  | .setDow n => [.writeDow n]
  | .setAlarm h m sec => [.writeAlarm h m sec]
  | .alarmEnable => [.setAlarmEnabled 0x01#8]
  | .alarmDisable => [.setAlarmEnabled 0x00#8]
  | .setFloppy d t => [.setFloppy d t]
  | .setHarddisk d t => [.setHarddisk d t]
  | .setEquip f v => [.setEquip f v]
  | .setBasemem v => [.setMemword 0x00#8 v]
  | .write a v => [.writeCell a v]
  | .rawRead a => [.readCell a]
  | .factoryReset => [.factoryReset]
  | .clearDiag => [.clearDiag]
  | .checksumFix => [.ckUpdate]
  | .save => [.exportSnapshot]
  | .load file => [.importSnapshot file]
  | .compare _ => [.exportSnapshot]

/-- `compare`'s second operation: `DIFF a, b`, with the file as `a` and the exported snapshot as `b` (30_encoding.md R158). DESIGN
CHOICE (log entry 24): the whole file is passed, whatever its length; the spec gives the lengths 64 and 128 for loading only
(47_snapshot.md R388), and a file of another length than 64 makes a request that has no wire form. -/
def compareDiff (file : List Byte) : Result → Option Instr
  | .ok (.snapshot b) _ => some (.diff file b)
  | _ => none

/-- `battery`'s report: bit 7 (VRT) of the byte read (30_encoding.md R158). -/
def batteryReport : Result → Option Bool
  | .ok (.byte v) _ => some (v.getLsbD 7)
  | _ => none

/-! ## Assembler syntax (30_encoding.md R157) -/

/-- A byte string as written: `[b0, b1, ...]`. -/
def asmBytes (l : List Byte) : String := "[" ++ String.intercalate ", " (l.map fun b => toString b.toNat) ++ "]"

/-- A drive selector as written: a quoted character. -/
def asmSel (d : Byte) : String := "'" ++ String.singleton (Char.ofNat d.toNat) ++ "'"

/-- A mnemonic and its operands in wire order, separated by commas. -/
def asmLine (mnemonic : String) (operands : List String) : String :=
  if operands.isEmpty then mnemonic else mnemonic ++ " " ++ String.intercalate ", " operands

/-- A request as written (30_encoding.md R157). -/
def asmText : Instr → String
  | .readCell addr => asmLine "READ_CELL" [toString addr]
  | .writeCell addr value => asmLine "WRITE_CELL" [toString addr, toString value]
  | .bcdDecode raw mode => asmLine "BCD_DECODE" [toString raw, toString mode.toNat]
  | .bcdEncode n mode => asmLine "BCD_ENCODE" [toString n, toString mode.toNat]
  | .readTime => asmLine "READ_TIME" []
  | .writeTime h m sec => asmLine "WRITE_TIME" [toString h, toString m, toString sec]
  | .writeDate day month year => asmLine "WRITE_DATE" [toString day, toString month, toString year]
  | .writeDow n => asmLine "WRITE_DOW" [toString n]
  | .readAlarm => asmLine "READ_ALARM" []
  | .writeAlarm h m sec => asmLine "WRITE_ALARM" [toString h, toString m, toString sec]
  | .setAlarmEnabled enable => asmLine "SET_ALARM_ENABLED" [toString enable.toNat]
  | .readStatus => asmLine "READ_STATUS" []
  | .getFloppy drive => asmLine "GET_FLOPPY" [asmSel drive]
  | .setFloppy drive type => asmLine "SET_FLOPPY" [asmSel drive, toString type]
  | .getHarddisk drive => asmLine "GET_HARDDISK" [asmSel drive]
  | .setHarddisk drive type => asmLine "SET_HARDDISK" [asmSel drive, toString type]
  | .getEquip => asmLine "GET_EQUIP" []
  | .setEquip field value => asmLine "SET_EQUIP" [toString field.toNat, toString value]
  | .getMemword which => asmLine "GET_MEMWORD" [toString which.toNat]
  | .setMemword which value => asmLine "SET_MEMWORD" [toString which.toNat, toString value]
  | .getDiag => asmLine "GET_DIAG" []
  | .clearDiag => asmLine "CLEAR_DIAG" []
  | .getShutdown => asmLine "GET_SHUTDOWN" []
  | .ckCompute => asmLine "CK_COMPUTE" []
  | .ckVerify => asmLine "CK_VERIFY" []
  | .ckUpdate => asmLine "CK_UPDATE" []
  | .latchRead channel => asmLine "LATCH_READ" [toString channel.toNat]
  | .platformStatus => asmLine "PLATFORM_STATUS" []
  | .exportSnapshot => asmLine "EXPORT_SNAPSHOT" []
  | .importSnapshot data => asmLine "IMPORT_SNAPSHOT" [asmBytes data]
  | .factoryReset => asmLine "FACTORY_RESET" []
  | .diff a b => asmLine "DIFF" [asmBytes a, asmBytes b]

end Sys2Proof.Machine
end

