-- ==== Sys2Proof/Tests/Slice0.lean ====
section
/-! SUPPORT. Tests: ill-formed requests, request words written out from 30_encoding.md R141 and R145, the vectors of
95_test_vectors.md on one operation each, the first step after reset, and a witness for the hypotheses of every statement. -/

namespace Sys2Proof.Tests

set_option Elab.async false

open Sys2Proof Sys2Proof.Machine Sys2Proof.Config

/-! ## Helpers -/

/-- No clock step, VRT 1 (95_test_vectors.md section 0). -/
def quiet : Draw := ⟨ClockAct.none, true, none, none, 0xFF#8, 0xA0#8⟩

/-- A clock step that replaces seconds. -/
def tick (v : Byte) : Draw := { quiet with clock := { ClockAct.none with sec := some v } }

/-- A start state of 95_test_vectors.md section 0: `UIP_POLL_MAX` 3, the clock agent at rest. -/
def start (cells : Memory) : State :=
  { State.reset with cells := cells, params := illustrativeParams, script := List.replicate 400 quiet }

/-- The outcome of a step. -/
def result : Host.Outcome State Fault Refusal → Option Result
  | .next t => t.outcome
  | .fault _ => none
  | .refused _ => none

/-- The trace of a step. -/
def trace : Host.Outcome State Fault Refusal → List BusEvent
  | .next t => t.trace
  | .fault _ => []
  | .refused _ => []

/-- Cells after a step. -/
def cellsAfter (l : List CellAddr) : Host.Outcome State Fault Refusal → List Byte
  | .next t => l.map t.x
  | .fault _ => []
  | .refused _ => []

/-! ## Ill-formed requests (30_encoding.md R141) -/

theorem test_int_checks_refuse : Instr.wf (.readCell 2147483648) = false ∧ Instr.wf (.writeCell (-2147483649) 0) = false ∧
    Instr.wf (.writeCell 0 2147483648) = false ∧ Instr.wf (.bcdDecode 2147483648 0#8) = false ∧
    Instr.wf (.bcdEncode (-2147483649) 0#8) = false ∧ Instr.wf (.writeTime 2147483648 0 0) = false ∧
    Instr.wf (.writeTime 0 2147483648 0) = false ∧ Instr.wf (.writeTime 0 0 2147483648) = false ∧
    Instr.wf (.writeDate 2147483648 0 0) = false ∧ Instr.wf (.writeDate 0 2147483648 0) = false ∧
    Instr.wf (.writeDate 0 0 2147483648) = false ∧ Instr.wf (.writeDow 2147483648) = false ∧
    Instr.wf (.writeAlarm (-2147483649) 0 0) = false ∧ Instr.wf (.writeAlarm 0 (-2147483649) 0) = false ∧
    Instr.wf (.writeAlarm 0 0 (-2147483649)) = false ∧ Instr.wf (.setFloppy 0x41#8 2147483648) = false ∧
    Instr.wf (.setHarddisk 0x41#8 2147483648) = false ∧ Instr.wf (.setEquip 0#8 2147483648) = false ∧
    Instr.wf (.setMemword 0#8 2147483648) = false := by decide

theorem test_bytes_check_refuses : Instr.wf (.importSnapshot (List.replicate 65536 0#8)) = false := by
  rw [Instr.wf, bytesOk, List.length_replicate]
  rfl

theorem test_snap_checks_refuse : Instr.wf (.diff (List.replicate 63 0#8) (List.replicate 64 0#8)) = false ∧
    Instr.wf (.diff (List.replicate 64 0#8) (List.replicate 65 0#8)) = false := by decide

theorem test_encoder_refuses : encodeChecked (.readCell 2147483648) = none ∧
    encodeChecked (.readCell (-1)) = some [0x01#8, 0xFF#8, 0xFF#8, 0xFF#8, 0xFF#8] := by decide

/-! ## Request words, written out from the encoding -/

theorem test_decode_store :
    decode [0x01#8, 0x10#8, 0x00#8, 0x00#8, 0x00#8] = .ok (.readCell 0x10, []) ∧
    decode [0x02#8, 0x13#8, 0x00#8, 0x00#8, 0x00#8, 0x01#8, 0x00#8, 0x00#8, 0x00#8] = .ok (.writeCell 0x13 1, []) := by
  decide +kernel

theorem test_decode_codec :
    decode [0x03#8, 0x2C#8, 0x01#8, 0x00#8, 0x00#8, 0x07#8] = .ok (.bcdDecode 300 7#8, []) ∧
    decode [0x04#8, 0xFF#8, 0xFF#8, 0xFF#8, 0xFF#8, 0x01#8] = .ok (.bcdEncode (-1) 1#8, []) := by decide +kernel

theorem test_decode_time :
    decode [0x10#8] = .ok (.readTime, []) ∧
    decode [0x11#8, 0x0D#8, 0x00#8, 0x00#8, 0x00#8, 0x2D#8, 0x00#8, 0x00#8, 0x00#8, 0x1E#8, 0x00#8, 0x00#8, 0x00#8]
      = .ok (.writeTime 13 45 30, []) ∧
    decode [0x12#8, 0x0B#8, 0x00#8, 0x00#8, 0x00#8, 0x0B#8, 0x00#8, 0x00#8, 0x00#8, 0xEA#8, 0x07#8, 0x00#8, 0x00#8]
      = .ok (.writeDate 11 11 2026, []) ∧
    decode [0x13#8, 0x03#8, 0x00#8, 0x00#8, 0x00#8] = .ok (.writeDow 3, []) := by decide +kernel

theorem test_decode_alarm :
    decode [0x14#8] = .ok (.readAlarm, []) ∧
    decode [0x15#8, 0x0C#8, 0x00#8, 0x00#8, 0x00#8, 0x1E#8, 0x00#8, 0x00#8, 0x00#8, 0xFF#8, 0xFF#8, 0xFF#8, 0xFF#8]
      = .ok (.writeAlarm 12 30 (-1), []) ∧
    decode [0x16#8, 0x01#8] = .ok (.setAlarmEnabled 1#8, []) ∧ decode [0x20#8] = .ok (.readStatus, []) := by decide +kernel

theorem test_decode_drives :
    decode [0x30#8, 0x41#8] = .ok (.getFloppy 0x41#8, []) ∧
    decode [0x31#8, 0x41#8, 0x04#8, 0x00#8, 0x00#8, 0x00#8] = .ok (.setFloppy 0x41#8 4, []) ∧
    decode [0x32#8, 0x30#8] = .ok (.getHarddisk 0x30#8, []) ∧
    decode [0x33#8, 0x31#8, 0x0F#8, 0x00#8, 0x00#8, 0x00#8] = .ok (.setHarddisk 0x31#8 15, []) := by decide +kernel

theorem test_decode_fields :
    decode [0x34#8] = .ok (.getEquip, []) ∧
    decode [0x35#8, 0x02#8, 0x02#8, 0x00#8, 0x00#8, 0x00#8] = .ok (.setEquip 2#8 2, []) ∧
    decode [0x36#8, 0x00#8] = .ok (.getMemword 0#8, []) ∧
    decode [0x37#8, 0x00#8, 0x80#8, 0x02#8, 0x00#8, 0x00#8] = .ok (.setMemword 0#8 640, []) ∧
    decode [0x38#8] = .ok (.getDiag, []) ∧ decode [0x39#8] = .ok (.clearDiag, []) ∧
    decode [0x3A#8] = .ok (.getShutdown, []) := by decide +kernel

theorem test_decode_checksum_latch :
    decode [0x40#8] = .ok (.ckCompute, []) ∧ decode [0x41#8] = .ok (.ckVerify, []) ∧ decode [0x42#8] = .ok (.ckUpdate, []) ∧
    decode [0x50#8, 0x01#8] = .ok (.latchRead 1#8, []) ∧ decode [0x51#8] = .ok (.platformStatus, []) := by decide +kernel

theorem test_decode_snapshot :
    decode [0x60#8] = .ok (.exportSnapshot, []) ∧
    decode [0x61#8, 0x02#8, 0x00#8, 0xAA#8, 0xBB#8] = .ok (.importSnapshot [0xAA#8, 0xBB#8], []) ∧
    decode [0x62#8] = .ok (.factoryReset, []) ∧
    decode (0x63#8 :: (List.replicate 64 0x5A#8 ++ List.replicate 64 0xA5#8))
      = .ok (.diff (List.replicate 64 0x5A#8) (List.replicate 64 0xA5#8), []) := by decide +kernel

theorem test_decode_rejects : decode [] = .error .empty ∧ decode [0x05#8] = .error (.unknownOpcode 0x05#8) ∧
    decode [0x01#8, 0x10#8, 0x00#8, 0x00#8] = .error (.cutShort 0x01#8) ∧
    decode [0x61#8, 0x02#8, 0x00#8, 0xAA#8] = .error (.cutShort 0x61#8) := by decide +kernel

theorem test_table_words : decodeTableWord 40 0x1001 = some (.readCell 0x10) ∧
    decodeTableWord 8 0x11 = some (.writeTime 0 0 0) ∧ decodeTableWord 8 0x61 = some (.importSnapshot []) ∧
    decodeTableWord 24 0x000261 = some (.importSnapshot [0#8, 0#8]) ∧ decodeTableWord 8 0x64 = none := by decide +kernel

/-! ## The first step after reset -/

theorem test_first_step_runs : step (State.reset.withFetchWord 8 0x39) =
    exec .clearDiag { State.reset.withFetchWord 8 0x39 with requests := [] } := rfl

theorem test_first_step_rejects : result (step (State.reset.withFetchWord 8 0x05)) = some (.err (.validation .opcode)) := rfl

theorem test_params_valid : illustrativeParams.valid = true := by decide +kernel

theorem test_params_fit : fitsChip illustrativeParams = true := by decide +kernel

/-! ## An operation statement by statement (10_state.md R42), and bus event by bus event -/

/-- One statement is one whole `MemWrite` (44_config_fields.md R313); its four events leave the step index where it is. -/
theorem test_steps_clear_diag :
    (blockStep (accept .clearDiag (start []))).running = some ⟨.clearDiag, 1⟩ ∧
    (blockStep (accept .clearDiag (start []))).trace = writeEvents illustrativeParams 0x0E#6 0x00#8 ∧
    (blockStep^[2] (accept .clearDiag (start []))).outcome = some (.ok .unit []) ∧
    (busStep^[2] (accept .clearDiag (start []))).running = some ⟨.clearDiag, 0⟩ ∧
    (busStep^[2] (accept .clearDiag (start []))).trace = [.out 0x70#16 0x0E#8, .barrier] ∧
    (busStep^[5] (accept .clearDiag (start []))).running = some ⟨.clearDiag, 1⟩ ∧
    (busStep^[6] (accept .clearDiag (start []))).running = none := by decide +kernel

/-- The clock agent may change what a later event of the same operation finds (10_state.md R85); the statement before it, the
check of the address, has no event. -/
theorem test_bus_steps_between :
    (busStep^[1] (accept (.readCell 0) (start []))).trace = [] ∧
    (busStep^[4] (accept (.readCell 0) { start [] with script := [quiet, quiet, tick 0x59#8] })).trace =
      readEvents illustrativeParams SEC 0x59#8 := by decide +kernel

/-- Whether a request takes `n` statements from state `s`. -/
def takesStatements (s : State) (i : Instr) (n : Nat) : Bool :=
  (blockStep^[n] (accept i s)).running.isNone && (blockStep^[n - 1] (accept i s)).running.isSome

/-- The statements of the pseudocodes, counted there: 40_register_store.md R175, R177; 41_bcd_codec.md R194, R195; 42_time_alarm.md
R215, R225, R228, R231, R235, R241, R245; 43_status.md R260. -/
theorem test_statement_counts :
    takesStatements (start []) (.readCell 0) 2 ∧ takesStatements (start []) (.writeCell 0 0) 4 ∧
    takesStatements (start []) (.bcdDecode 0 0) 3 ∧ takesStatements (start []) (.bcdEncode 0 0) 4 ∧
    takesStatements (start []) .readTime 13 ∧ takesStatements (start []) (.writeTime 0 0 0) 11 ∧
    takesStatements (start []) (.writeDate 1 1 2000) 11 ∧ takesStatements (start []) (.writeDow 1) 6 ∧
    takesStatements (start []) .readAlarm 8 ∧ takesStatements (start []) (.writeAlarm 0 0 0) 11 ∧
    takesStatements (start []) (.setAlarmEnabled 0) 4 ∧ takesStatements (start []) .readStatus 5 := by decide +kernel

/-- The same: 44_config_fields.md R285, R290 (type 0, and type 15 with one read more), R296, R305, R312, R317; 46_amstrad_latch.md
R351, R357. -/
theorem test_statement_counts_config :
    takesStatements (start []) (.getFloppy 0x41) 4 ∧ takesStatements (start []) (.getHarddisk 0x41) 5 ∧
    takesStatements (start [(0x12, 0x0F#8)]) (.getHarddisk 0x42) 6 ∧ takesStatements (start []) .getEquip 2 ∧
    takesStatements (start []) (.getMemword 0) 5 ∧ takesStatements (start []) .getDiag 2 ∧
    takesStatements (start []) .getShutdown 2 ∧ takesStatements (start []) (.latchRead 0) 13 ∧
    takesStatements (start []) .platformStatus 5 := by decide +kernel

/-- The same: 44_config_fields.md R287, R299, R307; 45_checksum.md R331, R334, R337. -/
theorem test_statement_counts_checksum :
    takesStatements (start []) (.setFloppy 0x41 0) 7 ∧ takesStatements (start []) (.setEquip 2 0) 9 ∧
    takesStatements (start []) (.setMemword 0 0) 7 ∧ takesStatements (start []) .ckCompute 1 ∧
    takesStatements (start []) .ckVerify 5 ∧ takesStatements (start []) .ckUpdate 4 := by decide +kernel

/-- A refused check is the last statement; without port access the first bus primitive is: of LATCH_READ the fifth statement
(60_exceptions.md R403, R404, 46_amstrad_latch.md R351). -/
theorem test_statement_raises :
    (blockStep^[2] (accept (.writeTime 0 60 0) (start []))).outcome = some (.err (.validation .m)) ∧
    (blockStep^[4] (accept (.latchRead 0) { start [] with ioPermitted := false })).running = some ⟨.latchRead 0, 4⟩ ∧
    (blockStep^[5] (accept (.latchRead 0) { start [] with ioPermitted := false })).outcome = some (.err .portAccessDenied) := by
  decide +kernel

/-! ## The store (95_test_vectors.md section 2) -/

theorem test_V1_V4_read_cell :
    trace (exec (.readCell 0x10) (start [(0x10, 0x40#8)])) = readEvents illustrativeParams 0x10#6 0x40#8 ∧
    result (exec (.readCell 12) (start [(0x0C, 0xD0#8)])) = some (.ok (.byte 0xD0#8) []) ∧
    cellsAfter [REG_C] (exec (.readCell 12) (start [(0x0C, 0xD0#8)])) = [0x00#8] := by decide +kernel

theorem test_V5_V6_read_cell :
    result (exec (.readCell 13) (start [])) = some (.ok (.byte 0x80#8) []) ∧
    result (exec (.readCell 10) { start [(0x0A, 0x26#8)] with uipNow := true }) = some (.ok (.byte 0xA6#8) []) := by
  decide +kernel

theorem test_V7_V8_V9_write_cell :
    cellsAfter [0x14#6, 0x2E#6, 0x2F#6] (exec (.writeCell 0x14 0x41) (start [])) = [0x41#8, 0x00#8, 0x00#8] ∧
    cellsAfter [REG_D] (exec (.writeCell 13 0xFF) (start [])) = [0x00#8] ∧
    cellsAfter [REG_A] (exec (.writeCell 10 0xA0) (start [(0x0A, 0x26#8)])) = [0x20#8] := by decide +kernel

theorem test_V12_set_clears_uie :
    cellsAfter [REG_B] (exec (.writeCell 11 0x92)
      { start [(0x0B, 0x02#8)] with params := { illustrativeParams with setClearsUie := true } }) = [0x82#8] := by decide +kernel

theorem test_V13_port_access_denied :
    exec (.readCell 0) { start [] with ioPermitted := false } =
      .next (State.failed { start [] with ioPermitted := false } .portAccessDenied) := rfl

/-! ## The codec (section 3) -/

theorem test_V24_V26_bcd_decode : result (exec (.bcdDecode 0x1A 0#8) (start [])) = some (.ok (.integer 20) []) ∧
    result (exec (.bcdDecode 0xFF 0#8) (start [])) = some (.ok (.integer 165) []) ∧
    result (exec (.bcdDecode 300 7#8) (start [])) = some (.err (.validation .raw)) := by decide +kernel

theorem test_V34_V39_bcd_encode : result (exec (.bcdEncode 99 0#8) (start [])) = some (.ok (.byte 0x99#8) []) ∧
    result (exec (.bcdEncode 255 1#8) (start [])) = some (.ok (.byte 0xFF#8) []) ∧
    result (exec (.bcdEncode 100 2#8) (start [])) = some (.err (.validation .mode)) := by decide +kernel

/-! ## Time and alarm (section 4) -/

/-- The read_hour table of section 4.1. -/
theorem test_read_hour_table : readHour 0x12#8 .bcd false = 0 ∧ readHour 0x92#8 .bcd false = 12 ∧
    readHour 0x91#8 .bcd false = 23 ∧ readHour 0x80#8 .bcd false = 12 ∧ readHour 0x13#8 .bcd false = 13 ∧
    readHour 0x93#8 .bcd false = 13 ∧ readHour 0x8C#8 .bin false = 12 ∧ readHour 0x8B#8 .bin false = 23 ∧
    readHour 0x92#8 .bcd true = 92 ∧ readHour 0x17#8 .bin true = 23 := by decide +kernel

/-- The write_hour table of section 4.1. -/
theorem test_write_hour_table : writeHour 0 .bcd false = 0x12#8 ∧ writeHour 11 .bcd false = 0x11#8 ∧
    writeHour 12 .bcd false = 0x92#8 ∧ writeHour 13 .bcd false = 0x81#8 ∧ writeHour 23 .bcd false = 0x91#8 ∧
    writeHour 0 .bin false = 0x0C#8 ∧ writeHour 23 .bin false = 0x8B#8 ∧ writeHour 23 .bcd true = 0x23#8 := by decide +kernel

/-- The cells of V40. -/
def v40 : Memory :=
  [(0x00, 0x30#8), (0x02, 0x45#8), (0x04, 0x13#8), (0x06, 0x03#8), (0x07, 0x11#8), (0x08, 0x11#8), (0x09, 0x26#8),
   (0x0A, 0x26#8), (0x0B, 0x02#8), (0x32, 0x20#8)]

/-- The record of V40. -/
def v40Record : TimeRecord := ⟨30, 45, 13, .known 3, 11, .known 11, 26, 20, true, false⟩

theorem test_V40_V41_read_time : result (exec .readTime (start v40)) = some (.ok (.time v40Record) []) ∧
    (trace (exec .readTime (start v40))).length = 30 ∧
    result (exec .readTime { start v40 with uipNow := true }) = some (.ok (.time v40Record) [.uipTimeout]) := by decide +kernel

theorem test_V46_read_time_clock_step :
    result (exec .readTime { start v40 with script := List.replicate 9 quiet ++ tick 0x31#8 :: List.replicate 20 quiet })
      = some (.ok (.time v40Record) []) ∧
    cellsAfter [SEC] (exec .readTime { start v40 with script := List.replicate 9 quiet ++ tick 0x31#8 :: List.replicate 20 quiet })
      = [0x31#8] := by decide +kernel

theorem test_V47_V49a_write_time :
    trace (exec (.writeTime 13 45 30) (start [(0x0B, 0x02#8)])) = Spec.bracket illustrativeParams 0x02#8
      [(SEC, 0x30#8), (MIN, 0x45#8), (HOUR, 0x13#8)] ∧
    cellsAfter [SEC, MIN, HOUR, REG_B] (exec (.writeTime 1 2 3) (start [(0x0B, 0x82#8)])) = [0x03#8, 0x02#8, 0x01#8, 0x02#8] := by
  decide +kernel

theorem test_V49g_write_date :
    cellsAfter [DOM, MONTH, YEAR, 0x32#6, REG_B] (exec (.writeDate 31 12 1999) (start [(0x0B, 0x06#8)]))
      = [0x1F#8, 0x0C#8, 0x63#8, 0x13#8, 0x06#8] ∧
    result (exec (.writeDate 0 13 1979) (start [])) = some (.err (.validation .day)) := by decide +kernel

theorem test_V49m_write_dow : cellsAfter [DOW] (exec (.writeDow 7) (start [(0x0B, 0x06#8)])) = [0x07#8] ∧
    result (exec (.writeDow 8) (start [])) = some (.err (.validation .n)) := by decide +kernel

theorem test_V49q_write_alarm : cellsAfter [0x01#6, 0x03#6, 0x05#6] (exec (.writeAlarm 12 30 (-1)) (start []))
      = [0xC0#8, 0x30#8, 0x92#8] ∧
    result (exec (.writeAlarm 0 (-1) 60) (start [])) = some (.err (.validation .s)) := by decide +kernel

theorem test_V49u_read_alarm : result (exec .readAlarm (start [(0x03, 0xBF#8), (0x05, 0xFF#8), (0x0B, 0x02#8)]))
    = some (.ok (.alarm ⟨.wildcard, .value 125, .value 0⟩) []) := by decide +kernel

theorem test_V49x_set_alarm_enabled : cellsAfter [REG_B] (exec (.setAlarmEnabled 0#8) (start [(0x0B, 0xA2#8)])) = [0x82#8] ∧
    cellsAfter [REG_B] (exec (.setAlarmEnabled 1#8) (start [(0x0B, 0x02#8)])) = [0x22#8] := by decide +kernel

/-! ## Status (section 5) -/

theorem test_V49z_read_status :
    result (exec .readStatus (start [(0x0A, 0x26#8), (0x0B, 0x02#8), (0x0C, 0xD0#8)])) = some (.ok (.status {
      regA := ⟨false, 2#3, .tb32768Hz, 6#4, some 1024⟩
      regB := ⟨false, false, false, false, false, false, true, false⟩
      regC := ⟨true, true, false, true⟩
      regD := ⟨true⟩
      rawA := 0x26#8, rawB := 0x02#8, rawC := 0xD0#8, rawD := 0x80#8 }) []) := by decide +kernel

theorem test_V49zb_rates : (decodeA 0x23#8).rateHz = some 8192 ∧ (decodeA 0x20#8).rateHz = none ∧
    (decodeA 0x6F#8).rateHz = some 2 ∧ (decodeA 0x6F#8).dvName = .dividerReset := by decide +kernel

/-! ## Configuration (section 6) -/

theorem test_V70_V72_get_floppy : result (exec (.getFloppy 0x41#8) (start [(0x10, 0x40#8)])) = some (.ok (.floppyType (.known 4)) []) ∧
    result (exec (.getFloppy 0x31#8) (start [(0x10, 0x40#8)])) = some (.ok (.floppyType (.known 0)) []) ∧
    result (exec (.getFloppy 0x41#8) (start [(0x10, 0x7F#8)])) = some (.ok (.floppyType (.unknown 7)) []) := by decide +kernel

theorem test_V75_set_floppy : cellsAfter [0x10#6, 0x2E#6, 0x2F#6] (exec (.setFloppy 0x42#8 3) (start [(0x10, 0x40#8)]))
      = [0x43#8, 0x00#8, 0x43#8] ∧
    result (exec (.setFloppy 0x43#8 9) (start [])) = some (.err (.validation .drive)) := by decide +kernel

theorem test_V79_V80_get_harddisk :
    result (exec (.getHarddisk 0x30#8) (start [(0x12, 0xF2#8), (0x19, 0x2F#8)])) = some (.ok (.hardDisk ⟨15, some 0x2F#8⟩) []) ∧
    result (exec (.getHarddisk 0x42#8) (start [(0x12, 0xF2#8)])) = some (.ok (.hardDisk ⟨2, none⟩) []) := by decide +kernel

theorem test_V81_set_harddisk : cellsAfter [0x12#6, 0x19#6, 0x2F#6] (exec (.setHarddisk 0x30#8 15) (start []))
    = [0xF0#8, 0x00#8, 0xF0#8] := by decide +kernel

theorem test_V83_V85_get_equip : result (exec .getEquip (start [(0x14, 0x41#8)])) = some (.ok (.equip ⟨true, false, 0#2, 2, 0x41#8⟩) []) ∧
    result (exec .getEquip (start [(0x14, 0xC0#8)])) = some (.ok (.equip ⟨false, false, 0#2, 0, 0xC0#8⟩) []) := by decide +kernel

theorem test_V88_V89_set_equip : cellsAfter [0x14#6] (exec (.setEquip 2#8 0) (start [(0x14, 0x73#8)])) = [0x32#8] ∧
    cellsAfter [0x14#6] (exec (.setEquip 2#8 4) (start [(0x14, 0x0C#8)])) = [0xCD#8] := by decide +kernel

theorem test_V93_get_memword : result (exec (.getMemword 0#8) (start [(0x15, 0x80#8), (0x16, 0x02#8)]))
    = some (.ok (.word 640#16) []) := by decide +kernel

theorem test_V94_set_memword : cellsAfter [0x17#6, 0x18#6, 0x2E#6, 0x2F#6] (exec (.setMemword 1#8 65535) (start []))
    = [0xFF#8, 0xFF#8, 0x01#8, 0xFE#8] := by decide +kernel

theorem test_V97_V98_diag :
    result (exec .getDiag (start [(0x0E, 0x40#8)]))
      = some (.ok (.diag ⟨0x40#8, [false, false, false, false, false, false, true, false], false⟩) []) ∧
    trace (exec .clearDiag (start [(0x0E, 0xC0#8)])) = writeEvents illustrativeParams 0x0E#6 0x00#8 := by decide +kernel

theorem test_V99_V101_get_shutdown :
    result (exec .getShutdown (start [])) = some (.ok (.shutdown (.known 0x00#8 "soft reset or unexpected shutdown")) []) ∧
    result (exec .getShutdown (start [(0x0F, 0x0B#8)])) = some (.ok (.shutdown (.raw 0x0B#8)) []) := by decide +kernel

/-! ## The checksum (section 7) -/

theorem test_V111_ck_compute :
    result (exec .ckCompute (start ((List.range' 0x10 30).map fun k => (k, 0xFF#8)))) = some (.ok (.word 0x1DE2#16) []) := by
  decide +kernel

theorem test_V114_V115_ck_verify :
    result (exec .ckVerify (start [(0x10, 0x40#8), (0x14, 0x41#8), (0x2F, 0x81#8)])) = some (.ok (.bool true) []) ∧
    result (exec .ckVerify (start [(0x10, 0x40#8), (0x14, 0x41#8), (0x2E, 0x81#8)]))
      = some (.ok (.bool false) [.checksumMismatch]) := by decide +kernel

theorem test_V116_ck_update : result (exec .ckUpdate (start [(0x10, 0x40#8), (0x14, 0x41#8)])) = some (.ok (.word 0x0081#16) []) ∧
    cellsAfter [0x2E#6, 0x2F#6] (exec .ckUpdate (start [(0x10, 0x40#8), (0x14, 0x41#8)])) = [0x00#8, 0x81#8] := by
  decide +kernel

/-! ## The latch (section 8) -/

theorem test_V120_latch_read :
    result (exec (.latchRead 0#8) { start [] with latch0 := ⟨0x51#8, 0x2#4, 0x6#4⟩ }) = some (.ok (.byte 0x62#8) []) ∧
    trace (exec (.latchRead 0#8) { start [] with latch0 := ⟨0x51#8, 0x2#4, 0x6#4⟩ }) =
      [.inp 0x200#16 0x51#8, .out 0x200#16 0x59#8, .barrier, .inp 0x201#16 0xA6#8, .out 0x200#16 0x51#8, .barrier,
       .inp 0x201#16 0xA2#8, .out 0x200#16 0x51#8, .barrier] := by decide +kernel

/-- V122 over the STORE transport: the first read with the selector bit 0, the nibbles in bits 7:4. -/
theorem test_V122_latch_read_store :
    result (exec (.latchRead 1#8) { start [(0x3E, 0x51#8)] with
      latch1 := ⟨0x00#8, 0x2#4, 0x6#4⟩
      params := { illustrativeParams with latch1 := ⟨.store 0x3E#6 0x3F#6, 3, false, true, 4⟩ } })
      = some (.ok (.byte 0x26#8) []) := by decide +kernel

/-- Both channels over one nibble cell, at shifts 0 and 4 (46_amstrad_latch.md R350, R353). -/
theorem test_latch_read_shared_cell :
    (fun s : State => (result (exec (.latchRead 0#8) s), result (exec (.latchRead 1#8) s))) { start [] with
      latch0 := ⟨0x00#8, 0x2#4, 0x6#4⟩
      latch1 := ⟨0x00#8, 0x3#4, 0x7#4⟩
      params := { illustrativeParams with
        latch0 := ⟨.store 0x3D#6 0x3F#6, 3, true, true, 0⟩
        latch1 := ⟨.store 0x3E#6 0x3F#6, 3, true, true, 4⟩ } }
      = (some (.ok (.byte 0x62#8) []), some (.ok (.byte 0x73#8) [])) := by decide +kernel

theorem test_V125_V126_platform_status :
    result (exec .platformStatus { start [] with plat := 0x43#8 })
      = some (.ok (.platform ⟨.known 3 "", .unknown 1, false, 0x43#8⟩) []) ∧
    result (exec .platformStatus { start [] with plat := 0xFF#8 })
      = some (.ok (.platform ⟨.known 7 "", .known 3 "", true, 0xFF#8⟩) []) := by decide +kernel

/-! ## Snapshots (section 9) -/

/-- The store of V51, in canonical form: cell `i` holds `i`, C = 0xD0, D = 0. -/
def v51 : Memory := ((List.range' 1 63).filter fun k => k != 13).map fun k => (k, if k = 12 then 0xD0#8 else BitVec.ofNat 8 k)

/-- V51's snapshot. -/
def snap51 : List Byte :=
  (List.range 64).map fun k =>
    if k = 12 then 0xD0#8 else if k = 13 then 0x80#8 else BitVec.ofNat 8 k

/-- Cell 63, the nibble cell of the illustrative STORE channel, among them: an export reads the store. -/
theorem test_V51_export :
    result (exec .exportSnapshot (start v51)) = some (.ok (.snapshot snap51) []) ∧
    cellsAfter [REG_C] (exec .exportSnapshot (start v51)) = [0x00#8] := by decide +kernel

theorem test_V52_V53_import :
    result (exec (.importSnapshot (List.replicate 63 0#8)) (start [])) = some (.err (.snapshotSize 63)) ∧
    cellsAfter [REG_B, MIN, REG_D, 0x3F#6] (exec (.importSnapshot (List.replicate 64 0x86#8)) (start [(0x0B, 0x02#8)]))
      = [0x06#8, 0x86#8, 0x00#8, 0x86#8] := by decide +kernel

theorem test_V60_factory_reset :
    (trace (exec .factoryReset (start []))).length = 330 ∧
    cellsAfter [YEAR, REG_A, 0x10#6, 0x1B#6, 0x2E#6, 0x2F#6] (exec .factoryReset (start [(0x1B, 0xEE#8)]))
      = [0x80#8, 0x26#8, 0x40#8, 0x00#8, 0x00#8, 0xC3#8] := by decide +kernel

theorem test_V56_diff :
    result (exec (.diff (List.replicate 64 0#8)
      (List.replicate 16 0#8 ++ 0x40#8 :: (List.replicate 30 0#8 ++ 0x40#8 :: List.replicate 16 0#8))) (start []))
      = some (.ok (.diff [⟨0x10, 0x00#8, 0x40#8⟩, ⟨0x2F, 0x00#8, 0x40#8⟩]) []) := by decide +kernel

/-! ## Another launch (00_scope.md R14): the same operations with other maps, ports and table -/

/-- Seconds and minutes exchanged, and the diagnostic and shutdown cells; the checksum at 0x3A and 0x3B, the RTC at 0x74 and 0x75, one
shutdown code. -/
def otherParams : Params :=
  { illustrativeParams with
    cellMap := { defaultCellMap with sec := 0x02#6, min := 0x00#6 }
    cfgMap := { defaultCfgMap with diag := 0x0F#6, shutdown := 0x0E#6 }
    ckHiAddr := 0x3A#6
    ckLoAddr := 0x3B#6
    rtcAddrPort := 0x74#16
    rtcDataPort := 0x75#16
    shutdownTable := [(0x0B#8, "eleven")]
    zeroRange1 := ⟨0x33#6, 0x39#6⟩ }

theorem test_other_params_valid : otherParams.valid = true ∧ fitsChip otherParams = true := by decide +kernel

theorem test_other_maps :
    cellsAfter [0x00#6, 0x02#6] (exec (.writeTime 1 2 3) { start [(0x0B, 0x02#8)] with params := otherParams })
      = [0x02#8, 0x03#8] ∧
    cellsAfter [0x2E#6, 0x2F#6, 0x3A#6, 0x3B#6] (exec .ckUpdate { start [(0x10, 0x40#8)] with params := otherParams })
      = [0x00#8, 0x00#8, 0x00#8, 0x40#8] := by decide +kernel

theorem test_other_ports_and_table :
    trace (exec .getShutdown { start [(0x0E, 0x0B#8)] with params := otherParams })
      = [.out 0x74#16 0x0E#8, .barrier, .inp 0x75#16 0x0B#8] ∧
    result (exec .getShutdown { start [(0x0E, 0x0B#8)] with params := otherParams })
      = some (.ok (.shutdown (.known 0x0B#8 "eleven")) []) ∧
    result (exec .getShutdown { start [] with params := otherParams }) = some (.ok (.shutdown (.raw 0x00#8)) []) := by
  decide +kernel

/-- The checksum cells of a valid instance are distinct and outside the range (45_checksum.md R333). -/
theorem test_checksum_constraint : { illustrativeParams with ckHiAddr := 0x30#6, ckLoAddr := 0x31#6 }.valid = true ∧
    { illustrativeParams with ckHiAddr := 0x2F#6 }.valid = false ∧ { illustrativeParams with ckHiAddr := 0x2D#6 }.valid = false ∧
    { illustrativeParams with ckLoAddr := 0x0C#6 }.valid = false := by decide +kernel

/-- The base memory word moved to 0x1B and 0x1C. -/
def movedWord : CfgMap := { defaultCfgMap with basememLo := 0x1B#6, basememHi := 0x1C#6 }

/-- A memory word's cells are adjacent, the high byte's the next one, wherever the map puts them: no map parts them or wraps
(10_state.md R78, 20_memory.md R101). -/
theorem test_words_adjacent : movedWord.wordsAdjacent = true ∧
    { defaultCfgMap with basememHi := 0x14#6 }.wordsAdjacent = false ∧
    { defaultCfgMap with extmemLo := 0x3F#6, extmemHi := 0x00#6 }.wordsAdjacent = false ∧
    result (exec (.getMemword 0#8) { start [(0x1B, 0x80#8), (0x1C, 0x02#8)] with params :=
      { illustrativeParams with cfgMap := movedWord } }) = some (.ok (.word 640#16) []) := by decide +kernel

/-! ## Witnesses: a state and operands that meet the hypotheses of each statement, clause by clause at the ends of a range -/

/-- A state with one request pending. -/
def pending (b : List Byte) : State := { start [] with requests := [b] }

/-- What most statements ask of a state. -/
theorem start_state (cells : Memory) : (start cells).ioPermitted = true ∧ (start cells).rtcPresent = true ∧
    (start cells).params.valid = true ∧ fitsChip (start cells).params = true ∧ (start cells).running = none :=
  ⟨rfl, rfl, test_params_valid, test_params_fit, rfl⟩

theorem witness_DecodeOfEncode : Instr.wf (.writeCell (-2147483648) 2147483647) = true ∧
    Instr.wf (.importSnapshot []) = true ∧ Instr.wf (.diff (List.replicate 64 0#8) (List.replicate 64 0#8)) = true := by decide

theorem witness_EncodeOfDecode : decode [0x42#8, 0x99#8] = .ok (.ckUpdate, [0x99#8]) := by decide +kernel

theorem witness_InvalidRequests :
    (0x00#8 ∉ Spec.operationCodes ∧ 0x05#8 ∉ Spec.operationCodes ∧ 0xFF#8 ∉ Spec.operationCodes) ∧
    (Instr.wf (.readCell 16) = true ∧ [0x01#8] <+: encode (.readCell 16) ∧ [0x01#8] ≠ encode (.readCell 16)) ∧
    ((pending [0x64#8]).running = none ∧ (pending [0x64#8]).requests = [0x64#8] :: [] ∧
      decode [0x64#8] = .error (.unknownOpcode 0x64#8)) := by decide +kernel

theorem witness_StepRunsRequest : (pending [0x42#8]).running = none ∧ (pending [0x42#8]).requests = [0x42#8] :: [] ∧
    decode [0x42#8] = .ok (.ckUpdate, []) := by decide +kernel

/-- An operation of four bus events: its points 0 and 4 are the ends of the range. -/
theorem witness_BusStepsRunOperation : ∃ t, exec .clearDiag (start []) = .next t ∧ t.trace.length = 4 := ⟨_, rfl, by decide +kernel⟩

theorem witness_StatementsRunOperation : ∃ t, exec (.readCell 0) (start []) = .next t ∧ t.trace.length = 3 := ⟨_, rfl, by decide +kernel⟩

theorem witness_StepIdle : State.reset.running = none ∧ State.reset.requests = [] ∧ (start []).running = none ∧
    (start []).requests = [] ∧ (start []).Steady SEC 1 := by
  refine ⟨rfl, rfl, rfl, rfl, .inr (.inr ?_)⟩
  decide +kernel

theorem witness_StepAlwaysAnswers : (pending [0x42#8]).requests ≠ [] ∧ (accept .ckUpdate (start [])).running ≠ none := by decide

theorem witness_StepKeepsStoreCanonical : State.Inv (start v40) ∧ ∃ t, step { start v40 with requests := [[0x10#8]] } = .next t :=
  ⟨by show Memory.wf v40 = true; decide +kernel, _, rfl⟩

theorem witness_StepKeepsLaunchInputs : (pending [0x50#8, 0x00#8]).running = none ∧
    (∃ t, step (pending [0x50#8, 0x00#8]) = .next t) ∧ blockStep (accept .clearDiag (start [])) ≠ accept .clearDiag (start []) ∧
    busStep (accept .clearDiag (start [])) ≠ accept .clearDiag (start []) := ⟨rfl, ⟨_, rfl⟩, by decide +kernel, by decide +kernel⟩

theorem witness_ReadOnlyRegisters : ∃ t, exec .clearDiag (start []) = .next t ∧ REG_C ∉ readCells (start []).params .clearDiag :=
  ⟨_, rfl, by decide⟩

theorem witness_StoreFrame : (∃ t, exec .clearDiag (start []) = .next t ∧ t.trace.length = 4) ∧
    SEC ∉ storedCells (start []).params .clearDiag ∧ REG_B ∉ storedCells (start []).params .clearDiag ∧
    (start []).Steady SEC 4 ∧ REG_C ∉ readCells (start []).params .clearDiag :=
  ⟨⟨_, rfl, by decide +kernel⟩, by decide, by decide, .inr (.inr (by decide +kernel)), by decide⟩

theorem witness_AddressBytes : (start []).params.valid = true ∧
    (start []).params.rtcAddrPort ≠ (start []).params.rtcDataPort ∧ ∃ t, exec .factoryReset (start []) = .next t :=
  ⟨test_params_valid, by decide, _, rfl⟩

theorem witness_FailureChangesNothing : ∃ t, exec (.readCell 64) (start []) = .next t ∧ t.outcome = some (.err (.validation .addr)) :=
  ⟨_, rfl, rfl⟩

theorem witness_PortAccessDenied :
    (∃ t, exec .clearDiag { start [] with ioPermitted := true } = .next t ∧ t.outcome = some (.ok .unit []) ∧
      isPure .clearDiag = false) ∧
    (∃ t, exec (.readCell 64) { start [] with ioPermitted := true } = .next t ∧ t.outcome = some (.err (.validation .addr))) ∧
    isPure (.bcdDecode 0 0#8) = true :=
  ⟨⟨_, rfl, by decide +kernel, rfl⟩, ⟨_, rfl, rfl⟩, rfl⟩

theorem witness_StoreCodecValidation : (¬((0 : Int) ≤ -1 ∧ (-1 : Int) ≤ 63) ∧ ¬((0 : Int) ≤ 64 ∧ (64 : Int) ≤ 63)) ∧
    ((0 : Int) ≤ 63 ∧ (63 : Int) ≤ 63 ∧ ¬((0 : Int) ≤ 256 ∧ (256 : Int) ≤ 255)) ∧ ((0 : Int) ≤ 255 ∧ (255 : Int) ≤ 255) ∧
    (2#8 ≠ 0#8 ∧ 2#8 ≠ 1#8) ∧ ¬((0 : Int) ≤ 100 ∧ (100 : Int) ≤ 99) := by decide

theorem witness_TimeValidation : ¬((0 : Int) ≤ 24 ∧ (24 : Int) ≤ 23) ∧ ((0 : Int) ≤ 23 ∧ (23 : Int) ≤ 23) ∧
    ¬((0 : Int) ≤ 60 ∧ (60 : Int) ≤ 59) ∧ ((0 : Int) ≤ 59 ∧ (59 : Int) ≤ 59) ∧ ¬((1 : Int) ≤ 0 ∧ (0 : Int) ≤ 31) ∧
    ((1 : Int) ≤ 31 ∧ (31 : Int) ≤ 31) ∧ ¬((1 : Int) ≤ 13 ∧ (13 : Int) ≤ 12) ∧ ((1 : Int) ≤ 12 ∧ (12 : Int) ≤ 12) ∧
    ¬((1980 : Int) ≤ 1979 ∧ (1979 : Int) ≤ 2099) ∧ ¬((1980 : Int) ≤ 2100 ∧ (2100 : Int) ≤ 2099) ∧
    ¬((1 : Int) ≤ 8 ∧ (8 : Int) ≤ 7) ∧ ¬((-1 : Int) ≤ -2 ∧ (-2 : Int) ≤ 23) ∧ ((-1 : Int) ≤ -1 ∧ (-1 : Int) ≤ 59) ∧
    (2#8 ≠ 0#8 ∧ 2#8 ≠ 1#8) := by decide

theorem witness_ConfigValidation : (0x61#8 ≠ 0x41#8 ∧ 0x61#8 ≠ 0x30#8 ∧ 0x61#8 ≠ 0x42#8 ∧ 0x61#8 ≠ 0x31#8) ∧
    Spec.driveCode false 0x41#8 ∧ Spec.driveCode false 0x30#8 ∧ Spec.driveCode true 0x42#8 ∧ Spec.driveCode true 0x31#8 ∧
    ¬((0 : Int) ≤ 5 ∧ (5 : Int) ≤ 4) ∧ ¬((0 : Int) ≤ 16 ∧ (16 : Int) ≤ 15) ∧ (3#8 ≠ 0#8 ∧ 3#8 ≠ 1#8 ∧ 3#8 ≠ 2#8) ∧
    ¬((0 : Int) ≤ 2 ∧ (2 : Int) ≤ 1) ∧ ¬((0 : Int) ≤ 65536 ∧ (65536 : Int) ≤ 65535) ∧
    (List.replicate 63 0#8).length ≠ 64 ∧ (List.replicate 127 0#8).length ≠ 128 := by
  refine ⟨by decide, .inl rfl, .inr rfl, .inl rfl, .inr rfl, by decide⟩

theorem witness_ReadCell : (start []).ioPermitted = true ∧ (start []).rtcPresent = true ∧ (start []).QuietFor 3 ∧
    (start []).readsPlain 0x00#6 ∧ (start []).readsPlain 0x3F#6 ∧ (start []).Steady 0x00#6 3 :=
  ⟨rfl, rfl, by decide +kernel, ⟨rfl, by decide⟩, ⟨rfl, by decide⟩, .inr (.inr (by decide +kernel))⟩

theorem witness_ReadNibbleCell : (start []).rtcPresent = true ∧
    ((start []).params.latch .c1).transport = .store 0x3E#6 0x3F#6 ∧ (start []).Steady 0x3E#6 3 ∧
    ((start []).ioPermitted = true ∧ (start []).readsPlain 0x3F#6 ∧ (start []).Steady 0x3F#6 3) :=
  ⟨rfl, rfl, .inl (by decide), rfl, ⟨rfl, by decide⟩, .inl (by decide)⟩

theorem witness_WriteCell : (start []).ioPermitted = true ∧ (start []).rtcPresent = true ∧ (start []).QuietFor 4 ∧
    (storesPlain 0x3F#6 ∧ agentCell 0x3F#6 = false) ∧ storesPlain 0x00#6 := ⟨rfl, rfl, by decide +kernel, by decide, by decide⟩

theorem witness_AbsentRtc : ({ start [] with rtcPresent := false } : State).rtcPresent = false := rfl

theorem witness_BcdEncode : 99 ≤ 99 ∧ 255 ≤ 255 := by decide

theorem witness_CodecLaws : (0x99#8).toNat / 16 ≤ 9 ∧ (0x99#8).toNat % 16 ≤ 9 := by decide

/-- Every case of a raw hour byte, and both ends of each range of an hour written. -/
theorem witness_HourRoundTrip :
    (12 = decodeByte (0x12#8 &&& 0x7F#8) .bcd ∧ 12 = decodeByte (0x8C#8 &&& 0x7F#8) .bin) ∧
    (0 = decodeByte (0x80#8 &&& 0x7F#8) .bcd ∧ 0 < 12 ∧ (0x80#8).getLsbD 7 = true) ∧
    (11 = decodeByte (0x11#8 &&& 0x7F#8) .bcd ∧ 11 < 12 ∧ (0x11#8).getLsbD 7 = false) ∧
    (127 = decodeByte (0xFF#8 &&& 0x7F#8) .bin ∧ 12 < 127) ∧ (0 ≤ 23 ∧ 23 ≤ 23 ∧ 0 < 1 ∧ 11 < 12 ∧ 12 < 13) := by decide +kernel

theorem witness_ReadTime : ((start v40).ioPermitted = true ∧ defaultCellMap = (start v40).params.cellMap) ∧
    defaultCellMap.regA = REG_A ∧ (start v40).rtcPresent = true ∧ (start v40).QuietFor 30 ∧
    ∀ a ∈ [REG_B, SEC, MIN, HOUR, DOW, DOM, MONTH, YEAR, 0x32#6], a ≠ REG_A ∧ a ≠ REG_C ∧ a ≠ REG_D :=
  ⟨⟨rfl, rfl⟩, rfl, rfl, by decide +kernel, by decide⟩

/-- What the bracketed writers ask of a state. -/
theorem bracket_state : (start []).ioPermitted = true ∧ (start []).readsPlain (start []).params.cellMap.regB ∧
    (start []).rtcPresent = true ∧ fitsChip (start []).params = true ∧ (start []).QuietFor 27 :=
  ⟨rfl, ⟨rfl, by decide⟩, rfl, test_params_fit, by decide +kernel⟩

theorem witness_WriteTime : (0 ≤ 23 ∧ 23 ≤ 23) ∧ (59 ≤ 59) ∧
    (start []).ioPermitted = true ∧ (start []).readsPlain (start []).params.cellMap.regB ∧
    (start []).rtcPresent = true ∧ fitsChip (start []).params = true ∧ (start []).QuietFor 27 :=
  ⟨by decide, by decide, bracket_state⟩

theorem witness_WriteDate : (1 ≤ 31 ∧ 31 ≤ 31) ∧ (1 ≤ 12 ∧ 12 ≤ 12) ∧ (1980 ≤ 1980 ∧ 1980 ≤ 2099 ∧ 1980 ≤ 2099 ∧ 2099 ≤ 2099) ∧
    (start []).ioPermitted = true ∧ (start []).readsPlain (start []).params.cellMap.regB ∧
    (start []).rtcPresent = true ∧ fitsChip (start []).params = true ∧ (start []).QuietFor 27 :=
  ⟨by decide, by decide, by decide, bracket_state⟩

theorem witness_WriteDow : (1 ≤ 1 ∧ 1 ≤ 7 ∧ 1 ≤ 7 ∧ 7 ≤ 7) ∧
    (start []).ioPermitted = true ∧ (start []).readsPlain (start []).params.cellMap.regB ∧
    (start []).rtcPresent = true ∧ fitsChip (start []).params = true ∧ (start []).QuietFor 27 :=
  ⟨by decide, bracket_state⟩

theorem witness_WriteAlarm : ((-1 : Int) ≤ -1 ∧ (-1 : Int) ≤ 23) ∧ ((-1 : Int) ≤ 59 ∧ (59 : Int) ≤ 59) ∧
    (start []).ioPermitted = true ∧ (start []).readsPlain (start []).params.cellMap.regB ∧
    (start []).rtcPresent = true ∧ fitsChip (start []).params = true ∧ (start []).QuietFor 27 :=
  ⟨by decide, by decide, bracket_state⟩

theorem witness_ReadAlarm : ((start []).ioPermitted = true ∧ defaultCellMap = (start []).params.cellMap) ∧
    defaultCellMap.regA = REG_A ∧ (start []).rtcPresent = true ∧ (start []).QuietFor 15 ∧
    ∀ a ∈ [REG_B, 0x01#6, 0x03#6, 0x05#6], a ≠ REG_A ∧ a ≠ REG_C ∧ a ≠ REG_D :=
  ⟨⟨rfl, rfl⟩, rfl, rfl, by decide +kernel, by decide⟩

theorem witness_AlarmRoundTrip : (start []).ioPermitted = true ∧ (start []).rtcPresent = true ∧
    fitsChip (start []).params = true ∧ ∃ t, exec (.writeAlarm (-1) 59 0) (start []) = .next t ∧ ∃ u, exec .readAlarm t = .next u :=
  ⟨rfl, rfl, test_params_fit, _, rfl, _, rfl⟩

theorem witness_TimeRoundTrip : (start []).ioPermitted = true ∧ (start []).rtcPresent = true ∧
    fitsChip (start []).params = true ∧ ∃ t, exec (.writeTime 23 59 59) (start []) = .next t ∧ ∃ u, exec .readTime t = .next u ∧
      (start []).QuietFor (t.trace.length + u.trace.length) :=
  ⟨rfl, rfl, test_params_fit, _, rfl, _, rfl, by decide +kernel⟩

theorem witness_SetAlarmEnabled : (start []).ioPermitted = true ∧ REG_B = (start []).params.cellMap.regB ∧
    (start []).readsPlain REG_B ∧ (start []).Steady REG_B 3 ∧ (start []).rtcPresent = true :=
  ⟨rfl, rfl, ⟨rfl, by decide⟩, .inl (by decide), rfl⟩

theorem witness_ReadStatus : (start []).ioPermitted = true ∧ defaultCellMap = (start []).params.cellMap ∧
    (start []).rtcPresent = true ∧ defaultCellMap.regA = REG_A ∧ defaultCellMap.regB = REG_B ∧ (start []).QuietFor 12 :=
  ⟨rfl, rfl, rfl, rfl, rfl, by decide +kernel⟩

/-- Both drives, and both clauses of the hard-disk type. -/
theorem witness_DriveGetters : (Spec.driveCode false 0x30#8 ∧ Spec.driveCode true 0x42#8) ∧
    (Spec.nibbleOf false ((start [(0x12, 0xF2#8)]).x 0x12#6) = 15 ∧ Spec.nibbleOf true ((start [(0x12, 0xF2#8)]).x 0x12#6) ≠ 15) ∧
    (defaultCfgMap = (start [(0x12, 0xF2#8)]).params.cfgMap ∧ defaultCfgMap.hdd = 0x12#6 ∧
      0x19#6 = (if false then defaultCfgMap.hddExt1 else defaultCfgMap.hddExt0)) ∧
    (start [(0x12, 0xF2#8)]).ioPermitted = true ∧ (start [(0x12, 0xF2#8)]).rtcPresent = true ∧
    (start [(0x12, 0xF2#8)]).params.valid = true ∧ fitsChip (start [(0x12, 0xF2#8)]).params = true ∧
    (start [(0x12, 0xF2#8)]).running = none :=
  ⟨⟨.inr rfl, .inl rfl⟩, by decide +kernel, ⟨rfl, rfl, rfl⟩, start_state _⟩

theorem witness_DriveSetters : (Spec.driveCode true 0x31#8 ∧ Spec.driveCode false 0x41#8) ∧ (4 ≤ 4 ∧ 15 ≤ 15) ∧
    (0x10#6 = (start []).params.cfgMap.floppy ∧ 0x12#6 = (start []).params.cfgMap.hdd) ∧
    (start []).ioPermitted = true ∧ (start []).rtcPresent = true ∧
    (start []).params.valid = true ∧ fitsChip (start []).params = true ∧ (start []).running = none :=
  ⟨⟨.inr rfl, .inl rfl⟩, by decide, ⟨rfl, rfl⟩, start_state _⟩

theorem witness_GetEquip : 0x14#6 = (start []).params.cfgMap.equip ∧ (start []).ioPermitted = true ∧ (start []).rtcPresent = true ∧
    (start []).params.valid = true ∧ fitsChip (start []).params = true ∧ (start []).running = none :=
  ⟨rfl, start_state _⟩

/-- The field and value of each of the three fields, at its largest value. -/
theorem witness_SetEquip : ((0 = 0 ∧ 1 ≤ 1 ∨ 0 = 1 ∧ 1 ≤ 3 ∨ 0 = 2 ∧ 1 ≤ 4) ∧ (1 = 0 ∧ 3 ≤ 1 ∨ 1 = 1 ∧ 3 ≤ 3 ∨ 1 = 2 ∧ 3 ≤ 4) ∧
      (2 = 0 ∧ 4 ≤ 1 ∨ 2 = 1 ∧ 4 ≤ 3 ∨ 2 = 2 ∧ 4 ≤ 4)) ∧
    0x14#6 = (start []).params.cfgMap.equip ∧ (start []).ioPermitted = true ∧ (start []).rtcPresent = true ∧
    (start []).params.valid = true ∧ fitsChip (start []).params = true ∧ (start []).running = none := ⟨by decide, rfl, start_state _⟩

theorem witness_MemoryWords : (0x15#6 = (if false then (start []).params.cfgMap.extmemLo else (start []).params.cfgMap.basememLo) ∧
      0x16#6 = 0x15#6 + 1#6 ∧
      0x17#6 = (if true then (start []).params.cfgMap.extmemLo else (start []).params.cfgMap.basememLo) ∧
      0x18#6 = 0x17#6 + 1#6) ∧ 65535 ≤ 65535 ∧
    (start []).ioPermitted = true ∧ (start []).rtcPresent = true ∧
    (start []).params.valid = true ∧ fitsChip (start []).params = true ∧ (start []).running = none :=
  ⟨⟨rfl, rfl, rfl, rfl⟩, by decide, start_state _⟩

theorem witness_ChecksumReads : (start v40).ioPermitted = true ∧ (start v40).rtcPresent = true ∧
    (start v40).params.valid = true ∧ fitsChip (start v40).params = true ∧ (start v40).running = none := start_state _

theorem witness_CkUpdate : (start []).ioPermitted = true ∧ (start []).rtcPresent = true ∧
    (start []).params.valid = true ∧ fitsChip (start []).params = true ∧ (start []).running = none := start_state _

theorem witness_DiagAndShutdown : ((start []).ioPermitted = true ∧ 0x0E#6 = (start []).params.cfgMap.diag ∧
      0x0F#6 = (start []).params.cfgMap.shutdown) ∧
    ((start []).readsPlain 0x0E#6 ∧ (start []).Steady 0x0E#6 3) ∧ ((start []).readsPlain 0x0F#6 ∧ (start []).Steady 0x0F#6 3) ∧
    ((start []).rtcPresent = true ∧ storesPlain 0x0E#6 ∧ agentCell 0x0E#6 = false) ∧
    (∀ e ∈ (start [(0x0F, 0x0B#8)]).params.shutdownTable, e.1 ≠ (start [(0x0F, 0x0B#8)]).x 0x0F#6) ∧
    (∃ post, (start []).params.shutdownTable = [] ++ ((start []).x 0x0F#6, "soft reset or unexpected shutdown") :: post ∧
      ∀ e ∈ ([] : List (Byte × String)), e.1 ≠ (start []).x 0x0F#6) ∧ (start []).params.shutdownTable = defaultShutdownTable ∧
    ((start [(0x0F, 0x0A#8)]).x 0x0F#6).toNat ≤ 0x0A ∧ 0x0A < ((start [(0x0F, 0x0B#8)]).x 0x0F#6).toNat :=
  ⟨⟨rfl, rfl, rfl⟩, ⟨⟨rfl, by decide⟩, .inl (by decide)⟩, ⟨⟨rfl, by decide⟩, .inl (by decide)⟩, ⟨rfl, by decide, by decide⟩,
    by decide +kernel, ⟨_, rfl, by decide⟩, rfl, by decide +kernel, by decide +kernel⟩

theorem witness_SetterThenVerify : (start []).rtcPresent = true ∧ (start []).params.valid = true ∧
    fitsChip (start []).params = true ∧ ∃ t, exec (.setFloppy 0x41#8 4) (start []) = .next t ∧ t.outcome = some (.ok .unit []) :=
  ⟨rfl, test_params_valid, test_params_fit, _, rfl, by decide +kernel⟩

theorem witness_ChangedCellFailsVerify : ((start []).ioPermitted = true ∧ (start []).rtcPresent = true ∧
    (start []).params.valid = true ∧ fitsChip (start []).params = true ∧ (start []).running = none) ∧
    (0x10#6 ≤ 0x10#6 ∧ 0x2D#6 ≤ 0x2D#6) ∧ 0x01#8 ≠ (start []).x 0x2D#6 ∧
    ∃ t, exec .ckUpdate (start []) = .next t ∧ ∃ u, exec (.writeCell (0x2D#6).toNat (0x01#8).toNat) t = .next u :=
  ⟨start_state _, by decide, by decide +kernel, _, rfl, _, rfl⟩

theorem witness_LatchReadPort : (start []).ioPermitted = true ∧
    ((start []).params.latch .c0).transport = .port 0x200#16 0x201#16 := ⟨rfl, rfl⟩

theorem witness_LatchReadStore : (start []).ioPermitted = true ∧ (start []).rtcPresent = true ∧ (start []).params.valid = true ∧
    ((start []).params.latch .c1).transport = .store 0x3E#6 0x3F#6 ∧ agentCell 0x3E#6 = false ∧ 0x3E#6 ≠ REG_A ∧ 0x3E#6 ≠ REG_B :=
  ⟨rfl, rfl, test_params_valid, rfl, by decide, by decide, by decide⟩

/-- A channel of each transport. -/
theorem witness_LatchReadTwice : (start []).ioPermitted = true ∧
    ((start []).params.latch .c0).transport = .port 0x200#16 0x201#16 ∧
    (((start []).params.latch .c1).transport = .store 0x3E#6 0x3F#6 ∧ (start []).rtcPresent = true ∧
      (start []).params.valid = true ∧ agentCell 0x3E#6 = false ∧ 0x3E#6 ≠ REG_A ∧ 0x3E#6 ≠ REG_B) ∧
    (∃ t, exec (.latchRead 0#8) (start []) = .next t ∧ ∃ u, exec (.latchRead 0#8) t = .next u) ∧
    ∃ t, exec (.latchRead 1#8) (start []) = .next t ∧ ∃ u, exec (.latchRead 1#8) t = .next u :=
  ⟨rfl, rfl, ⟨rfl, rfl, test_params_valid, by decide, by decide, by decide⟩, ⟨_, rfl, _, rfl⟩, _, rfl, _, rfl⟩

theorem witness_LatchReadStoreEvents : ({ start [] with rtcPresent := false } : State).ioPermitted = true ∧
    (start []).params.valid = true ∧ ((start []).params.latch .c1).transport = .store 0x3E#6 0x3F#6 :=
  ⟨rfl, test_params_valid, rfl⟩

theorem witness_PlatformStatus : (start []).ioPermitted = true ∧ 7 = 0x07 / 2 ^ 0 % 8 := ⟨rfl, by decide⟩

theorem witness_ExportSnapshot : (start v51).ioPermitted = true ∧ (start v51).rtcPresent = true ∧
    (start v51).readsPlain 0x3F#6 ∧ (start v51).Steady 0x3F#6 195 ∧ (start v51).params.cellMap.regA ≠ REG_C ∧
    (start v51).QuietFor 195 := ⟨rfl, rfl, ⟨rfl, by decide⟩, .inl (by decide), by decide, by decide +kernel⟩

theorem witness_ImportSnapshot : (List.replicate 64 0#8).length = 64 ∧ (List.replicate 128 0#8).length = 128 ∧
    (∀ k < 64, (List.replicate 128 0#8)[k]? = some 0#8) ∧ (start []).ioPermitted = true ∧ REG_B = (start []).params.cellMap.regB ∧
    (start []).readsPlain REG_B ∧ (start []).Steady REG_B 3 ∧ (start []).rtcPresent = true ∧
    (storesPlain 0x3F#6 ∧ agentCell 0x3F#6 = false) :=
  ⟨by decide, by decide, by decide +kernel, rfl, rfl, ⟨rfl, by decide⟩, .inl (by decide), rfl, by decide⟩

theorem witness_FactoryReset : ((start []).ioPermitted = true ∧ (start []).rtcPresent = true ∧
    (start []).params.valid = true ∧ fitsChip (start []).params = true ∧ (start []).running = none) ∧
    (∃ t, exec .factoryReset (start []) = .next t ∧ ∃ u, exec .factoryReset t = .next u) ∧
    ((REG_A, 0x26#8) ∈ (start []).params.factoryTable ∧ agentCell REG_A = false ∧ REG_A ∉ checksumCells (start []).params) ∧
    0x1B#6 ∈ cellsFromTo (start []).params.zeroRange0.lo (start []).params.zeroRange0.hi :=
  ⟨start_state _, ⟨_, rfl, _, rfl⟩, by decide, by decide⟩

theorem witness_FactoryResetTwice : ((start []).ioPermitted = true ∧ (start []).rtcPresent = true ∧
    (start []).params.valid = true ∧ fitsChip (start []).params = true ∧ (start []).running = none) ∧
    (∃ t, exec .factoryReset (start []) = .next t ∧ ∃ u, exec .factoryReset t = .next u) ∧ agentCell 0x0E#6 = false :=
  ⟨start_state _, ⟨_, rfl, _, rfl⟩, by decide⟩

theorem witness_ExportImportRoundTrip : (start v51).ioPermitted = true ∧ (start v51).rtcPresent = true ∧
    (start v51).params.cellMap.regB = REG_B ∧ ∃ t u w snap snap' ws ws', exec .exportSnapshot (start v51) = .next t ∧
      t.outcome = some (.ok (.snapshot snap) ws) ∧ exec (.importSnapshot snap) t = .next u ∧
      exec .exportSnapshot u = .next w ∧ w.outcome = some (.ok (.snapshot snap') ws') := by
  obtain ⟨t, snap, ws, ht, ho⟩ := exportSnapshot_ran (s := start v51) rfl
  obtain ⟨u, hu, -⟩ := exec_ends (.importSnapshot snap) t
  obtain ⟨w, snap', ws', hw, ho'⟩ :=
    exportSnapshot_ran (s := u) ((exec_ioPermitted hu).trans ((exec_ioPermitted ht).trans rfl))
  exact ⟨rfl, rfl, rfl, t, u, w, snap, snap', ws, ws', ht, ho, hu, hw, ho'⟩

theorem witness_Diff : (List.replicate 64 0#8).length = 64 := by decide

end Sys2Proof.Tests
end

section
/-! SUPPORT. An operation taken step by step: the steps of either grain lead from the accepted request to the state its meaning
gives, and the operation is under way at each of them. -/

namespace Sys2Proof.Machine

open Sys2Proof.Config

/-! ## Steps counted to an end -/

/-- From `s`, where `k` steps are done, the steps `f` lead to `t`, and before each of them `P` holds of the count and the
state. -/
inductive StepsTo (f : State → State) (P : Nat → State → Prop) (t : State) : Nat → State → Prop where
  | last {k : Nat} {s : State} (h : P k s) (hf : f s = t) : StepsTo f P t k s
  | more {k : Nat} {s : State} (h : P k s) (hf : StepsTo f P t (k + 1) (f s)) : StepsTo f P t k s

section
variable {f : State → State} {P : Nat → State → Prop} {t s s' : State} {k : Nat}

theorem StepsTo.iterate (h : StepsTo f P t k s) : ∃ n, f^[n + 1] s = t ∧ ∀ j ≤ n, P (k + j) (f^[j] s) := by
  induction h with
  | last h hf => exact ⟨0, hf, fun j hj => by obtain rfl := Nat.le_zero.mp hj; exact h⟩
  | more h _ ih =>
    obtain ⟨n, hn, hP⟩ := ih
    refine ⟨n + 1, hn, fun j hj => ?_⟩
    cases j with
    | zero => exact h
    | succ j => rw [← Nat.add_assoc, Nat.add_right_comm]; exact hP j (by omega)

/-- Two states with one successor: what holds of the steps from one holds of the steps from the other. -/
theorem StepsTo.of_step_eq (h : StepsTo f P t k s') (hs : P k s) (he : f s = f s') : StepsTo f P t k s := by
  cases h with
  | last _ hf => exact .last hs (he.trans hf)
  | more _ hf => exact .more hs (he ▸ hf)

end

/-! ## One step of an operation under way -/

section
variable {i : Instr} {k : Nat} {o : Operation} {b : Bus (Value × List Warning)} {s t : State}
  (piece : Bus (Value × List Warning) → State → Reached × State)

theorem UnderWay.advance_step (h : UnderWay i k (.step o) t s) :
    advance piece ⟨i, k⟩ s = s.busy (some ⟨i, k + 1⟩) := by
  rw [advance, h.rest_eq]; rfl

theorem UnderWay.advance_fails {e : OpError} (h : UnderWay i k (.fails e) t s) : advance piece ⟨i, k⟩ s = t := by
  rw [advance, h.rest_eq]; exact h.ends

theorem UnderWay.advance_value {v : Value} (h : UnderWay i k (.value v) t s) : advance piece ⟨i, k⟩ s = t := by
  rw [advance, h.rest_eq]; exact h.ends

/-- Without port access the operation ends at its first bus primitive. -/
theorem UnderWay.advance_denied {q : Request} {n : Byte → Bus (Value × List Warning)}
    (h : UnderWay i k (.bus (.ask q n)) t s) (hp : s.ioPermitted = false) : advance piece ⟨i, k⟩ s = t := by
  rw [advance, h.rest_eq, ← h.denied hp]
  simp [Bus.isAsk, hp]

theorem UnderWay.advance_bus (h : UnderWay i k (.bus b) t s) (hp : b.isAsk = true → s.ioPermitted = true) :
    advance piece ⟨i, k⟩ s = reach ⟨i, k⟩ (piece b s) := by
  rw [advance, h.rest_eq]
  refine if_neg fun hc => ?_
  simp only [Bool.and_eq_true, Bool.not_eq_true'] at hc
  exact absurd (hp hc.1) (by simp [hc.2])

end

theorem blockStep_running {r : Running} {s : State} (h : s.running = some r) :
    blockStep s = advance Bus.statement r s := by
  rw [blockStep, h]

theorem busStep_running {r : Running} {s : State} (h : s.running = some r) : busStep s = advance Bus.event r s := by
  rw [busStep, h]

/-- The operation `i`, on its way to `t`, is under way in `s` after `k` steps: the statements passed, and what else `count`
counts. -/
def CountedWay (count : State → Nat) (i : Instr) (t : State) (k : Nat) (s : State) : Prop :=
  ∃ j o, UnderWay i j o t s ∧ j + count s = k

section
variable {i : Instr} {t : State} {f : State → State} {piece : Bus (Value × List Warning) → State → Reached × State}
  {count : State → Nat}

/-- Steps that lead from any point of a program to its end lead from any point of an operation to its end. -/
theorem operation_stepsTo (hf : ∀ {r s}, s.running = some r → f s = advance piece r s)
    (hcount : ∀ s r, count (s.busy r) = count s)
    (hbus : ∀ b {j k s}, UnderWay i j (.bus b) t s → j + count s = k → StepsTo f (CountedWay count i t) t k s)
    (o : Operation) : ∀ {j k s}, UnderWay i j o t s → j + count s = k → StepsTo f (CountedWay count i t) t k s := by
  induction o with
  | step o ih =>
    intro j k s h hk
    refine .more ⟨_, _, h, hk⟩ ?_
    rw [hf h.running, h.advance_step]
    exact ih h.passed (by rw [hcount]; omega)
  | fails e => exact fun h hk => .last ⟨_, _, h, hk⟩ ((hf h.running).trans (h.advance_fails _))
  | value v => exact fun h hk => .last ⟨_, _, h, hk⟩ ((hf h.running).trans (h.advance_value _))
  | bus b => exact hbus b

/-- The statements of a program, one after the other, lead to its end: a bus event stays inside its statement. -/
theorem bus_statements (b : Bus (Value × List Warning)) : ∀ {j k s}, UnderWay i j (.bus b) t s → j + 0 = k →
    StepsTo blockStep (CountedWay (fun _ => 0) i t) t k s := by
  induction b with
  | pure v =>
    intro j k s h hk
    refine .last ⟨_, _, h, hk⟩ ?_
    rw [blockStep_running h.running, h.advance_bus _ (by simp [Bus.isAsk])]
    exact h.ended
  | step b ih =>
    intro j k s h hk
    refine .more ⟨_, _, h, hk⟩ ?_
    rw [blockStep_running h.running, h.advance_bus _ (by simp [Bus.isAsk])]
    exact ih h.passed_bus (by omega)
  | ask q n ih =>
    intro j k s h hk
    cases hp : s.ioPermitted with
    | false => exact .last ⟨_, _, h, hk⟩ ((blockStep_running h.running).trans (h.advance_denied _ hp))
    | true =>
      have h' := h.answered hp
      have hp' : (perform q s).2.ioPermitted = true := by cases q <;> simp [perform, hp]
      refine (ih _ h' hk).of_step_eq ⟨_, _, h, hk⟩ ?_
      rw [blockStep_running h.running, blockStep_running h'.running, h.advance_bus _ fun _ => hp,
        h'.advance_bus _ fun _ => hp']
      rfl

/-- The bus events and statement ends of a program, one after the other, lead to its end. -/
theorem bus_events (b : Bus (Value × List Warning)) : ∀ {j k s}, UnderWay i j (.bus b) t s → j + s.trace.length = k →
    StepsTo busStep (CountedWay (fun s => s.trace.length) i t) t k s := by
  induction b with
  | pure v =>
    intro j k s h hk
    refine .last ⟨_, _, h, hk⟩ ?_
    rw [busStep_running h.running, h.advance_bus _ (by simp [Bus.isAsk])]
    exact h.ended
  | step b ih =>
    intro j k s h hk
    refine .more ⟨_, _, h, hk⟩ ?_
    rw [busStep_running h.running, h.advance_bus _ (by simp [Bus.isAsk])]
    exact ih h.passed_bus (show j + 1 + s.trace.length = k + 1 by omega)
  | ask q n ih =>
    intro j k s h hk
    cases hp : s.ioPermitted with
    | false => exact .last ⟨_, _, h, hk⟩ ((busStep_running h.running).trans (h.advance_denied _ hp))
    | true =>
      obtain ⟨e, htr, -⟩ := perform_event q s
      refine .more ⟨_, _, h, hk⟩ ?_
      rw [busStep_running h.running, h.advance_bus _ fun _ => hp]
      refine ih _ (h.answered hp) (show j + (perform q s).2.trace.length = k + 1 from ?_)
      rw [htr, List.length_append, List.length_singleton]
      omega

end

/-- A bus event leaves the step index, the end of a statement adds one to it, and the last step ends the operation. -/
theorem busStep_index {s : State} {i : Instr} {j : Nat} (h : s.running = some ⟨i, j⟩) :
    (busStep s).running = none ∨ (busStep s).running = some ⟨i, j⟩ ∨ (busStep s).running = some ⟨i, j + 1⟩ := by
  rw [busStep_running h]
  unfold advance
  split
  · exact .inr (.inr rfl)
  · exact .inl rfl
  · exact .inl rfl
  · rename_i b _
    split
    · exact .inl rfl
    · cases b with
      | pure v => exact .inl rfl
      | step b => exact .inr (.inr rfl)
      | ask q n => exact .inr (.inl (by cases q <;> simp [Bus.event, reach, perform, h]))

/-- No operation is under way after one that ended. -/
theorem Ends.running_none {i : Instr} {s t : State} (h : Ends i s t) : t.running = none := by
  cases h <;> rfl

theorem ends_of_exec {i : Instr} {s t : State} (h : exec i s = .next t) : Ends i s t := by
  obtain ⟨t', ht, e⟩ := exec_ends i s
  cases h.symm.trans ht
  exact e

/-- The operation accepted in `s` is under way, on its way to the state its meaning gives. -/
theorem underWay_of_exec {i : Instr} {s t : State} (h : exec i s = .next t) :
    UnderWay i 0 (operation s.params i) t (accept i s) := by
  cases h.symm.trans (exec_operation i s)
  exact underWay_accept i s

end Sys2Proof.Machine

namespace Sys2Proof.Certificates

open Sys2Proof Sys2Proof.Machine Sys2Proof.Config

/-- Settles O59: the statements of the operation, one after the other, lead to its end, the step index counting them. -/
theorem statementsRunOperation : Obligations.StatementsRunOperation := by
  intro i s t h
  obtain ⟨n, hn, hway⟩ :=
    (operation_stepsTo blockStep_running (fun _ _ => rfl) bus_statements _ (underWay_of_exec h) rfl).iterate
  refine ⟨n, hn, (ends_of_exec h).running_none, rfl, fun k hk => ?_⟩
  obtain ⟨j, o, hu, hj⟩ := hway k hk
  obtain rfl : j = k := by simpa using hj
  exact ⟨hu.running, hu.trace_prefix, hu.step_eq⟩

/-- Settles O6: the bus events and statement ends of the operation, one after the other, lead to its end; each of them counts
one, an event in the trace and the end of a statement in the step index. -/
theorem busStepsRunOperation : Obligations.BusStepsRunOperation := by
  intro i s t h
  obtain ⟨n, hn, hway⟩ :=
    (operation_stepsTo busStep_running (fun _ _ => rfl) bus_events _ (underWay_of_exec h) rfl).iterate
  simp only [accept_trace, List.length_nil, Nat.zero_add] at hway
  refine ⟨n, hn, fun k hk => ?_⟩
  obtain ⟨j, o, hu, hj⟩ := hway k hk
  replace hj : j + (busStep^[k] (accept i s)).trace.length = k := hj
  refine ⟨j, hu.running, ?_, hj, fun hlt => ?_, hu.step_eq⟩
  · rw [show k - j = (busStep^[k] (accept i s)).trace.length by omega]
    exact List.prefix_iff_eq_take.mp hu.trace_prefix
  · obtain ⟨_, _, hnext, -⟩ := hway (k + 1) hlt
    rw [Function.iterate_succ_apply'] at hnext ⊢
    exact (busStep_index hu.running).resolve_left (by simp [hnext.running])

end Sys2Proof.Certificates
end

section
/-! SUPPORT. What every operation keeps: the channels' registers, the read-only registers, the cells it does not store to, and
the address latch. -/

namespace Sys2Proof.Machine

open Sys2Proof.Config

/-! ## The environment's turn on its own -/

/-- The environment's turn leaves alone every cell the clock agent cannot change in one event. -/
theorem agentTurn_x_steady {s : State} {a : CellAddr} (h : s.Steady a 1) : (agentTurn s).2.x a = s.x a := by
  rcases h with h | ⟨ht, hs⟩ | h
  · exact agentTurn_x s h
  · exact agentTurn_x_set s (timeCell_ne_regC ht) hs
  · obtain ⟨d, r, -, -, hrun, -⟩ := agentTurn_quiet h
    rw [hrun]
    rfl

/-- With no request and no operation under way, a step is the environment's turn. -/
theorem step_idle {s : State} (hr : s.running = none) (hq : s.requests = []) : step s = .next (agentTurn s).2 := by
  rw [step, hr]
  simp [takeRequest, hq, idle]

/-- With no operation under way, a step runs the operation of the first request. -/
theorem step_accepts {s : State} {b : List Byte} {r : List (List Byte)} {x : Instr × List Byte} (hr : s.running = none)
    (hq : s.requests = b :: r) (hd : decode b = .ok x) : step s = exec x.1 { s with requests := r } := by
  cases s
  subst hr hq
  simp only [step, takeRequest, hd]

/-- With no operation under way, a step rejects a first request that is none (60_exceptions.md R401). -/
theorem step_rejects {s : State} {b : List Byte} {r : List (List Byte)} {e : DecodeError} (hr : s.running = none)
    (hq : s.requests = b :: r) (hd : decode b = .error e) : step s = .next (rejectRequest { s with requests := r }) := by
  cases s
  subst hr hq
  simp only [step, takeRequest, hd]

/-! ## One law of the bus primitives is a law of every operation -/

/-- A relation that composes and that the primitives of a program keep, the program keeps. -/
theorem run_keeps {α : Type} {R : State → State → Prop} (refl : ∀ s, R s s)
    (trans : ∀ {s t u}, R s t → R t u → R s u) (hq : ∀ q s, R s (perform q s).2) (b : Bus α) (s : State) :
    R s (b.run s).2 := by
  induction b generalizing s with
  | pure a => exact refl s
  | ask q n ih => exact trans (hq q s) (ih _ _)
  | step b ih => exact ih s

@[simp] theorem perform_params (q : Request) (s : State) : (perform q s).2.params = s.params := by
  cases q <;> simp [perform]

theorem run_params {α : Type} (b : Bus α) (s : State) : (b.run s).2.params = s.params :=
  run_keeps (R := fun s t => t.params = s.params) (fun _ => rfl) (fun h g => g.trans h) perform_params b s

/-- A relation that composes and that every bus primitive keeps can be followed through every operation. -/
theorem OpLaw.of_perform {p : Params} {rd wr : List CellAddr} {ch : List Channel} {R : State → State → Prop}
    (refl : ∀ s, R s s) (trans : ∀ {s t u}, R s t → R t u → R s u) (hq : ∀ q s, R s (perform q s).2) :
    OpLaw p rd wr ch R :=
  have keeps : ∀ {α : Type} (b : Bus α), Keeps p R b := fun b s hs =>
    ⟨(run_params b s).trans hs, run_keeps refl trans hq b s⟩
  { refl := refl
    trans := trans
    read := fun _ _ => keeps _
    write := fun _ _ _ => keeps _
    readNib := fun _ _ _ _ _ => keeps _
    barrier := keeps _
    selIn := fun _ _ _ _ _ => keeps _
    selOut := fun _ _ _ _ _ _ => keeps _
    nibIn := fun _ _ _ _ _ => keeps _
    plat := keeps _ }

/-- A relation that the primitives of an operation keep, and that looks at nothing its start and its end set, holds from start to
end. -/
theorem exec_keeps {i : Instr} {s t : State} {R : State → State → Prop} (h : exec i s = .next t)
    (L : OpLaw s.params (readCells s.params i) (storedCells s.params i) (opChannels i) R)
    (start : ∀ u, R s.started u → R s u) (ends : ∀ u r l, R s u → R s (finish r { u with trace := l })) : R s t := by
  cases ends_of_exec h with
  | err e => exact ends s (.err e) [] (L.refl s)
  | value v _ => exact ends s (.ok v []) [] (L.refl s)
  | ran u v ws _ _ hk => exact ends u (.ok v ws) u.trace (start u (hk R L))

/-! ## The channels' registers (10_state.md R88, R89) -/

/-- Every primitive but a write of a selector port leaves the channels' registers alone. -/
theorem latch_law {p : Params} {rd wr : List CellAddr} {ch : List Channel}
    (hc : ∀ c ∈ ch, ∀ q n, (p.latch c).transport ≠ .port q n) :
    OpLaw p rd wr ch fun s t => ∀ d, t.latch d = s.latch d where
  refl _ _ := rfl
  trans h g d := (g d).trans (h d)
  read a _ s hs := ⟨by simpa using hs, by simp⟩
  write a _ v s hs := ⟨by simpa using hs, by simp⟩
  readNib c _ _ n _ s hs := ⟨by simpa using hs, by simp⟩
  barrier s hs := ⟨by simpa using hs, by simp [perform]⟩
  selIn c h q n ht := absurd ht (hc c h q n)
  selOut c h q n ht := absurd ht (hc c h q n)
  nibIn c h q n ht := absurd ht (hc c h q n)
  plat s hs := ⟨by simpa using hs, by simp [perform]⟩

/-- LATCH_READ of a PORT channel puts the selector register back (46_amstrad_latch.md R351). -/
theorem latchReadBody_latch {p : Params} {c : Channel} {sel nib : Port} (ht : (p.latch c).transport = .port sel nib)
    (s : State) (d : Channel) : ((latchReadBody p c).run s).2.latch d = s.latch d := by
  simp only [latchReadBody, selRead, selWrite, nibRead, ht, run_step, run_stmt, run_bind, run_ask, run_request, run_pure,
    perform, barrier_latch]
  by_cases hd : d = c
  · subst hd
    simp
  · simp [selPortOut_latch_other _ _ _ hd]

theorem mem_opChannels {i : Instr} {c : Channel} (h : c ∈ opChannels i) : ∃ b, i = .latchRead b ∧ channelOf b = some c := by
  cases i with
  | latchRead b => exact ⟨b, rfl, by simpa [opChannels] using h⟩
  | _ => simp [opChannels] at h

theorem latchRead_latch {b : Byte} {c : Channel} (hb : channelOf b = some c) {sel nib : Port} {s : State}
    (ht : (s.params.latch c).transport = .port sel nib) (d : Channel) :
    (runOperation (latchReadOp s.params b) s).latch d = s.latch d := by
  rw [latchReadOp, hb, withOperand_some, runOperation_step]
  cases hp : s.ioPermitted with
  | false => rw [runOperation_denied hp]; cases d <;> rfl
  | true =>
    rw [runOperation_permitted hp, finish_latch, latchReadBody_latch ht]
    cases d <;> rfl

/-- Every operation leaves the channels' registers as they were. -/
theorem exec_latch {i : Instr} {s t : State} (h : exec i s = .next t) (d : Channel) : t.latch d = s.latch d := by
  by_cases hp : ∃ c ∈ opChannels i, ∃ q n, (s.params.latch c).transport = .port q n
  · obtain ⟨c, hc, q, n, ht⟩ := hp
    obtain ⟨b, rfl, hb⟩ := mem_opChannels hc
    cases h
    exact latchRead_latch hb ht d
  · push Not at hp
    refine exec_keeps h (latch_law hp) ?_ ?_ d
    · exact fun u hu d => (hu d).trans (by cases d <;> rfl)
    · exact fun u r l hu d => Eq.trans (by cases d <;> rfl) (hu d)

/-- Every operation leaves the launch inputs and the requests not yet issued as they were. -/
theorem exec_sameLaunch {i : Instr} {s t : State} (h : exec i s = .next t) : s.SameLaunch t := by
  have hl := exec_latch h
  cases ends_of_exec h with
  | err e => exact ⟨rfl, rfl, rfl, rfl, rfl, rfl, rfl⟩
  | value v _ => exact ⟨rfl, rfl, rfl, rfl, rfl, rfl, rfl⟩
  | ran u v ws _ _ hk =>
    have hs : s.started.SameInputs u := (hk _ (Along.law _ _ _ _)).same
    exact ⟨hs.rtcPresent, hl .c0, hl .c1, hs.plat, hs.ioPermitted, hs.params, hs.requests⟩

theorem perform_sameInputs (q : Request) (s : State) : s.SameInputs (perform q s).2 := by
  cases q <;> constructor <;> simp [perform]

/-- No bus primitive changes a nibble (10_state.md R89). -/
theorem perform_nibbles (q : Request) (s : State) (d : Channel) :
    ((perform q s).2.latch d).n0 = (s.latch d).n0 ∧ ((perform q s).2.latch d).n1 = (s.latch d).n1 := by
  cases q with
  | selOut c p v =>
    by_cases hd : d = c
    · subst hd; simp [perform]
    · simp [perform, selPortOut_latch_other _ _ _ hd]
  | _ => simp [perform]

/-- What no step of an operation under way changes: the launch inputs, the nibbles among them, and the requests. -/
def KeptInputs (s t : State) : Prop :=
  t.params = s.params ∧ t.ioPermitted = s.ioPermitted ∧ t.plat = s.plat ∧ t.rtcPresent = s.rtcPresent ∧
    t.requests = s.requests ∧ ∀ c, (t.latch c).n0 = (s.latch c).n0 ∧ (t.latch c).n1 = (s.latch c).n1

theorem perform_keptInputs (q : Request) {s t : State} (h : KeptInputs s t) : KeptInputs s (perform q t).2 := by
  obtain ⟨hpar, hio, hplat, hrtc, hreq, hnib⟩ := h
  have hs := perform_sameInputs q t
  refine ⟨hs.params.trans hpar, hs.ioPermitted.trans hio, hs.plat.trans hplat, hs.rtcPresent.trans hrtc,
    hs.requests.trans hreq, fun c => ?_⟩
  obtain ⟨h0, h1⟩ := perform_nibbles q t c
  exact ⟨h0.trans (hnib c).1, h1.trans (hnib c).2⟩

theorem steps_keptInputs (s : State) : KeptInputs s (blockStep s) ∧ KeptInputs s (busStep s) :=
  steps_keep (P := KeptInputs s) (fun q _ h => perform_keptInputs q h) (fun _ _ h => h) (fun _ _ _ h => h)
    ⟨rfl, rfl, rfl, rfl, rfl, fun _ => ⟨rfl, rfl⟩⟩

/-! ## Registers A, C and D (10_state.md R51, R61, R64, R85) -/

/-- A bus primitive changes a cell the clock agent does not own as the device rule of a write says, or not at all. -/
theorem perform_x (q : Request) (s : State) {a : CellAddr} (h : agentCell a = false) : (perform q s).2.x a = s.x a ∨
    ∃ v, (perform q s).2.x a = storedByte s.params.setClearsUie a (s.x a) v := by
  cases q with
  | dataOut v =>
    by_cases hi : a = s.idx
    · cases hp : s.rtcPresent with
      | false => exact .inl ((Along.rtcDataOut_absent [] [] v s hp).kept a (by simp) h)
      | true => exact .inr ⟨v, by rw [perform, rtcDataOut_x s h v hp, if_pos hi]⟩
    · exact .inl (rtcDataOut_x_other s h v hi)
  | _ => exact .inl (by simp [perform, h])

/-- A write to Register C or D is ignored (10_state.md R82). -/
theorem storedByte_readOnly (clears : Bool) {a : CellAddr} (h : a = REG_C ∨ a = REG_D) (old v : Byte) :
    storedByte clears a old v = old := by
  rcases h with rfl | rfl <;> rfl

theorem perform_x_regD (q : Request) (s : State) : (perform q s).2.x REG_D = s.x REG_D := by
  obtain h | ⟨v, h⟩ := perform_x q s (a := REG_D) (by decide)
  · exact h
  · exact h.trans (storedByte_readOnly _ (.inr rfl) _ v)

theorem storedA_top (old v : Byte) : (storedA old v).getLsbD 7 = old.getLsbD 7 := by
  simp [storedA]

theorem perform_x_regA_top (q : Request) (s : State) :
    ((perform q s).2.x REG_A).getLsbD 7 = (s.x REG_A).getLsbD 7 := by
  obtain h | ⟨v, h⟩ := perform_x q s (a := REG_A) (by decide)
  · rw [h]
  · rw [h]; exact storedA_top _ v

/-- From `s` to `t` no more happened to Register C than a setting of its bits 7:4 (10_state.md R85.3). -/
def FlagsSet (s t : State) : Prop := ∃ f : Nibble, t.x REG_C = s.x REG_C ||| (f.setWidth 8 <<< 4)

theorem FlagsSet.refl (s : State) : FlagsSet s s := ⟨0#4, by simp⟩

theorem FlagsSet.trans {s t u : State} (h : FlagsSet s t) (g : FlagsSet t u) : FlagsSet s u := by
  obtain ⟨f, hf⟩ := h
  obtain ⟨g, hg⟩ := g
  exact ⟨f ||| g, by rw [hg, hf, flags_or_flags]⟩

theorem deviceWrite_x_regC (v : Byte) (s : State) : (deviceWrite v s).x REG_C = s.x REG_C := by
  cases hp : s.rtcPresent with
  | false => rw [deviceWrite_absent v s hp]
  | true => rw [deviceWrite_x v s _ hp, storedByte_readOnly _ (.inl rfl), ite_self]

/-- Every bus primitive but a data read of Register C only sets flags of it. -/
theorem perform_flagsSet {q : Request} (hq : q ≠ .dataIn) (s : State) : FlagsSet s (perform q s).2 := by
  obtain ⟨f, hf⟩ := agentTurn_x_regC s
  refine ⟨f, Eq.trans ?_ hf⟩
  cases q with
  | dataIn => exact absurd rfl hq
  | dataOut v => exact deviceWrite_x_regC v (agentTurn s).2
  | selOut c p v => exact setSel_x (agentTurn s).2 c v REG_C
  | _ => rfl

/-- An operation that does not read Register C only sets flags of it. -/
theorem flagsSet_law {p : Params} {rd wr : List CellAddr} {ch : List Channel} (hC : REG_C ∉ rd) :
    OpLaw p rd wr ch FlagsSet :=
  have ask : ∀ q, q ≠ Request.dataIn → ∀ s, FlagsSet s (perform q s).2 := fun _ hq s => perform_flagsSet hq s
  { refl := .refl
    trans := .trans
    read := fun a ha s hs => ⟨by simpa using hs, memRead_x_regC (by rintro rfl; exact hC ha) s⟩
    write := fun a _ v s hs => ⟨by simpa using hs,
      (((ask (.select _) (by simp) s).trans (ask .barrier (by simp) _)).trans (ask (.dataOut v) (by simp) _)).trans
        (ask .barrier (by simp) _)⟩
    readNib := fun c _ _ n _ s hs => ⟨by simpa using hs,
      ((ask (.select _) (by simp) s).trans (ask .barrier (by simp) _)).trans (ask (.nibDataIn c) (by simp) _)⟩
    barrier := fun s hs => ⟨by simpa using hs, ask .barrier (by simp) s⟩
    selIn := fun c _ q _ _ s hs => ⟨by simpa using hs, ask (.selIn c q) (by simp) s⟩
    selOut := fun c _ q _ _ v s hs => ⟨by simpa using hs, ask (.selOut c q v) (by simp) s⟩
    nibIn := fun c _ _ n _ s hs => ⟨by simpa using hs, ask (.nibIn c n) (by simp) s⟩
    plat := fun s hs => ⟨by simpa using hs, ask .platIn (by simp) s⟩ }

/-! ## The address latch (10_state.md R80, R83) -/

theorem lastSelect_append (p : Params) (l m : List BusEvent) (a : CellAddr) :
    lastSelect p a (l ++ m) = lastSelect p (lastSelect p a l) m := by
  induction l generalizing a with
  | nil => rfl
  | cons e l ih =>
    cases e with
    | out q v => simp only [List.cons_append, lastSelect]; split <;> exact ih _
    | inp q v => exact ih _
    | barrier => exact ih _

/-- The address byte of a cell has bits 7:6 zero (30_encoding.md R147). -/
theorem addressByte_top (a : CellAddr) : (a.setWidth 8 : Byte) &&& 0xC0#8 = 0x00#8 := by
  revert a; decide +kernel

/-- From `s` to `t` events were recorded whose address bytes have bits 7:6 zero, and the address latch followed them. -/
def Addressed (p : Params) (s t : State) : Prop :=
  ∃ ev, t.trace = s.trace ++ ev ∧ (∀ v, .out p.rtcAddrPort v ∈ ev → v &&& 0xC0#8 = 0x00#8) ∧ t.idx = lastSelect p s.idx ev

theorem Addressed.refl (p : Params) (s : State) : Addressed p s s := ⟨[], by simp, by simp, rfl⟩

theorem Addressed.trans {p : Params} {s t u : State} (h : Addressed p s t) (g : Addressed p t u) : Addressed p s u := by
  obtain ⟨l, hl, hlv, hli⟩ := h
  obtain ⟨m, hm, hmv, hmi⟩ := g
  refine ⟨l ++ m, by rw [hm, hl, List.append_assoc], fun v hv => ?_, by rw [hmi, hli, lastSelect_append]⟩
  exact (List.mem_append.mp hv).elim (hlv v) (hmv v)

/-- One event that does not write the address port and leaves the latch alone. -/
theorem Addressed.event {p : Params} {s t : State} {e : BusEvent} (ht : t.trace = s.trace ++ [e]) (hi : t.idx = s.idx)
    (he : ∀ v, e ≠ .out p.rtcAddrPort v) : Addressed p s t := by
  refine ⟨[e], ht, fun v hv => absurd (List.mem_singleton.mp hv).symm (he v), hi.trans ?_⟩
  cases e with
  | out q v =>
    have hq : q ≠ p.rtcAddrPort := fun h => he v (h ▸ rfl)
    simp [lastSelect, hq]
  | inp q v => rfl
  | barrier => rfl

/-- The selection of a cell. -/
theorem Addressed.select {p : Params} {s : State} (hs : s.params = p) (a : CellAddr) :
    Addressed p s (rtcSelect (a.setWidth 8) s).2 := by
  refine ⟨[.out p.rtcAddrPort (a.setWidth 8)], by rw [rtcSelect_trace, hs], fun v hv => ?_, by simp [lastSelect]⟩
  obtain ⟨-, rfl⟩ : p.rtcAddrPort = p.rtcAddrPort ∧ v = a.setWidth 8 := by simpa using hv
  exact addressByte_top a

/-- A channel's selector port is not the RTC's address port, with valid parameters (46_amstrad_latch.md R350). -/
theorem selPort_ne_rtcAddrPort {p : Params} (hv : p.valid = true) {c : Channel} {sel nib : Port}
    (ht : (p.latch c).transport = .port sel nib) : sel ≠ p.rtcAddrPort := by
  have h : p.transportOk (p.latch c).transport = true := by
    simp only [Params.valid, Bool.and_eq_true, and_assoc] at hv
    obtain ⟨h0, h1, -⟩ := hv
    cases c
    · exact h0
    · exact h1
  simp only [ht, Params.transportOk, Bool.and_eq_true, bne_iff_ne, and_assoc] at h
  exact h.1

/-- With valid parameters and two RTC ports, every primitive of an operation goes with the address bytes. -/
theorem addressed_law {p : Params} {rd wr : List CellAddr} {ch : List Channel} (hv : p.valid = true)
    (hd : p.rtcAddrPort ≠ p.rtcDataPort) : OpLaw p rd wr ch (Addressed p) :=
  have bar : ∀ s, Addressed p s (barrier s).2 := fun s => .event (barrier_trace s) (barrier_idx s) (by simp)
  have sel : ∀ a s, s.params = p → Addressed p s (barrier (rtcSelect (BitVec.setWidth 8 a) s).2).2 := fun a s hs =>
    (Addressed.select hs a).trans (bar _)
  { refl := .refl p
    trans := .trans
    read := fun a _ s hs => ⟨by simpa using hs,
      (sel a s hs).trans (.event (rtcDataIn_trace _) (rtcDataIn_idx _) (by simp))⟩
    write := fun a _ v s hs => ⟨by simpa using hs,
      ((sel a s hs).trans (.event (rtcDataOut_trace v _) (rtcDataOut_idx v _) (by simp [hs, hd.symm]))).trans (bar _)⟩
    readNib := fun c _ _ n _ s hs => ⟨by simpa using hs,
      (sel n s hs).trans (.event (nibDataIn_trace c _) (nibDataIn_idx c _) (by simp))⟩
    barrier := fun s hs => ⟨by simpa using hs, bar s⟩
    selIn := fun c _ q _ _ s hs => ⟨by simpa using hs, .event (selPortIn_trace c q s) (selPortIn_idx c q s) (by simp)⟩
    selOut := fun c _ q _ ht v s hs => ⟨by simpa using hs,
      .event (selPortOut_trace c q v s) (selPortOut_idx c q v s) (by simp [selPort_ne_rtcAddrPort hv ht])⟩
    nibIn := fun c _ _ n _ s hs => ⟨by simpa using hs, .event (nibPortIn_trace c n s) (nibPortIn_idx c n s) (by simp)⟩
    plat := fun s hs => ⟨by simpa using hs, .event (platPortIn_trace s) (platPortIn_idx s) (by simp)⟩ }

end Sys2Proof.Machine

namespace Sys2Proof.Certificates

open Sys2Proof Sys2Proof.Machine Sys2Proof.Config

/-- Settles O7: the step is the environment's turn, which leaves all but the clock agent's cells alone. -/
theorem stepIdle : Obligations.StepIdle := by
  intro s hr hq
  refine ⟨_, step_idle hr hq, by constructor <;> simp, by simpa using hr, by simp, by simp, by simp,
    fun a ha => agentTurn_x_steady ha, agentTurn_x_regC s⟩

/-- Settles O11: a whole step is the environment's turn, a rejection or an operation; the steps of an operation under way are
bus primitives and changes of what is under way. -/
theorem stepKeepsLaunchInputs : Obligations.StepKeepsLaunchInputs := by
  refine ⟨fun s t hr h => ?_, fun s t h => ?_⟩
  · cases hq : s.requests with
    | nil =>
      rw [step_idle hr hq] at h
      cases h
      constructor <;> simp [hq]
    | cons b r =>
      cases hd : decode b with
      | error e =>
        cases h.symm.trans (step_rejects hr hq hd)
        exact ⟨rfl, rfl, rfl, rfl, rfl, rfl, rfl⟩
      | ok x => exact exec_sameLaunch ((step_accepts hr hq hd).symm.trans h)
  · rcases h with rfl | rfl
    · exact (steps_keptInputs s).1
    · exact (steps_keptInputs s).2

/-- Settles O12: every bus primitive leaves Register D and bit 7 of Register A alone, and all but a data read of Register C only
set flags of it. -/
theorem readOnlyRegisters : Obligations.ReadOnlyRegisters := by
  intro i s t h
  refine ⟨?_, ?_, fun hC => ?_⟩
  · exact exec_keeps (R := fun s t => t.x REG_D = s.x REG_D) h
      (.of_perform (fun _ => rfl) (fun h g => g.trans h) perform_x_regD) (fun _ h => h) (fun _ _ _ h => h)
  · exact exec_keeps (R := fun s t => (t.x REG_A).getLsbD 7 = (s.x REG_A).getLsbD 7) h
      (.of_perform (fun _ => rfl) (fun h g => g.trans h) perform_x_regA_top) (fun _ h => h) (fun _ _ _ h => h)
  · exact exec_keeps h (flagsSet_law hC) (fun _ h => h) (fun _ _ _ h => h)

/-- Settles O13: an operation goes along with its own read and written cells. -/
theorem storeFrame : Obligations.StoreFrame := by
  intro i s t h a hw hC hB hs
  cases ends_of_exec h with
  | err e => rfl
  | value v _ => rfl
  | ran u v ws _ _ hk => exact (hk _ (Along.law _ _ _ _)).steady rfl hw hC hB hs

/-- Settles O14: every primitive of an operation goes with the address bytes. -/
theorem addressBytes : Obligations.AddressBytes := by
  intro i s t hv hd h
  cases ends_of_exec h with
  | err e => exact ⟨by simp, rfl⟩
  | value v _ => exact ⟨by simp, rfl⟩
  | ran u v ws _ _ hk =>
    obtain ⟨ev, htr, hev, hi⟩ := hk _ (addressed_law hv hd)
    rw [started_trace, List.nil_append] at htr
    subst htr
    exact ⟨hev, hi⟩

end Sys2Proof.Certificates
end

section
/-! SUPPORT. What one store read, one store write and a few of them leave: the operations of the store, Register B, the memory
words and the platform register. -/

namespace Sys2Proof.Machine

open Sys2Proof.Config

/-! ## What an operation returned -/

/-- An operation that ended with a value changed no cell but those it stores to, and Register C where it read it. -/
theorem exec_returned {i : Instr} {s t : State} {v : Value} {ws : List Warning} (h : exec i s = .next t)
    (ho : t.outcome = some (.ok v ws)) :
    s.Returned t v ws t.trace (storedCells s.params i ++ clearedCells (readCells s.params i)) := by
  have hl := exec_sameLaunch h
  cases ends_of_exec h with
  | err e => cases ho
  | value v _ =>
    cases ho
    exact ⟨rfl, rfl, rfl, hl, fun _ _ _ _ => rfl, fun _ => rfl⟩
  | ran u v ws _ _ hk =>
    have al := hk _ (Along.law _ _ _ _)
    cases ho
    refine ⟨rfl, rfl, rfl, hl, fun a ha hs hB => ?_, fun hq => ?_⟩
    · rw [List.mem_append, not_or] at ha
      refine al.steady rfl ha.1 ?_ (fun hb => hB (List.mem_append_left _ hb)) hs
      rintro rfl hC
      exact ha.2 (by simp [clearedCells, hC])
    · obtain ⟨ev, htr, hev⟩ := al.events
      rw [started_trace, List.nil_append] at htr
      subst htr
      exact (hev 0 hq).2.1

/-- More cells may be named. -/
theorem State.Returned.mono {s t : State} {v : Value} {ws : List Warning} {tr : List BusEvent} {l m : List CellAddr}
    (h : s.Returned t v ws tr l) (hlm : ∀ a ∈ l, a ∈ m) : s.Returned t v ws tr m :=
  { h with kept := fun a ha hs hB => h.kept a (fun hl => ha (hlm a hl)) hs fun hb => hB (hlm _ hb) }

/-- The only cell named need not be, if it stays as the clock agent leaves it. -/
theorem State.Returned.drop {s t : State} {v : Value} {ws : List Warning} {tr : List BusEvent} {a : CellAddr}
    (h : s.Returned t v ws tr [a]) (ha : a ≠ REG_B) (hx : s.Steady a tr.length → t.x a = s.x a) :
    s.Returned t v ws tr [] := by
  refine { h with kept := fun b _ hs _ => ?_ }
  by_cases hb : b = a
  · subst hb
    exact hx hs
  · exact h.kept b (by simpa using hb) hs fun hB => absurd (List.mem_singleton.mp hB).symm ha

/-- With port access, an operation that comes to a program returns what the program gives. -/
theorem exec_bus {i : Instr} {s u : State} {b : Bus (Value × List Warning)} {v : Value} {ws : List Warning}
    {tr : List BusEvent} {cells : List CellAddr} (hb : (operation s.params i).comesTo = .bus b) (hio : s.ioPermitted = true)
    (hr : b.run s.started = ((v, ws), u)) (htr : u.trace = tr)
    (hc : ∀ a ∈ storedCells s.params i ++ clearedCells (readCells s.params i), a ∈ cells) :
    exec i s = .next (finish (.ok v ws) u) ∧ s.Returned (finish (.ok v ws) u) v ws tr cells := by
  have h := exec_ran hb hio hr
  exact ⟨h, htr ▸ (exec_returned h rfl).mono hc⟩

/-! ## READ_CELL and WRITE_CELL (40_register_store.md R175, R177) -/

@[simp] theorem maskAddr_toNat (a : CellAddr) : maskAddr (a.toNat : Int) = a := by
  simp [maskAddr]

theorem checkRange_addr (a : CellAddr) : checkRange .addr 0 63 (a.toNat : Int) = none :=
  checkRange_in ⟨by omega, by have := a.isLt; omega⟩

theorem checkRange_value (v : Byte) : checkRange .value 0 255 (v.toNat : Int) = none :=
  checkRange_in ⟨by omega, by have := v.isLt; omega⟩

theorem readCell_comesTo (a : CellAddr) : (readCellOp a.toNat).comesTo = .bus (readCellBody a) := by
  simp [readCellOp, checkRange_addr]

theorem writeCell_comesTo (a : CellAddr) (v : Byte) : (writeCellOp a.toNat v.toNat).comesTo = .bus (writeCellBody a v) := by
  simp [writeCellOp, checkRange_addr, checkRange_value]

/-- A quiet store write of a read-only register leaves it as it was (10_state.md R82). -/
theorem memWrite_x_readOnly {a : CellAddr} (h : a = REG_C ∨ a = REG_D) (v : Byte) {s : State} (hp : s.rtcPresent = true)
    (hs : s.Steady a 4) : ((memWrite a v).run s).2.x a = s.x a := by
  rcases hs with hs | ⟨ht, -⟩ | hs
  · rw [memWrite_x_same _ _ _ hs hp, storedByte_readOnly _ h]
  · rcases h with rfl | rfl <;> exact absurd ht (by decide)
  · rw [memWrite_x_quiet _ _ _ hp hs, storedByte_readOnly _ h]

/-! ## The nibble cell (10_state.md R89, R90) -/

/-- A cell the clock agent cannot change in `n` events, and that is not written, is the same after them. -/
theorem Along.steady_events {s t : State} {a : CellAddr} {n : Nat} (al : Along [] [] s t)
    (hn : t.trace.length = s.trace.length + n) (hs : s.Steady a n) : t.x a = s.x a := by
  rcases hs with hs | ⟨ht, hset⟩ | hs
  · exact al.kept a (by simp) hs
  · exact al.frozen (by simp) hset a (by simp) (timeCell_ne_regC ht)
  · obtain ⟨ev, htr, hev⟩ := al.events
    have hlen : ev.length = n := by rw [htr, List.length_append] at hn; omega
    exact (hev 0 (by rwa [hlen])).2.2 a (by simp) (by simp)

/-- With an RTC, a nibble read by the data port is the nibble source's byte, in the state after it. -/
theorem nibDataIn_source (c : Channel) {s : State} (hp : s.rtcPresent = true) :
    (nibDataIn c s).1 = nibSource c (agentTurn s).1 (nibDataIn c s).2 := by
  simp only [nibDataIn, device_bind, device_get, device_modify, device_pure, deviceReadNib, agentTurn_rtcPresent, hp, if_true]
  cases c <;> rfl

/-- LATCH_READ's read of a nibble cell presents the nibble that the selector cell chooses (46_amstrad_latch.md R353). -/
theorem memReadNib_steady {c : Channel} {sel nib : CellAddr} (a : CellAddr) {s : State} (hp : s.rtcPresent = true)
    (ht : (s.params.latch c).transport = .store sel nib) (hs : s.Steady sel 3) :
    nibbleAt ((memReadNib c a).run s).1 (s.params.latch c).nibShift.val =
      if (s.x sel).getLsbD (s.params.latch c).selBit.val then (s.latch c).n1 else (s.latch c).n0 := by
  have hx : ((memReadNib c a).run s).2.x sel = s.x sel :=
    (Along.memReadNib [] [] c a s).steady_events (by simp [readEvents]) hs
  have hv : ∃ d, ((memReadNib c a).run s).1 = nibSource c d ((memReadNib c a).run s).2 :=
    ⟨_, nibDataIn_source c (s := (barrier (rtcSelect (a.setWidth 8) s).2).2) (by simpa using hp)⟩
  obtain ⟨d, hv⟩ := hv
  simp only [hv, nibSource, memReadNib_params, nibbleAt_nibbleByte, presentedNibble, selectorValue, ht, hx, memReadNib_latch]

/-! ## Register B's alarm bit (42_time_alarm.md R245) -/

/-- Setting or clearing the alarm bit leaves the other bits of Register B. -/
theorem withAie_bits (rb : Byte) (on : Bool) : ∀ k < 8,
    (withAie rb on).getLsbD k = if k = 5 then on else rb.getLsbD k := by
  intro k hk
  interval_cases k <;> cases on <;> simp [withAie]

/-- A write of Register B stores the byte, but for UIE where the chip clears it with SET (10_state.md R55). -/
theorem storedB_bits (clears : Bool) (v : Byte) : ∀ k < 8, (storedB clears v).getLsbD k =
    if k = 4 ∧ clears = true ∧ v.getLsbD 7 = true then false else v.getLsbD k := by
  intro k hk
  rw [storedB_eq]
  split
  · rename_i h
    interval_cases k <;> simp [h]
  · rename_i h
    rw [if_neg fun hk => h hk.2]

/-! ## The platform register (46_amstrad_latch.md R357) -/

/-- One read of the platform register, and its record. -/
theorem platformStatusBody_run (p : Params) (s : State) :
    (platformStatusBody p).run s = ((.platform (platformRecord p s.plat), []), (platPortIn s).2) := by
  simp only [platformStatusBody, run_stmt, run_request, run_step, run_pure, perform, platPortIn_value]

/-- The language code is three bits of the register's byte. -/
theorem languageCode_toNat (p : Params) (v : Byte) :
    (languageCode p v).toNat = v.toNat / 2 ^ p.platLangShift.val % 8 := by
  simp [languageCode, Nat.shiftRight_eq_div_pow]

/-! ## The memory words (10_state.md R78) -/

/-- No alarm or configuration cell is a checksum cell, where the maps are the chip's. -/
theorem alarmConfig_not_checksum {p : Params} (hf : fitsChip p = true) {a : CellAddr} (ha : a ∈ p.alarmConfigCells) :
    a ∉ checksumCells p := by
  obtain ⟨-, -, hn, -, -⟩ := fitsChip_named hf
  simp only [Params.namedCells, List.nodup_cons, List.mem_cons, List.mem_append, not_or] at hn
  obtain ⟨-, -, hhi, hlo, -⟩ := hn
  simp only [checksumCells, List.mem_cons, List.not_mem_nil, or_false, not_or]
  exact ⟨fun h => hhi.2.2.2 (h ▸ ha), fun h => hlo.2.2 (h ▸ ha)⟩

/-- A memory word's low cell, as the `which` operand chooses it (44_config_fields.md R305). -/
theorem memwordOf_code (p : Params) (which : Bool) : memwordOf p (if which then 1#8 else 0#8) =
    some (wordCells (if which then p.cfgMap.extmemLo else p.cfgMap.basememLo)) := by
  cases which <;> rfl

/-- With valid parameters both cells of a memory word are configuration cells. -/
theorem memword_config {p : Params} (hv : p.valid = true) (which : Bool) {lo : CellAddr}
    (hlo : lo = if which then p.cfgMap.extmemLo else p.cfgMap.basememLo) :
    lo ∈ p.alarmConfigCells ∧ lo + 1#6 ∈ p.alarmConfigCells := by
  subst hlo
  obtain ⟨hb, he⟩ := memword_adjacent hv
  cases which
  · simp [hb, Params.alarmConfigCells]
  · simp [he, Params.alarmConfigCells]

/-- An alarm or configuration cell is a plain cell that no agent changes, where the maps are the chip's. -/
theorem alarmConfig_plain {p : Params} (hf : fitsChip p = true) {a : CellAddr} (ha : a ∈ p.alarmConfigCells) :
    agentCell a = false ∧ storesPlain a :=
  fitsChip_plain hf (List.mem_cons_of_mem _ (List.mem_cons_of_mem _ (List.mem_cons_of_mem _ ha)))

/-- Two reads of plain cells: the word of their bytes, the low one first. -/
theorem getMemwordBody_run {s : State} {lo hi : CellAddr} (hlo : agentCell lo = false) (hhi : agentCell hi = false)
    (rlo : s.readsPlain lo) (rhi : s.readsPlain hi) :
    ∃ u, (getMemwordBody (lo, hi)).run s = ((.word ((s.x lo).setWidth 16 + ((s.x hi).setWidth 16 <<< 8)), []), u) ∧
      u.trace = s.trace ++ (readEvents s.params lo (s.x lo) ++ readEvents s.params hi (s.x hi)) := by
  obtain ⟨vl, r, hr, law1⟩ := memRead_law lo s
  obtain ⟨vh, u, hu, law2⟩ := memRead_law hi r
  obtain rfl := law1.plain hlo rlo
  obtain rfl := (law2.plain hhi (law1.readsPlain _ rhi)).trans (law1.same _ hhi)
  refine ⟨u, by simp only [getMemwordBody, run_step, run_stmt, hr, hu, run_pure], ?_⟩
  rw [law2.trace, law1.trace, law1.params, List.append_assoc]

/-- Two writes of plain cells and the checksum update: the cells hold the word's bytes, and the checksum is right. -/
theorem setMemwordBody_run {s : State} {lo hi : CellAddr} (w : Word16) (hp : s.rtcPresent = true)
    (hc : ChecksumPlain s.params) (hlo : agentCell lo = false ∧ storesPlain lo) (hhi : agentCell hi = false ∧ storesPlain hi)
    (hne : lo ≠ hi) (hck : lo ∉ checksumCells s.params ∧ hi ∉ checksumCells s.params) :
    ∃ u, (setMemwordBody s.params (lo, hi) w).run s = ((.unit, []), u) ∧
      u.trace = s.trace ++ (writeEvents s.params lo (w.extractLsb' 0 8) ++
        (writeEvents s.params hi (w.extractLsb' 8 8) ++ u.ckUpdateEvents)) ∧
      u.x lo = w.extractLsb' 0 8 ∧ u.x hi = w.extractLsb' 8 8 ∧ u.storedSum = u.coveredSum := by
  obtain ⟨r, hr, law1⟩ := memWrite_law lo (w.extractLsb' 0 8) s
  obtain ⟨q, hq, law2⟩ := memWrite_law hi (w.extractLsb' 8 8) r
  have hpar : q.params = s.params := law2.params.trans law1.params
  have hp1 := law1.pres hp
  obtain ⟨v, u, hu, -, law3⟩ := ckUpdate_law q (law2.pres hp1) (hpar ▸ hc)
  rw [hpar] at hu
  have kept3 : ∀ b, agentCell b = false → b ∉ checksumCells s.params → u.x b = q.x b := fun b hb hn =>
    law3.same b hb (hpar ▸ hn)
  refine ⟨u, by simp only [setMemwordBody, run_step, run_stmt, hr, hq, hu, run_pure], ?_, ?_, ?_, law3.sums⟩
  · rw [law3.trace, law2.trace, law1.trace, law1.params, List.append_assoc, List.append_assoc]
  · rw [kept3 lo hlo.1 hck.1, law2.same lo hlo.1 hne, law1.plainStored hlo.1 hlo.2 hp]
  · rw [kept3 hi hhi.1 hck.2, law2.plainStored hhi.1 hhi.2 hp1]

/-- Two bytes, the low one first, as one word (20_memory.md R101). -/
theorem word_littleEndian (l h : Byte) :
    l.setWidth 16 + (h.setWidth 16 <<< 8) = BitVec.ofNat 16 (l.toNat + 256 * h.toNat) := by
  apply BitVec.eq_of_toNat_eq
  have := l.isLt
  have := h.isLt
  simp [Nat.shiftLeft_eq]
  omega

/-- A word's low byte. -/
theorem word_low (n : Nat) : (BitVec.ofInt 16 (n : Int)).extractLsb' 0 8 = BitVec.ofNat 8 n := by
  apply BitVec.eq_of_toNat_eq
  simp

/-- A word's high byte. -/
theorem word_high (n : Nat) : (BitVec.ofInt 16 (n : Int)).extractLsb' 8 8 = BitVec.ofNat 8 (n / 256) := by
  apply BitVec.eq_of_toNat_eq
  simp [Nat.shiftRight_eq_div_pow]
  omega

end Sys2Proof.Machine

namespace Sys2Proof.Certificates

open Sys2Proof Sys2Proof.Machine Sys2Proof.Config

/-- Settles O20: what one store read can do, its answer by the device's rule of each cell. -/
theorem readCell : Obligations.ReadCell := by
  intro s a hio hp
  obtain ⟨v, u, hu, law⟩ := memRead_law a s.started
  obtain ⟨hexec, hret⟩ := exec_bus (i := .readCell a.toNat) (cells := clearedCells [a]) (v := .byte v) (ws := [])
    (readCell_comesTo a) hio (by rw [readCellBody, run_bind, hu]; rfl) law.trace (by simp [storedCells, readCells])
  exact ⟨_, v, hexec, hret, fun e => ⟨law.regAlow e hp, law.regAtop e hp⟩,
    fun e => ⟨law.regCclr e hp, law.regCflags e hp, law.regC e hp⟩, fun e => law.regD e hp, law.steady⟩

/-- Settles O21: LATCH_READ's read is the nibble source's answer, READ_CELL's the law of one store read. -/
theorem readNibbleCell : Obligations.ReadNibbleCell := by
  intro s c sel nib hp ht
  refine ⟨fun hs => memReadNib_steady nib hp ht hs, fun hio hr hs => ?_⟩
  obtain ⟨t, v, hexec, hret, -, -, -, hv⟩ := readCell s nib hio hp
  obtain rfl := hv hr hs
  have hclear : clearedCells [nib] = [] := by simp [clearedCells, hr.2.2.1]
  exact ⟨t, hexec, hclear ▸ hret⟩

/-- Settles O22: what one store write can do; a write of Register C or D stores nothing. -/
theorem writeCell : Obligations.WriteCell := by
  intro s a v hio hp
  obtain ⟨u, hu, law⟩ := memWrite_law a v s.started
  obtain ⟨hexec, hret⟩ := exec_bus (i := .writeCell a.toNat v.toNat) (cells := [a]) (v := .unit) (ws := [])
    (writeCell_comesTo a v) hio (by rw [writeCellBody, run_stmt, hu]; rfl) law.trace
    (by simp [storedCells, readCells, clearedCells])
  refine ⟨_, hexec, ?_, ?_, ?_, fun hpl ha => ?_⟩
  · split
    · rename_i ha
      exact hret.drop (by rcases ha with rfl | rfl <;> decide) fun hs => hu ▸ memWrite_x_readOnly ha v hp hs
    · exact hret
  · rintro rfl
    exact law.stored (by decide) hp
  · rintro rfl
    exact (law.stored (by decide) hp).trans (storedB_eq _ v)
  · rcases ha with ha | ha
    · exact law.plainStored ha hpl hp
    · have hx := memWrite_x_quiet a v s.started hp ha
      rw [hu, storedByte_plain _ _ _ hpl] at hx
      exact hx

/-- Settles O36: a store read of Register B, then a store write of it. -/
theorem setAlarmEnabled : Obligations.SetAlarmEnabled := by
  intro s on b hio hb
  obtain ⟨rb, r, hr, rlaw⟩ := memRead_law b s.started
  obtain ⟨u, hu, wlaw⟩ := memWrite_law b (withAie rb on) r
  have hbody : (setAlarmEnabledBody s.params on).run s.started = ((.unit, []), u) := by
    simp only [setAlarmEnabledBody, run_stmt, ← hb, hr, hu, run_pure]
  obtain ⟨hexec, hret⟩ := exec_bus (i := .setAlarmEnabled (if on then 1#8 else 0#8)) (cells := [b]) (v := .unit) (ws := [])
    (b := setAlarmEnabledBody s.params on) (by cases on <;> rfl) hio hbody
    (by rw [wlaw.trace, rlaw.trace, rlaw.params]) (by simp [storedCells, readCells, clearedCells, hb])
  refine ⟨_, rb, hexec, ?_, rlaw.steady, fun hp hB k hk => ?_⟩
  · cases on <;> exact hret
  · subst hB
    have hx : u.x REG_B = storedB s.params.setClearsUie (withAie rb on) :=
      (wlaw.stored (by decide) (rlaw.pres hp)).trans (by rw [rlaw.params]; rfl)
    rw [finish_x, hx, storedB_bits _ _ k hk, withAie_bits _ _ k hk, withAie_bits _ _ 7 (by omega)]
    by_cases h5 : k = 5
    · simp [h5]
    · simp [h5]

/-- Settles O52: one read of the platform register, decoded by its parameters. -/
theorem platformStatus : Obligations.PlatformStatus := by
  intro s hio
  obtain ⟨hexec, hret⟩ := exec_bus (i := .platformStatus) (cells := []) (u := (platPortIn s.started).2)
    (v := .platform (platformRecord s.params s.plat)) (ws := []) (tr := [.inp s.params.platPort s.plat])
    (b := platformStatusBody s.params) rfl hio (platformStatusBody_run _ _) (platPortIn_trace _)
    (by simp [storedCells, readCells, clearedCells])
  refine ⟨_, _, hexec, hret, platPortIn_idx _, rfl, rfl, fun code h hc => ?_, fun hi lo hhi hlo => ?_⟩
  · obtain rfl := hc.trans (languageCode_toNat s.params s.plat).symm
    cases hn : s.params.langName[(languageCode s.params s.plat).toNat] <;> simp only [platformRecord, namedCode, hn]
  · simp only [platformRecord, displayCode, ← hhi, ← hlo]
    cases hi <;> cases lo
    · cases h : s.params.dispName0 <;> simp [displayName, namedCode, h]
    · rfl
    · cases h : s.params.dispName2 <;> simp [displayName, namedCode, h]
    · cases h : s.params.dispName3 <;> simp [displayName, namedCode, h]

/-- Settles O42: two store reads, or two store writes and the checksum update. -/
theorem memoryWords : Obligations.MemoryWords := by
  intro s which n lo hi hlo hhi hio hp hv hf
  subst hhi
  obtain ⟨mlo, mhi⟩ := memword_config hv which hlo
  have plo := alarmConfig_plain hf mlo
  have phi := alarmConfig_plain hf mhi
  have hw := hlo ▸ memwordOf_code s.params which
  refine ⟨?_, ?_, fun hn => ?_⟩
  · rw [hlo, (memword_adjacent hv).1.symm, (memword_adjacent hv).2.symm]
    cases which <;> rfl
  · obtain ⟨u, hu, htr⟩ := getMemwordBody_run (s := s.started) plo.1 phi.1 ⟨hp, plo.2.1, plo.2.2.2⟩
      ⟨hp, phi.2.1, phi.2.2.2⟩
    obtain ⟨hexec, hret⟩ := exec_bus (i := .getMemword (if which then 1#8 else 0#8)) (cells := []) (ws := [])
      (b := getMemwordBody (wordCells lo)) (by simp [operation, getMemwordOp, hw]) hio hu htr
      (by simp [storedCells, readCells, clearedCells, hw, wordCells, plo.2.2.2.1, phi.2.2.2.1])
    rw [word_littleEndian] at hexec hret
    exact ⟨_, hexec, hret⟩
  · obtain ⟨u, hu, htr, hxl, hxh, hsum⟩ := setMemwordBody_run (BitVec.ofInt 16 n) (s := s.started) hp (checksumPlain hv hf)
      plo phi (by bv_omega) ⟨alarmConfig_not_checksum hf mlo, alarmConfig_not_checksum hf mhi⟩
    obtain ⟨hexec, hret⟩ := exec_bus (i := .setMemword (if which then 1#8 else 0#8) n) (ws := []) (v := .unit)
      (cells := lo :: (lo + 1#6) :: checksumCells s.params)
      (b := setMemwordBody s.params (wordCells lo) (BitVec.ofInt 16 n))
      (by simp [operation, setMemwordOp, hw, checkRange_in (show (0 : Int) ≤ n ∧ (n : Int) ≤ 65535 by omega)]) hio hu htr
      (by simp [storedCells, readCells, hw, wordCells, show clearedCells coveredCells = [] by decide])
    rw [word_low, word_high] at hret
    rw [word_low] at hxl
    rw [word_high] at hxh
    exact ⟨_, hexec, hret, hxl, hxh, hsum⟩

end Sys2Proof.Certificates
end

section
/-! SUPPORT. The wire form (30_encoding.md R141, R145): the reader of each kind of operand takes exactly what its writer puts,
and so the decoder takes exactly the wire forms of the well-formed requests. -/

namespace Sys2Proof

open Sys2Proof.Laws.EncodedForm (leBytes_length putInt_length)

/-! ## Little-endian values -/

theorem leValue_leBytes : ∀ n v, leValue (leBytes n v) = v % 256 ^ n
  | 0, v => by simp [leBytes, leValue, Nat.mod_one]
  | n + 1, v => by
    rw [leBytes, leValue, leValue_leBytes n, BitVec.toNat_ofNat, Nat.pow_succ' (n := n), Nat.mod_mul (b := 256 ^ n)]

theorem leBytes_leValue : ∀ l, leBytes l.length (leValue l) = l
  | [] => rfl
  | b :: l => by
    have hhead : BitVec.ofNat 8 (b.toNat + 256 * leValue l) = b := by bv_omega
    have htail : (b.toNat + 256 * leValue l) / 256 = leValue l := by omega
    rw [List.length_cons, leValue, leBytes, hhead, htail, leBytes_leValue l]

theorem leValue_lt : ∀ l, leValue l < 256 ^ l.length
  | [] => by decide
  | b :: l => by
    have := leValue_lt l
    rw [leValue, List.length_cons, Nat.pow_succ']
    omega

/-! ## Operands (30_encoding.md R141) -/

/-- A reader takes exactly what a writer puts for the values in its range, and leaves the bytes after it. -/
def Reads {α : Type} (take : List Byte → Option (α × List Byte)) (ok : α → Bool) (put : α → List Byte) : Prop :=
  ∀ l a r, take l = some (a, r) ↔ ok a = true ∧ l = put a ++ r

section
variable {α δ : Type} {take : List Byte → Option (α × List Byte)} {ok : α → Bool} {put : α → List Byte}
  {l : List Byte} {x : δ} (ht : Reads take ok put)
include ht

theorem Reads.take_put {a : α} (h : ok a = true) (r : List Byte) : take (put a ++ r) = some (a, r) := (ht _ _ _).mpr ⟨h, rfl⟩

/-- An operand read before the rest of a request: what was read, and that the rest comes from the bytes after it. -/
theorem Reads.of_bind {k : α × List Byte → Option δ} (h : (take l).bind k = some x) :
    ∃ a m, ok a = true ∧ l = put a ++ m ∧ k (a, m) = some x := by
  obtain ⟨⟨a, m⟩, hl, hk⟩ := Option.bind_eq_some_iff.mp h
  obtain ⟨hok, hl⟩ := (ht _ _ _).mp hl
  exact ⟨a, m, hok, hl, hk⟩

/-- The last operand of a request. -/
theorem Reads.of_map {g : α × List Byte → δ} (h : (take l).map g = some x) :
    ∃ a m, ok a = true ∧ l = put a ++ m ∧ g (a, m) = x := by
  obtain ⟨⟨a, m⟩, hl, hg⟩ := Option.map_eq_some_iff.mp h
  obtain ⟨hok, hl⟩ := (ht _ _ _).mp hl
  exact ⟨a, m, hok, hl, hg⟩

end

theorem takeRaw_reads (n : Nat) : Reads (takeRaw n) (fun p => p.length = n) id := by
  intro l p r
  simp only [takeRaw, Option.ite_none_right_eq_some, Option.some.injEq, Prod.mk.injEq, decide_eq_true_eq, id]
  constructor
  · rintro ⟨hn, rfl, rfl⟩
    exact ⟨List.length_take_of_le hn, (List.take_append_drop n l).symm⟩
  · rintro ⟨rfl, rfl⟩
    simp

theorem takeByte_reads : Reads takeByte (fun _ => true) fun b => [b] := by
  intro l b r
  cases l <;> simp [takeByte]

theorem takeSnap_reads : Reads takeSnap snapOk id := takeRaw_reads 64

theorem takeSnap_append {a : List Byte} (h : snapOk a = true) (r : List Byte) : takeSnap (a ++ r) = some (a, r) :=
  takeSnap_reads.take_put h r

/-- A word's two's-complement value is in the wire range, and the value's word is the word. -/
theorem word_of_int (w : BitVec 32) : intOk w.toInt = true ∧ BitVec.ofInt 32 w.toInt = w := by
  have := w.toInt_lt
  have := w.le_toInt
  simp only [intOk, Bool.and_eq_true, decide_eq_true_eq, BitVec.ofInt_toInt, and_true]
  omega

/-- A value in the wire range is its word's two's-complement value. -/
theorem int_of_word {n : Int} (h : intOk n = true) : (BitVec.ofInt 32 n).toInt = n := by
  simp only [intOk, Bool.and_eq_true, decide_eq_true_eq] at h
  exact BitVec.toInt_ofInt_eq_self (by decide) (by omega) (by omega)

theorem putInt_of_bytes {p : List Byte} (h : p.length = 4) : putInt (BitVec.ofNat 32 (leValue p)).toInt = p := by
  have hlt : leValue p < 256 ^ 4 := h ▸ leValue_lt p
  have hw : (BitVec.ofNat 32 (leValue p)).toNat = leValue p := Nat.mod_eq_of_lt hlt
  rw [putInt, (word_of_int _).2, hw, ← h, leBytes_leValue]

theorem bytes_of_putInt {n : Int} (h : intOk n = true) : (BitVec.ofNat 32 (leValue (putInt n))).toInt = n := by
  have hw : leValue (putInt n) = (BitVec.ofInt 32 n).toNat :=
    (leValue_leBytes 4 _).trans (Nat.mod_eq_of_lt (BitVec.isLt _))
  rw [hw, BitVec.ofNat_toNat, BitVec.setWidth_eq, int_of_word h]

theorem takeInt_reads : Reads takeInt intOk putInt := by
  intro l n r
  simp only [takeInt, Option.map_eq_some_iff, Prod.exists, Prod.mk.injEq, takeRaw_reads 4 l, decide_eq_true_eq, id]
  constructor
  · rintro ⟨p, _, ⟨hp, rfl⟩, rfl, rfl⟩
    exact ⟨(word_of_int _).1, by rw [putInt_of_bytes hp]⟩
  · rintro ⟨hn, rfl⟩
    exact ⟨putInt n, r, ⟨putInt_length n, rfl⟩, bytes_of_putInt hn, rfl⟩

theorem takeBytes_reads : Reads takeBytes bytesOk putBytes := by
  intro l d r
  simp only [takeBytes, Option.bind_eq_some_iff, Prod.exists, takeRaw_reads _ _, decide_eq_true_eq, id, bytesOk, putBytes,
    List.append_assoc]
  constructor
  · rintro ⟨p, _, ⟨hp, rfl⟩, hd, rfl⟩
    have hlt := leValue_lt p
    rw [hp] at hlt
    exact ⟨by omega, by rw [hd, ← hp, leBytes_leValue]⟩
  · rintro ⟨hd, rfl⟩
    exact ⟨_, _, ⟨leBytes_length _ _, rfl⟩, by rw [leValue_leBytes]; omega, rfl⟩

/-! ## Requests (30_encoding.md R145) -/

/-- What the decoder reads for an operation code, if anything, is a well-formed request of that code, spelled by the bytes it is
read from. -/
def Spelled (code : Nat) (l : List Byte) (x : Option (Option (Instr × List Byte))) : Prop :=
  ∀ i r, x = some (some (i, r)) → i.opcode.toNat = code ∧ i.wf = true ∧ l = i.operandBytes ++ r

/-- A request's operation code, range check and operand bytes. -/
def Instr.Form (i : Instr) (code : Nat) (ok : Bool) (bytes : List Byte) : Prop :=
  i.opcode.toNat = code ∧ i.wf = ok ∧ i.operandBytes = bytes

section
variable {α β γ : Type} {code : Nat} {l : List Byte}
  {takeA : List Byte → Option (α × List Byte)} {okA : α → Bool} {putA : α → List Byte}
  {takeB : List Byte → Option (β × List Byte)} {okB : β → Bool} {putB : β → List Byte}
  {takeC : List Byte → Option (γ × List Byte)} {okC : γ → Bool} {putC : γ → List Byte}

theorem Spelled.noOperand {i : Instr} (hf : i.Form code true []) : Spelled code l (some (some (i, l))) := by
  rintro _ _ ⟨⟩
  obtain ⟨hop, hwf, hbytes⟩ := hf
  exact ⟨hop, hwf, by rw [hbytes, List.nil_append]⟩

theorem Spelled.oneOperand {f : α → Instr} (ha : Reads takeA okA putA) (hf : ∀ a, (f a).Form code (okA a) (putA a)) :
    Spelled code l (some ((takeA l).map fun a => (f a.1, a.2))) := by
  intro i r h
  obtain ⟨a, _, oka, rfl, ⟨⟩⟩ := ha.of_map (Option.some.inj h)
  obtain ⟨hop, hwf, hbytes⟩ := hf a
  exact ⟨hop, by rw [hwf, oka], by rw [hbytes]⟩

theorem Spelled.twoOperands {f : α → β → Instr} (ha : Reads takeA okA putA) (hb : Reads takeB okB putB)
    (hf : ∀ a b, (f a b).Form code (okA a && okB b) (putA a ++ putB b)) :
    Spelled code l (some ((takeA l).bind fun a => (takeB a.2).map fun b => (f a.1 b.1, b.2))) := by
  intro i r h
  obtain ⟨a, _, oka, rfl, ha'⟩ := ha.of_bind (Option.some.inj h)
  obtain ⟨b, _, okb, rfl, ⟨⟩⟩ := hb.of_map ha'
  obtain ⟨hop, hwf, hbytes⟩ := hf a b
  exact ⟨hop, by rw [hwf, oka, okb]; rfl, by rw [hbytes, List.append_assoc]⟩

theorem Spelled.threeOperands {f : α → β → γ → Instr} (ha : Reads takeA okA putA) (hb : Reads takeB okB putB)
    (hc : Reads takeC okC putC)
    (hf : ∀ a b c, (f a b c).Form code (okA a && okB b && okC c) (putA a ++ (putB b ++ putC c))) :
    Spelled code l (some ((takeA l).bind fun a => (takeB a.2).bind fun b => (takeC b.2).map fun c =>
      (f a.1 b.1 c.1, c.2))) := by
  intro i r h
  obtain ⟨a, _, oka, rfl, ha'⟩ := ha.of_bind (Option.some.inj h)
  obtain ⟨b, _, okb, rfl, hb'⟩ := hb.of_bind ha'
  obtain ⟨c, _, okc, rfl, ⟨⟩⟩ := hc.of_map hb'
  obtain ⟨hop, hwf, hbytes⟩ := hf a b c
  exact ⟨hop, by rw [hwf, oka, okb, okc]; rfl, by rw [hbytes, List.append_assoc, List.append_assoc]⟩

end

/-- The decoder reads a request only from its wire form. The cases are grouped by the operands of the code, the codes numbered
in the order of the map. -/
theorem decodeOperands_spelled (op : Byte) (l : List Byte) : Spelled op.toNat l (decodeOperands op l) := by
  unfold decodeOperands
  generalize op.toNat = code
  split
  -- no operand: 0x10, 0x14, 0x20, 0x34, 0x38 to 0x3A, 0x40 to 0x42, 0x51, 0x60, 0x62
  case h_5 | h_9 | h_12 | h_17 | h_21 | h_22 | h_23 | h_24 | h_25 | h_26 | h_28 | h_29 | h_31 =>
    exact .noOperand ⟨rfl, rfl, rfl⟩
  -- 0x01, 0x13
  case h_1 | h_8 => exact .oneOperand takeInt_reads fun _ => ⟨rfl, rfl, rfl⟩
  -- 0x16, 0x30, 0x32, 0x36, 0x50
  case h_11 | h_13 | h_15 | h_19 | h_27 => exact .oneOperand takeByte_reads fun _ => ⟨rfl, rfl, rfl⟩
  -- 0x61
  case h_30 => exact .oneOperand takeBytes_reads fun _ => ⟨rfl, rfl, rfl⟩
  -- 0x02
  case h_2 => exact .twoOperands takeInt_reads takeInt_reads fun _ _ => ⟨rfl, rfl, rfl⟩
  -- 0x03, 0x04
  case h_3 | h_4 => exact .twoOperands takeInt_reads takeByte_reads fun _ _ => ⟨rfl, (Bool.and_true _).symm, rfl⟩
  -- 0x31, 0x33, 0x35, 0x37
  case h_14 | h_16 | h_18 | h_20 => exact .twoOperands takeByte_reads takeInt_reads fun _ _ => ⟨rfl, rfl, rfl⟩
  -- 0x63
  case h_32 => exact .twoOperands takeSnap_reads takeSnap_reads fun _ _ => ⟨rfl, rfl, rfl⟩
  -- 0x11, 0x12, 0x15
  case h_6 | h_7 | h_10 =>
    exact .threeOperands takeInt_reads takeInt_reads takeInt_reads fun _ _ _ => ⟨rfl, rfl, rfl⟩
  -- a code that is not in the map
  case h_33 => rintro _ _ ⟨⟩

/-- What the decoder reads from the operation code and operand bytes of a well-formed request, with any bytes after them. -/
theorem decodeOperands_operandBytes (i : Instr) (r : List Byte) (h : i.wf = true) :
    decodeOperands i.opcode (i.operandBytes ++ r) = some (some (i, r)) := by
  cases i
  case readTime | readAlarm | readStatus | getEquip | getDiag | clearDiag | getShutdown | ckCompute | ckVerify | ckUpdate
      | platformStatus | exportSnapshot | factoryReset => rfl
  case setAlarmEnabled | getFloppy | getHarddisk | getMemword | latchRead => rfl
  case importSnapshot => simp [Instr.opcode, Instr.operandBytes, decodeOperands, takeBytes_reads.take_put h]
  case diff =>
    obtain ⟨ha, hb⟩ := Bool.and_eq_true_iff.mp h
    simp [Instr.opcode, Instr.operandBytes, decodeOperands, takeSnap_append ha, takeSnap_append hb]
  case readCell | writeCell | bcdDecode | bcdEncode | writeTime | writeDate | writeDow | writeAlarm | setFloppy | setHarddisk
      | setEquip | setMemword =>
    simp_all [Instr.wf, Instr.opcode, Instr.operandBytes, decodeOperands, takeByte, takeInt_reads.take_put]

/-- A byte string decodes to a request exactly if the request is well-formed and the string is its wire form and the bytes after
it (30_encoding.md R141, R142). -/
theorem decode_eq_ok (l : List Byte) (i : Instr) (r : List Byte) :
    decode l = .ok (i, r) ↔ i.wf = true ∧ l = encode i ++ r := by
  constructor
  · intro h
    cases l with
    | nil => cases h
    | cons op l =>
      have hs := decodeOperands_spelled op l i r
      rw [decode] at h
      split at h
      case h_1 | h_2 => cases h
      case h_3 x hx =>
        cases h
        obtain ⟨hop, hwf, rfl⟩ := hs hx
        exact ⟨hwf, by rw [encode, BitVec.eq_of_toNat_eq hop, List.cons_append]⟩
  · rintro ⟨hwf, rfl⟩
    rw [encode, List.cons_append, decode, decodeOperands_operandBytes i r hwf]

end Sys2Proof

namespace Sys2Proof.Certificates

open Sys2Proof Sys2Proof.Machine

/-- Settles O1: what a writer puts for an operand in its range, the operand's reader gives back. -/
theorem decodeOfEncode : Obligations.DecodeOfEncode := fun i rest hwf => (decode_eq_ok _ i rest).mpr ⟨hwf, rfl⟩

/-- Settles O2: an operand's reader takes nothing but what the operand's writer puts. -/
theorem encodeOfDecode : Obligations.EncodeOfDecode := fun l rest i h => (decode_eq_ok l i rest).mp h

/-- Settles O4: the five words are the wire forms of well-formed requests, and the bytes after one of them. -/
theorem wireWords : Obligations.WireWords := by
  simp only [Obligations.WireWords, decode_eq_ok]
  decide

/-- Settles O5: a step takes the first request and runs what it decodes to. -/
theorem stepRunsRequest : Obligations.StepRunsRequest := fun _ _ _ _ _ hr hq hd => step_accepts hr hq hd

end Sys2Proof.Certificates
end

section
/-! SUPPORT. The store with no RTC, on which every bus primitive acts as the clock agent alone; and operations that fail
validation. -/

namespace Sys2Proof.Machine

open Sys2Proof.Config

/-! ## No RTC (10_state.md R86, 40_register_store.md R174) -/

/-- Without an RTC a data read answers a draw and changes nothing (10_state.md R86). -/
theorem deviceRead_absent (d : Draw) {s : State} (hp : s.rtcPresent = false) : deviceRead d s = (d.absent, s) := by
  simp [deviceRead, hp]

/-- From `s`, with no RTC, to `t` no cell was read or written on the device: the clock agent alone acted on the store. -/
def Absorbed (s t : State) : Prop := s.rtcPresent = false → Along [] [] s t ∧ FlagsSet s t

theorem Absorbed.refl (s : State) : Absorbed s s := fun _ => ⟨.refl s, .refl s⟩

theorem Absorbed.trans {s t u : State} (h : Absorbed s t) (g : Absorbed t u) : Absorbed s u := fun hp => by
  obtain ⟨al, fl⟩ := h hp
  obtain ⟨al', fl'⟩ := g (al.same.rtcPresent.trans hp)
  exact ⟨al.trans al', fl.trans fl'⟩

theorem perform_along_absent (q : Request) {s : State} (hp : s.rtcPresent = false) : Along [] [] s (perform q s).2 := by
  cases q with
  | barrier => exact .barrier _ _ s
  | select v => exact .rtcSelect _ _ v s
  | dataIn => exact .rtcDataIn_absent _ _ s hp
  | dataOut v => exact .rtcDataOut_absent _ _ v s hp
  | nibDataIn c => exact .nibDataIn _ _ c s
  | selIn c p => exact .selPortIn _ _ c p s
  | selOut c p v => exact .selPortOut _ _ c p v s
  | nibIn c p => exact .nibPortIn _ _ c p s
  | platIn => exact .platPortIn _ _ s

/-- Without an RTC a data read does not clear Register C. -/
theorem rtcDataIn_flagsSet_absent {s : State} (hp : s.rtcPresent = false) : FlagsSet s (rtcDataIn s).2 := by
  obtain ⟨f, hf⟩ := agentTurn_x_regC s
  refine ⟨f, ?_⟩
  simp only [rtcDataIn, device_bind, device_pure, device_modify, record_x]
  rw [deviceRead_absent _ (by simpa using hp), hf]

theorem perform_absorbed (q : Request) (s : State) : Absorbed s (perform q s).2 := fun hp => by
  refine ⟨perform_along_absent q hp, ?_⟩
  by_cases hq : q = .dataIn
  · subst hq
    exact rtcDataIn_flagsSet_absent hp
  · exact perform_flagsSet hq s

/-- Every primitive of an operation leaves the store of an absent RTC to the clock agent. -/
theorem absorbed_law {p : Params} {rd wr : List CellAddr} {ch : List Channel} : OpLaw p rd wr ch Absorbed :=
  .of_perform .refl .trans perform_absorbed

/-! ## Validation (60_exceptions.md R403, R406, R409) -/

@[simp] theorem comesTo_fails (e : OpError) : (Operation.fails e).comesTo = .fails e := rfl

/-- An operation that comes to an error, whatever the port permission, ends with it and changes nothing else. -/
theorem exec_failed {i : Instr} {s : State} {e : OpError} (h : (operation s.params i).comesTo = .fails e) :
    exec i s = .next (s.failed e) := by
  rw [exec_operation, ← runOperation_comesTo, h]
  rfl

theorem modeOf_none {m : Byte} (h0 : m ≠ 0#8) (h1 : m ≠ 1#8) : modeOf m = none := by
  rw [modeOf, if_neg h0, if_neg h1]

theorem channelOf_none {c : Byte} (h0 : c ≠ 0#8) (h1 : c ≠ 1#8) : channelOf c = none := by
  rw [channelOf, if_neg h0, if_neg h1]

end Sys2Proof.Machine

namespace Sys2Proof.Certificates

open Sys2Proof Sys2Proof.Machine Sys2Proof.Config

/-- Settles O23: every operation ends, and with no RTC its bus primitives leave the store to the clock agent. -/
theorem absentRtc : Obligations.AbsentRtc := by
  intro i s hp
  obtain ⟨t, ht, e⟩ := exec_ends i s
  cases e with
  | err e => exact ⟨_, _, ht, rfl, fun _ _ => rfl, FlagsSet.refl s⟩
  | value v _ => exact ⟨_, _, ht, rfl, fun _ _ => rfl, FlagsSet.refl s⟩
  | ran u v ws _ _ hk =>
    obtain ⟨al, fl⟩ := hk _ absorbed_law hp
    exact ⟨_, _, ht, rfl, fun a ha => al.steady rfl (by simp) (by simp) (by simp) ha, fl⟩

/-- Settles O17: each operation comes to the error of its first bad operand. -/
theorem storeCodecValidation : Obligations.StoreCodecValidation := by
  intro s a v m
  refine ⟨fun ha => ⟨exec_failed ?_, exec_failed ?_⟩, fun ha hv => exec_failed ?_, fun hv => exec_failed ?_,
    fun hv h0 h1 => exec_failed ?_, fun h0 h1 => exec_failed ?_, fun hv => exec_failed ?_, fun hv => exec_failed ?_,
    fun h0 h1 => exec_failed ?_⟩
  · simp [operation, readCellOp, checkRange_out ha]
  · simp [operation, writeCellOp, checkRange_out ha]
  · simp [operation, writeCellOp, checkRange_in ha, checkRange_out hv]
  · simp [operation, bcdDecodeOp, checkRange_out hv]
  · simp [operation, bcdDecodeOp, checkRange_in hv, modeOf_none h0 h1]
  · simp [operation, bcdEncodeOp, modeOf_none h0 h1]
  · simp [operation, bcdEncodeOp, modeOf, checkIf, checkRange_out hv]
  · simp [operation, bcdEncodeOp, modeOf, checkIf, checkRange_out hv]
  · simp [operation, latchReadOp, channelOf_none h0 h1]

end Sys2Proof.Certificates
end

section
/-! SUPPORT. The codec of 41_bcd_codec.md as arithmetic on the byte's value, and READ_TIME, which decodes by it what it read. -/

namespace Sys2Proof.Machine

open Sys2Proof.Config

/-! ## The codec (41_bcd_codec.md R190-R192) -/

@[simp] theorem decodeByte_bin (b : Byte) : decodeByte b .bin = b.toNat := rfl

@[simp] theorem encodeByte_bin (n : Nat) : encodeByte n .bin = BitVec.ofNat 8 n := rfl

/-- A byte decoded in BCD mode is ten times its high nibble and its low one, whatever they are. -/
theorem decodeByte_bcd (b : Byte) : decodeByte b .bcd = b.toNat / 16 * 10 + b.toNat % 16 := by
  have := b.isLt
  simp only [decodeByte, BitVec.extractLsb'_toNat, Nat.shiftRight_eq_div_pow]
  omega

/-- A number encoded in BCD mode has its tens in the high nibble and its units in the low one, which do not overlap. -/
theorem encodeByte_bcd (n : Nat) : encodeByte n .bcd = BitVec.ofNat 8 (16 * (n / 10) + n % 10) := by
  rw [encodeByte, ← Nat.shiftLeft_add_eq_or_of_lt (by omega), Nat.shiftLeft_eq, Nat.mul_comm]

/-- Every two-digit number is packed in one byte. -/
theorem encodeByte_bcd_toNat {n : Nat} (h : n ≤ 99) : (encodeByte n .bcd).toNat = 16 * (n / 10) + n % 10 := by
  rw [encodeByte_bcd, BitVec.toNat_ofNat]
  omega

theorem encodeByte_bin_toNat {n : Nat} (h : n ≤ 255) : (encodeByte n .bin).toNat = n := by
  rw [encodeByte_bin, BitVec.toNat_ofNat]
  omega

/-! ## Operations without bus events (41_bcd_codec.md R194, R195) -/

@[simp] theorem comesTo_value (v : Value) : (Operation.value v).comesTo = .value v := rfl

/-- An operation that comes to a value, whatever the port permission, ends with it and changes nothing else. -/
theorem exec_answered {i : Instr} {s : State} {v : Value} (h : (operation s.params i).comesTo = .value v) :
    exec i s = .next (s.answered v) := by
  rw [exec_operation, ← runOperation_comesTo, h]
  rfl

/-! ## READ_TIME (42_time_alarm.md R215) -/

/-- The cells READ_TIME reads after the poll, in its order. -/
def timeReads (p : Params) : List CellAddr :=
  [p.cellMap.regB, p.cellMap.sec, p.cellMap.min, p.cellMap.hour, p.cellMap.dow, p.cellMap.dom, p.cellMap.month, p.cellMap.year,
    p.centuryAddr]

/-- READ_TIME is the poll and then its reads in sequence; the bytes read, Register B's first, give the record. -/
theorem readTimeBody_run (s : State) : ∃ rb sec min hour dow dom month year century u,
    (memReadAll (timeReads s.params)).run ((waitUip s.params).run s).2 =
      ([rb, sec, min, hour, dow, dom, month, year, century], u) ∧
    (readTimeBody s.params).run s =
      ((.time (timeRecord rb sec min hour dow dom month year century), ((waitUip s.params).run s).1), u) := by
  rcases hpoll : (waitUip s.params).run s with ⟨ws, s0⟩
  obtain ⟨rb, s1, hrb, -⟩ := memRead_law s.params.cellMap.regB s0
  obtain ⟨sec, s2, hsec, -⟩ := memRead_law s.params.cellMap.sec s1
  obtain ⟨min, s3, hmin, -⟩ := memRead_law s.params.cellMap.min s2
  obtain ⟨hour, s4, hhour, -⟩ := memRead_law s.params.cellMap.hour s3
  obtain ⟨dow, s5, hdow, -⟩ := memRead_law s.params.cellMap.dow s4
  obtain ⟨dom, s6, hdom, -⟩ := memRead_law s.params.cellMap.dom s5
  obtain ⟨month, s7, hmonth, -⟩ := memRead_law s.params.cellMap.month s6
  obtain ⟨year, s8, hyear, -⟩ := memRead_law s.params.cellMap.year s7
  obtain ⟨century, s9, hcentury, -⟩ := memRead_law s.params.centuryAddr s8
  refine ⟨rb, sec, min, hour, dow, dom, month, year, century, s9, ?_, ?_⟩
  · simp only [timeReads, memReadAll, run_bind, run_pure, hrb, hsec, hmin, hhour, hdow, hdom, hmonth, hyear, hcentury]
  · simp only [readTimeBody, run_stmt, run_step, run_pure, hpoll, hrb, hsec, hmin, hhour, hdow, hdom, hmonth, hyear, hcentury]

end Sys2Proof.Machine

namespace Sys2Proof.Certificates

open Sys2Proof Sys2Proof.Machine Sys2Proof.Config

/-- Settles O28: the poll, then nine store reads, the first of which gives the mode of the others. -/
theorem readTime : Obligations.ReadTime := by
  rintro s cm hio rfl
  obtain ⟨polls, hrun, htr, hread, huip⟩ := poll_then_read (timeReads s.started.params) (readCells s.params .readTime)
    s.started List.mem_cons_self (fun _ h => List.mem_cons_of_mem _ h) (started_trace s)
  obtain ⟨rb, sec, min, hour, dow, dom, month, year, century, u, hreads, hbody⟩ := readTimeBody_run s.started
  rw [hreads] at htr hread huip
  obtain ⟨hexec, hret⟩ := exec_bus (i := .readTime) (b := readTimeBody s.params) rfl hio hbody htr (fun _ h => h)
  exact ⟨_, polls, _, rb, sec, min, hour, dow, dom, month, year, century, hexec, hrun, hret, hread, huip⟩

/-- Settles O24: a byte is in range and each mode code is one, so the value is the byte decoded. -/
theorem bcdDecode : Obligations.BcdDecode := by
  intro s raw
  have hraw := checkRange_in (f := .raw) (show (0 : Int) ≤ raw.toNat ∧ (raw.toNat : Int) ≤ 255 by have := raw.isLt; omega)
  refine ⟨exec_answered ?_, exec_answered ?_⟩
  · simp [operation, bcdDecodeOp, hraw, modeOf, decodeByte_bcd]
  · simp [operation, bcdDecodeOp, hraw, modeOf]

/-- Settles O25: in its mode's range a number passes the checks, and the value is the number encoded. -/
theorem bcdEncode : Obligations.BcdEncode := by
  intro s n
  refine ⟨fun hn => exec_answered ?_, fun hn => exec_answered ?_⟩
  · have hr := checkRange_in (f := .n) (show (0 : Int) ≤ n ∧ (n : Int) ≤ 99 by omega)
    simp [operation, bcdEncodeOp, modeOf, checkIf, hr, encodeByte_bcd]
  · have hr := checkRange_in (f := .n) (show (0 : Int) ≤ n ∧ (n : Int) ≤ 255 by omega)
    simp [operation, bcdEncodeOp, modeOf, checkIf, hr]

/-- Settles O26: each law by the arithmetic of tens and units; a nibble above 9 carries into the tens. -/
theorem codecLaws : Obligations.CodecLaws := by
  refine ⟨fun n hn => ?_, fun n hn => encodeByte_bin_toNat hn, fun b hhi hlo => ?_, fun b => ?_, by decide, by decide⟩
  · rw [decodeByte_bcd, encodeByte_bcd_toNat hn]
    omega
  · apply BitVec.eq_of_toNat_eq
    have hb := decodeByte_bcd b
    rw [encodeByte_bcd_toNat (by omega), hb]
    omega
  · exact BitVec.ofNat_toNat 8 b

end Sys2Proof.Certificates
end

section
/-! SUPPORT. The time and alarm fields of 42_time_alarm.md: the hour byte, what every halt bracket does, READ_ALARM, and what a
read finds after a write. -/

namespace Sys2Proof.Machine

open Sys2Proof.Config

/-! ## Encoded fields (42_time_alarm.md R217, R223) -/

/-- A two-digit number encoded in a mode is given back by it (41_bcd_codec.md R198). -/
theorem decodeByte_encodeByte {n : Nat} (h : n ≤ 99) (m : Mode) : decodeByte (encodeByte n m) m = n := by
  obtain ⟨hbcd, hbin, -⟩ := Certificates.codecLaws
  cases m with
  | bcd => exact hbcd n h
  | bin => exact hbin n (by omega)

/-- Bit 7 over an encoded hour of the 12-hour clock does not touch the number. -/
theorem hourByte_pm {n : Nat} (h : n ≤ 12) (m : Mode) : (encodeByte n m ||| 0x80#8).getLsbD 7 = true ∧
    decodeByte ((encodeByte n m ||| 0x80#8) &&& 0x7F#8) m = n := by
  cases m <;> revert n <;> decide

/-- An encoded hour of the 12-hour clock has bit 7 clear. -/
theorem hourByte_am {n : Nat} (h : n ≤ 12) (m : Mode) : (encodeByte n m).getLsbD 7 = false ∧
    decodeByte (encodeByte n m &&& 0x7F#8) m = n := by
  cases m <;> revert n <;> decide

theorem readHour_24 (raw : Byte) (m : Mode) : readHour raw m true = decodeByte raw m := rfl

/-- An hour byte read in 12-hour mode, by the cases of its bits 6:0 (42_time_alarm.md R217). -/
theorem readHour_12 {raw : Byte} {m : Mode} {h : Nat} (hd : decodeByte (raw &&& 0x7F#8) m = h) :
    (h = 12 → readHour raw m false = if raw.getLsbD 7 then 12 else 0) ∧
    (h < 12 → raw.getLsbD 7 = true → readHour raw m false = h + 12) ∧
    (h < 12 → raw.getLsbD 7 = false → readHour raw m false = h) ∧ (12 < h → readHour raw m false = h) := by
  simp only [readHour, hd, Bool.false_eq_true, if_false]
  refine ⟨fun e => if_pos e, fun hlt hpm => ?_, fun hlt ham => ?_, fun hgt => ?_⟩
  · rw [if_neg (by omega), if_pos ⟨hpm, hlt⟩]
  · rw [if_neg (by omega), if_neg (by rw [ham]; simp)]
  · rw [if_neg (by omega), if_neg (by omega)]

theorem writeHour_24 (h : Nat) (m : Mode) : writeHour h m true = encodeByte h m := rfl

theorem writeHour_midnight (m : Mode) : writeHour 0 m false = encodeByte 12 m := rfl

theorem writeHour_am {h : Nat} (m : Mode) (h0 : 0 < h) (h12 : h < 12) : writeHour h m false = encodeByte h m := by
  simp [writeHour, h12, Nat.ne_of_gt h0]

theorem writeHour_noon (m : Mode) : writeHour 12 m false = encodeByte 12 m ||| 0x80#8 := rfl

theorem writeHour_pm {h : Nat} (m : Mode) (h12 : 12 < h) : writeHour h m false = encodeByte (h - 12) m ||| 0x80#8 := by
  simp only [writeHour, Bool.false_eq_true, if_false]
  rw [if_neg (by omega), if_neg (by omega), if_neg (by omega)]

theorem readHour_noon (m : Mode) : readHour (encodeByte 12 m ||| 0x80#8) m false = 12 := by
  obtain ⟨hpm, hd⟩ := hourByte_pm (n := 12) (by omega) m
  rw [(readHour_12 hd).1 rfl, if_pos hpm]

theorem readHour_midnight (m : Mode) : readHour (encodeByte 12 m) m false = 0 := by
  obtain ⟨ham, hd⟩ := hourByte_am (n := 12) (by omega) m
  rw [(readHour_12 hd).1 rfl, ham, if_neg (by decide)]

/-- An hour written in 12-hour mode reads as it was, in each of the five cases of the rule (42_time_alarm.md R223). -/
theorem readHour_writeHour_12 {h : Nat} (hh : h ≤ 23) (m : Mode) : readHour (writeHour h m false) m false = h := by
  by_cases h0 : h = 0
  · subst h0
    rw [writeHour_midnight, readHour_midnight]
  · rcases Nat.lt_trichotomy h 12 with hlt | rfl | hgt
    · obtain ⟨ham, hd⟩ := hourByte_am (Nat.le_of_lt hlt) m
      rw [writeHour_am m (by omega) hlt, (readHour_12 hd).2.2.1 hlt ham]
    · rw [writeHour_noon, readHour_noon]
    · obtain ⟨hpm, hd⟩ := hourByte_pm (show h - 12 ≤ 12 by omega) m
      rw [writeHour_pm m hgt, (readHour_12 hd).2.1 (by omega) hpm]
      omega

/-- An hour written reads as it was, in all four encodings (42_time_alarm.md R223). -/
theorem readHour_writeHour {h : Nat} (hh : h ≤ 23) (m : Mode) (h24 : Bool) : readHour (writeHour h m h24) m h24 = h := by
  cases h24 with
  | false => exact readHour_writeHour_12 hh m
  | true => rw [writeHour_24, readHour_24, decodeByte_encodeByte (by omega)]

/-- No encoded minute or second is a wildcard byte (42_time_alarm.md R241). -/
theorem encodeByte_lt_wildcard {n : Nat} (h : n ≤ 59) (m : Mode) : (encodeByte n m).toNat < 0xC0 := by
  cases m with
  | bcd => rw [encodeByte_bcd_toNat (by omega)]; omega
  | bin => rw [encodeByte_bin_toNat (by omega)]; omega

/-- No encoded hour is a wildcard byte (42_time_alarm.md R241). -/
theorem writeHour_lt_wildcard {h : Nat} (hh : h ≤ 23) (m : Mode) (h24 : Bool) : (writeHour h m h24).toNat < 0xC0 := by
  cases m <;> cases h24 <;> revert h <;> decide

/-- An alarm field written reads as it was: the wildcard for −1, and the number by an encoding that no wildcard byte is in and
that is read back (42_time_alarm.md R242). -/
theorem alarmField_written (v : Int) {raw encoded : Byte} {dec : Byte → Nat} (hraw : raw = Spec.alarmByteOf v encoded)
    (hlt : encoded.toNat < 0xC0) (hdec : dec encoded = v.toNat) :
    Spec.alarmFieldOf raw (dec raw) = if v = -1 then .wildcard else .value v.toNat := by
  subst hraw
  by_cases hv : v = -1
  · rw [if_pos hv, Spec.alarmByteOf, if_pos hv]
    rfl
  · rw [if_neg hv, Spec.alarmByteOf, if_neg hv, Spec.alarmFieldOf, if_neg (Nat.not_le.mpr hlt), hdec]

/-! ## The written cells (42_time_alarm.md R210) -/

/-- The cells a time or alarm operation may write, Register B apart, and the configuration cells. -/
def fieldCells (p : Params) : List CellAddr := p.timeCells ++ p.centuryAddr :: p.alarmConfigCells

/-- Where the maps are the chip's, the field cells are distinct, and each stores the byte written. -/
theorem fieldCells_plain {p : Params} (hf : fitsChip p = true) :
    (fieldCells p).Nodup ∧ ∀ a ∈ fieldCells p, storesPlain a := by
  obtain ⟨hA, hB, hn, hCD, -⟩ := fitsChip_named hf
  have hperm : (fieldCells p).Perm (p.centuryAddr :: (p.timeCells ++ p.alarmConfigCells)) := List.perm_middle
  rw [Params.namedCells, List.nodup_cons, List.nodup_cons, List.nodup_cons, List.nodup_cons] at hn
  obtain ⟨hnA, hnB, -, -, hn⟩ := hn
  refine ⟨hperm.nodup_iff.mpr hn, fun a ha => ?_⟩
  have ha' := hperm.mem_iff.mp ha
  obtain ⟨hC, hD⟩ := hCD a (by simp only [Params.namedCells, List.mem_cons] at ha' ⊢; tauto)
  refine ⟨?_, ?_, hC, hD⟩
  · rintro rfl
    exact hnA (hA ▸ List.mem_cons_of_mem _ (List.mem_cons_of_mem _ (List.mem_cons_of_mem _ ha')))
  · rintro rfl
    exact hnB (hB ▸ List.mem_cons_of_mem _ (List.mem_cons_of_mem _ ha'))

/-- Field cells that stand together in the list, in their order. -/
theorem fieldCells_slice (p : Params) (k n : Nat) : (((fieldCells p).drop k).take n).Sublist (fieldCells p) :=
  (List.take_sublist n _).trans (List.drop_sublist k _)

/-- With an RTC, a cell that stores the byte written shows it when read (10_state.md R81, R82). -/
theorem readsPlain_of_storesPlain {s : State} (hp : s.rtcPresent = true) {a : CellAddr} (ha : storesPlain a) : s.readsPlain a :=
  ⟨hp, ha.1, ha.2.2.1, ha.2.2.2⟩

/-- With an RTC, a read of Register B shows what the writer left there. -/
theorem regB_read {t : State} {p : Params} {v w : Byte} {n : Nat} (hp : t.rtcPresent = true) (hf : fitsChip p = true)
    (hread : t.readsPlain p.cellMap.regB → t.Steady p.cellMap.regB n → v = t.x p.cellMap.regB) (hw : t.x REG_B = w) :
    v = w := by
  rw [(fitsChip_named hf).2.1] at hread
  exact (hread ⟨hp, by decide⟩ (.inl regB_not_agent)).trans hw

/-! ## The halt bracket (42_time_alarm.md R212, R213) -/

/-- Draws quiet for the events between two points, and for more, are quiet for the rest after them. -/
theorem Along.quiet_after {rd wr : List CellAddr} {s t : State} (al : Along rd wr s t) {ev : List BusEvent}
    (htr : t.trace = s.trace ++ ev) {n : Nat} (hq : s.QuietFor (ev.length + n)) : t.QuietFor n := by
  obtain ⟨ev', htr', h⟩ := al.events
  obtain rfl : ev' = ev := List.append_cancel_left (htr'.symm.trans htr)
  exact (h n hq).1

/-- The writes of a halt bracket from SET = 1 on: the fields, and Register B with SET = 0. -/
def bracketWrites (p : Params) (rb : Byte) (writes : List (CellAddr × Byte)) : List (CellAddr × Byte) :=
  writes ++ [(p.cellMap.regB, withoutSet rb)]

/-- A bracketed writer's program, but for the statements that only bind a local. -/
def bracketBody (p : Params) (writes : Byte → List (CellAddr × Byte)) : Bus (Value × List Warning) :=
  (haltBegin p).stmt fun rb => (memWriteAll (bracketWrites p rb (writes rb))).bind fun _ => .pure (.unit, [])

theorem run_bracketBody (p : Params) (writes : Byte → List (CellAddr × Byte)) (s : State) :
    (bracketBody p writes).run s = ((.unit, []), ((haltEnd p ((haltBegin p).run s).1).run
      ((memWriteAll (writes ((haltBegin p).run s).1)).run ((haltBegin p).run s).2).2).2) := by
  simp only [bracketBody, bracketWrites, haltEnd, memWriteAll_append, memWriteAll, run_stmt, run_bind, run_pure]

/-- A write of Register B with SET = 0 stores the byte (10_state.md R55). -/
theorem storedByte_withoutSet (clears : Bool) (old rb : Byte) :
    storedByte clears REG_B old (withoutSet rb) = rb &&& 0x7F#8 :=
  (storedB_eq clears _).trans (if_neg (by simp [withoutSet]))

/-- `halt_begin()`: a read of Register B and a write of it. -/
theorem haltBegin_law (s : State) : ∃ rb t, (haltBegin s.params).run s = (rb, t) ∧ t.params = s.params ∧
    t.trace = s.trace ++ (readEvents s.params s.params.cellMap.regB rb ++
      writeEvents s.params s.params.cellMap.regB (withSet rb)) ∧
    (s.rtcPresent = true → t.rtcPresent = true) ∧ (∀ n, s.QuietFor (7 + n) → t.QuietFor n) ∧
    (s.readsPlain s.params.cellMap.regB → s.Steady s.params.cellMap.regB 3 → rb = s.x s.params.cellMap.regB) := by
  obtain ⟨rb, r, hr, rlaw⟩ := memRead_law s.params.cellMap.regB s
  obtain ⟨t, ht, wlaw⟩ := memWrite_law s.params.cellMap.regB (withSet rb) r
  refine ⟨rb, t, by simp only [haltBegin, run_bind, run_pure, hr, ht], wlaw.params.trans rlaw.params, ?_,
    fun hp => wlaw.pres (rlaw.pres hp), fun n hq => ?_, rlaw.steady⟩
  · rw [wlaw.trace, rlaw.trace, rlaw.params, List.append_assoc]
  · exact wlaw.along.quiet_after wlaw.trace (rlaw.quiet (4 + n) (by rwa [show 3 + (4 + n) = 7 + n by omega])).1

/-- A halt bracket: its events; Register B ends with SET = 0, and each field cell, distinct from the others, with its byte. -/
theorem bracketBody_run (writes : Params → Byte → List (CellAddr × Byte)) (s : State) :
    ∃ rb t, (bracketBody s.params (writes s.params)).run s = ((.unit, []), t) ∧
      t.trace = s.trace ++ Spec.bracket s.params rb (writes s.params rb) ∧
      (s.readsPlain s.params.cellMap.regB → s.Steady s.params.cellMap.regB 3 → rb = s.x s.params.cellMap.regB) ∧
      (s.rtcPresent = true → fitsChip s.params = true →
        ((writes s.params rb).map Prod.fst).Sublist (fieldCells s.params) → t.x REG_B = rb &&& 0x7F#8 ∧
        ∀ e ∈ writes s.params rb,
          agentCell e.1 = false ∨ s.QuietFor (Spec.bracket s.params rb (writes s.params rb)).length → t.x e.1 = e.2) := by
  obtain ⟨rb, r, hr, hpar, htr, hpres, hquiet, hrb⟩ := haltBegin_law s
  have hev : writeAllEvents s.params (bracketWrites s.params rb (writes s.params rb)) =
      writeAllEvents s.params (writes s.params rb) ++ writeEvents s.params s.params.cellMap.regB (withoutSet rb) := by
    simp [bracketWrites, writeAllEvents_append, writeAllEvents]
  refine ⟨rb, _, by simp only [bracketBody, run_stmt, run_bind, run_pure, hr]; rfl, ?_, hrb, fun hp hf hsub => ?_⟩
  · rw [memWriteAll_trace, hpar, htr, hev, List.append_assoc, List.append_assoc]
    rfl
  · obtain ⟨hnd, hplain⟩ := fieldCells_plain hf
    have hB : s.params.cellMap.regB = REG_B := (fitsChip_named hf).2.1
    have hnodup : ((bracketWrites s.params rb (writes s.params rb)).map Prod.fst).Nodup := by
      rw [bracketWrites, List.map_append, List.nodup_append]
      refine ⟨hsub.nodup hnd, by simp, fun a ha b hb => ?_⟩
      obtain rfl : b = REG_B := by simpa [hB] using hb
      exact (hplain a (hsub.subset ha)).2.1
    have hx := memWriteAll_x_quiet _ r (hpres hp) hnodup
    refine ⟨?_, fun e he hq => ?_⟩
    · rw [hx (REG_B, withoutSet rb) (by simp [bracketWrites, hB]) (.inl regB_not_agent), storedByte_withoutSet]
    · rw [hx e (by simp [bracketWrites, he]) (hq.imp id fun hq => hquiet _ (QuietFor_mono hq ?_)),
        storedByte_plain _ _ _ (hplain _ (hsub.subset (List.mem_map_of_mem he)))]
      rw [hpar, hev]
      simp [Spec.bracket, readEvents, writeEvents]
      omega

/-- An operation that comes to a halt bracket around writes of distinct field cells does what a bracketed writer does. -/
theorem brackets_of_run {i : Instr} {writes : Params → Byte → List (CellAddr × Byte)}
    {body : Params → Bus (Value × List Warning)} (hc : ∀ p, (operation p i).comesTo = .bus (body p))
    (hrun : ∀ p s, (body p).run s = (bracketBody p (writes p)).run s) (hrd : ∀ p, readCells p i = [p.cellMap.regB])
    (hst : ∀ p rb, storedCells p i = p.cellMap.regB :: (writes p rb).map Prod.fst)
    (hsub : ∀ p rb, ((writes p rb).map Prod.fst).Sublist (fieldCells p)) : Spec.Brackets i writes := by
  intro s hio
  obtain ⟨rb, u, hu, htr, hrb, hx⟩ := bracketBody_run writes s.started
  obtain ⟨hexec, hret⟩ := exec_bus (hc s.params) hio ((hrun _ _).trans hu) htr
    (cells := s.params.cellMap.regB :: (writes s.params rb).map Prod.fst) fun a ha => by
      rw [hst _ rb, hrd, List.mem_append] at ha
      exact ha.elim id fun h => List.mem_cons.mpr (.inl (List.mem_singleton.mp (List.mem_filter.mp h).1))
  refine ⟨_, rb, hexec, hret, hrb, fun hp hf => ?_⟩
  rw [hret.trace]
  exact hx hp hf (hsub _ _)

/-! ## READ_ALARM (42_time_alarm.md R235) -/

/-- The cells READ_ALARM reads after the poll, in its order. -/
def alarmReads (p : Params) : List CellAddr := [p.cellMap.regB, p.cellMap.secAlm, p.cellMap.minAlm, p.cellMap.hourAlm]

/-- READ_ALARM is the poll and then its reads in sequence; the bytes read, Register B's first, give the record. -/
theorem readAlarmBody_run (s : State) : ∃ rb sec min hour u,
    (memReadAll (alarmReads s.params)).run ((waitUip s.params).run s).2 = ([rb, sec, min, hour], u) ∧
    (readAlarmBody s.params).run s = ((.alarm (alarmRecord rb sec min hour), ((waitUip s.params).run s).1), u) := by
  rcases hpoll : (waitUip s.params).run s with ⟨ws, s0⟩
  obtain ⟨rb, s1, hrb, -⟩ := memRead_law s.params.cellMap.regB s0
  obtain ⟨sec, s2, hsec, -⟩ := memRead_law s.params.cellMap.secAlm s1
  obtain ⟨min, s3, hmin, -⟩ := memRead_law s.params.cellMap.minAlm s2
  obtain ⟨hour, s4, hhour, -⟩ := memRead_law s.params.cellMap.hourAlm s3
  refine ⟨rb, sec, min, hour, s4, ?_, ?_⟩
  · simp only [alarmReads, memReadAll, run_bind, run_pure, hrb, hsec, hmin, hhour]
  · simp only [readAlarmBody, run_stmt, run_step, run_pure, hpoll, hrb, hsec, hmin, hhour]

/-- The wildcard test is on the raw byte's value (42_time_alarm.md R236). -/
theorem alarmField_eq (raw : Byte) (v : Nat) : alarmField raw v = Spec.alarmFieldOf raw v := by
  simp [alarmField, Spec.alarmFieldOf, BitVec.le_def]

/-! ## After an operation -/

/-- Draws quiet for an operation's trace and more are quiet for the rest after it. -/
theorem exec_quietFor {i : Instr} {s t : State} (h : exec i s = .next t) {n : Nat} (hq : s.QuietFor (t.trace.length + n)) :
    t.QuietFor n := by
  cases ends_of_exec h with
  | err e => exact QuietFor_mono hq (by omega)
  | value v _ => exact QuietFor_mono hq (by omega)
  | ran u v ws _ _ hk => exact (hk _ (Along.law _ _ _ _)).quiet_after (List.nil_append _).symm hq

/-- Clearing SET leaves the mode and the hour format of Register B (10_state.md R57). -/
theorem withoutSet_modes (rb : Byte) : Spec.modeOf (rb &&& 0x7F#8) = Spec.modeOf rb ∧
    (rb &&& 0x7F#8).getLsbD 1 = rb.getLsbD 1 := by
  simp [Spec.modeOf]

end Sys2Proof.Machine

namespace Sys2Proof.Certificates

open Sys2Proof Sys2Proof.Machine Sys2Proof.Config

/-- Settles O27: the cases of the two rules; a written hour's bit 7 and its number are read apart. -/
theorem hourRoundTrip : Obligations.HourRoundTrip := by
  refine ⟨readHour_24, fun raw m h hh => readHour_12 hh.symm, fun h _ m => ⟨writeHour_24 h m, ?_, writeHour_am m, ?_,
    writeHour_pm m⟩, fun h hh m h24 => readHour_writeHour hh m h24, readHour_noon, readHour_midnight⟩
  · rintro rfl
    exact writeHour_midnight m
  · rintro rfl
    exact writeHour_noon m

/-- Settles O18: each operation comes to the error of its first bad operand. -/
theorem timeValidation : Obligations.TimeValidation := by
  intro s a b c e
  refine ⟨fun ha => exec_failed ?_, fun ha hb => exec_failed ?_, fun ha hb hc => exec_failed ?_,
    fun ha => exec_failed ?_, fun ha hb => exec_failed ?_, fun ha hb hc => exec_failed ?_, fun ha => exec_failed ?_,
    fun ha => exec_failed ?_, fun ha hb => exec_failed ?_, fun ha hb hc => exec_failed ?_, fun h0 h1 => exec_failed ?_⟩
  · simp [operation, writeTimeOp, checkRange_out ha]
  · simp [operation, writeTimeOp, checkRange_in ha, checkRange_out hb]
  · simp [operation, writeTimeOp, checkRange_in ha, checkRange_in hb, checkRange_out hc]
  · simp [operation, writeDateOp, checkRange_out ha]
  · simp [operation, writeDateOp, checkRange_in ha, checkRange_out hb]
  · simp [operation, writeDateOp, checkRange_in ha, checkRange_in hb, checkRange_out hc]
  · simp [operation, writeDowOp, checkRange_out ha]
  · simp [operation, writeAlarmOp, checkAlarm_eq, checkRange_out ha]
  · simp [operation, writeAlarmOp, checkAlarm_eq, checkRange_in ha, checkRange_out hb]
  · simp [operation, writeAlarmOp, checkAlarm_eq, checkRange_in ha, checkRange_in hb, checkRange_out hc]
  · simp [operation, setAlarmEnabledOp, enableOf, h0, h1]

/-- Settles O29: a halt bracket around the three time cells. -/
theorem writeTime : Obligations.WriteTime := by
  intro h m c hh hm hc
  have checkH := checkRange_in (f := .h) (show (0 : Int) ≤ h ∧ (h : Int) ≤ 23 by omega)
  have checkM := checkRange_in (f := .m) (show (0 : Int) ≤ m ∧ (m : Int) ≤ 59 by omega)
  have checkS := checkRange_in (f := .s) (show (0 : Int) ≤ c ∧ (c : Int) ≤ 59 by omega)
  refine brackets_of_run (body := fun p => writeTimeBody p h m c) (fun p => ?_) (fun p s => ?_) (fun _ => rfl)
    (fun _ _ => rfl) fun p _ => ?_
  · simp [operation, writeTimeOp, checkH, checkM, checkS]
  · simp only [writeTimeBody, run_bracketBody, memWriteAll, run_stmt, run_step, run_pure]
    rfl
  · exact fieldCells_slice p 0 3

/-- Settles O30: a halt bracket around the three date cells and the century. -/
theorem writeDate : Obligations.WriteDate := by
  intro d m y hd1 hd2 hm1 hm2 hy1 hy2
  have checkD := checkRange_in (f := .day) (show (1 : Int) ≤ d ∧ (d : Int) ≤ 31 by omega)
  have checkM := checkRange_in (f := .month) (show (1 : Int) ≤ m ∧ (m : Int) ≤ 12 by omega)
  have checkY := checkRange_in (f := .year) (show (1980 : Int) ≤ y ∧ (y : Int) ≤ 2099 by omega)
  refine brackets_of_run (body := fun p => writeDateBody p d m y) (fun p => ?_) (fun p s => ?_) (fun _ => rfl)
    (fun _ _ => rfl) fun p _ => ?_
  · simp [operation, writeDateOp, checkD, checkM, checkY]
  · simp only [writeDateBody, run_bracketBody, memWriteAll, run_stmt, run_step, run_pure]
    rfl
  · exact fieldCells_slice p 4 4

/-- Settles O31: a halt bracket around the day of week. -/
theorem writeDow : Obligations.WriteDow := by
  intro n hn1 hn2
  have checkN := checkRange_in (f := .n) (show (1 : Int) ≤ n ∧ (n : Int) ≤ 7 by omega)
  refine brackets_of_run (body := fun p => writeDowBody p n) (fun p => ?_) (fun p s => ?_) (fun _ => rfl)
    (fun _ _ => rfl) fun p _ => ?_
  · simp [operation, writeDowOp, checkN]
  · simp only [writeDowBody, run_bracketBody, memWriteAll, run_stmt, run_step, run_pure]
    rfl
  · exact fieldCells_slice p 3 1

/-- Settles O32: a halt bracket around the three alarm cells. -/
theorem writeAlarm : Obligations.WriteAlarm := by
  intro h m c hh1 hh2 hm1 hm2 hc1 hc2
  have checkH := checkRange_in (f := .h) (And.intro hh1 hh2)
  have checkM := checkRange_in (f := .m) (And.intro hm1 hm2)
  have checkS := checkRange_in (f := .s) (And.intro hc1 hc2)
  refine brackets_of_run (body := fun p => writeAlarmBody p h m c) (fun p => ?_) (fun p s => ?_) (fun _ => rfl)
    (fun _ _ => rfl) fun p _ => ?_
  · simp [operation, writeAlarmOp, checkAlarm_eq, checkH, checkM, checkS]
  · simp only [writeAlarmBody, run_bracketBody, memWriteAll, run_stmt, run_step, run_pure]
    rfl
  · exact fieldCells_slice p 8 3

/-- Settles O33: the poll, then four store reads, the first of which gives the mode of the others. -/
theorem readAlarm : Obligations.ReadAlarm := by
  rintro s cm hio rfl
  obtain ⟨polls, hrun, htr, hread, huip⟩ := poll_then_read (alarmReads s.started.params) (readCells s.params .readAlarm)
    s.started List.mem_cons_self (fun _ h => List.mem_cons_of_mem _ h) (started_trace s)
  obtain ⟨rb, sec, min, hour, u, hreads, hbody⟩ := readAlarmBody_run s.started
  rw [hreads] at htr hread huip
  obtain ⟨hexec, hret⟩ := exec_bus (i := .readAlarm) (b := readAlarmBody s.params) rfl hio hbody htr (fun _ h => h)
  simp only [alarmRecord, alarmField_eq] at hret
  exact ⟨_, polls, _, rb, sec, min, hour, hexec, hrun, hret, hread, huip⟩

/-- Settles O34: the alarm cells and Register B are no agent's, and the mode read is the mode written. -/
theorem alarmRoundTrip : Obligations.AlarmRoundTrip := by
  intro s t u h m c hh1 hh2 hm1 hm2 hc1 hc2 hio hp hf hwrite hread
  obtain ⟨t', rb, hexec, hret, -, hcells⟩ := writeAlarm h m c hh1 hh2 hm1 hm2 hc1 hc2 s hio
  cases hwrite.symm.trans hexec
  obtain ⟨u', _, ws, rb', sec, min, hour, hexec', -, hret', hbytes, -⟩ :=
    readAlarm t s.params.cellMap (hret.launch.ioPermitted.trans hio) (congrArg _ hret.launch.params.symm)
  cases hread.symm.trans hexec'
  obtain ⟨hB, hwritten⟩ := hcells hp hf
  have hpt : t.rtcPresent = true := hret.launch.rtcPresent.trans hp
  simp only [List.forall_mem_cons] at hbytes hwritten
  obtain ⟨bRead, secRead, minRead, hourRead, -⟩ := hbytes
  obtain ⟨secWritten, minWritten, hourWritten, -⟩ := hwritten
  obtain rfl := regB_read hpt hf bRead hB
  have shown : ∀ {a v w}, a ∈ s.params.alarmConfigCells → (t.readsPlain a → t.Steady a u.trace.length → v = t.x a) →
      (agentCell a = false ∨ s.QuietFor t.trace.length → t.x a = w) → v = w := fun ha hr hw =>
    have hpl := alarmConfig_plain hf ha
    (hr (readsPlain_of_storesPlain hpt hpl.2) (.inl hpl.1)).trans (hw (.inl hpl.1))
  obtain ⟨hmode, h24⟩ := withoutSet_modes rb
  have hhour := alarmField_written h (shown (by simp [Params.alarmConfigCells]) hourRead hourWritten)
    (dec := fun b => readHour b (Spec.modeOf rb) (rb.getLsbD 1)) (writeHour_lt_wildcard (by omega) _ _)
    (readHour_writeHour (by omega) _ _)
  have hmin := alarmField_written m (shown (by simp [Params.alarmConfigCells]) minRead minWritten)
    (dec := fun b => decodeByte b (Spec.modeOf rb)) (encodeByte_lt_wildcard (by omega) _) (decodeByte_encodeByte (by omega) _)
  have hsec := alarmField_written c (shown (by simp [Params.alarmConfigCells]) secRead secWritten)
    (dec := fun b => decodeByte b (Spec.modeOf rb)) (encodeByte_lt_wildcard (by omega) _) (decodeByte_encodeByte (by omega) _)
  exact ⟨ws, by rw [hret'.outcome, hmode, h24, hhour, hmin, hsec]⟩

/-- Settles O35: with quiet draws the time cells are read as they were written, and the mode read is the mode written. -/
theorem timeRoundTrip : Obligations.TimeRoundTrip := by
  intro s t u h m c hh hm hc hio hp hf hwrite hread hq
  obtain ⟨t', rb, hexec, hret, -, hcells⟩ := writeTime h m c hh hm hc s hio
  cases hwrite.symm.trans hexec
  obtain ⟨u', _, ws, rb', sec, min, hour, dow, dom, month, year, century, hexec', -, hret', hbytes, -⟩ :=
    readTime t s.params.cellMap (hret.launch.ioPermitted.trans hio) (congrArg _ hret.launch.params.symm)
  cases hread.symm.trans hexec'
  obtain ⟨hB, hwritten⟩ := hcells hp hf
  have hpt : t.rtcPresent = true := hret.launch.rtcPresent.trans hp
  simp only [List.forall_mem_cons] at hbytes hwritten
  obtain ⟨bRead, secRead, minRead, hourRead, -⟩ := hbytes
  obtain ⟨secWritten, minWritten, hourWritten, -⟩ := hwritten
  obtain rfl := regB_read hpt hf bRead hB
  have shown : ∀ {a v w}, a ∈ fieldCells s.params → (t.readsPlain a → t.Steady a u.trace.length → v = t.x a) →
      (agentCell a = false ∨ s.QuietFor t.trace.length → t.x a = w) → v = w := fun ha hr hw =>
    (hr (readsPlain_of_storesPlain hpt ((fieldCells_plain hf).2 _ ha)) (.inr (.inr (exec_quietFor hwrite hq)))).trans
      (hw (.inr (QuietFor_mono hq (by omega))))
  obtain rfl := shown (by simp [fieldCells, Params.timeCells]) secRead secWritten
  obtain rfl := shown (by simp [fieldCells, Params.timeCells]) minRead minWritten
  obtain rfl := shown (by simp [fieldCells, Params.timeCells]) hourRead hourWritten
  obtain ⟨hmode, h24⟩ := withoutSet_modes rb
  refine ⟨_, ws, hret'.outcome, ?_, ?_, ?_⟩ <;> dsimp only <;> rw [hmode]
  · rw [h24, readHour_writeHour hh]
  · exact decodeByte_encodeByte (by omega) _
  · exact decodeByte_encodeByte (by omega) _

end Sys2Proof.Certificates
end

section
/-! SUPPORT. READ_STATUS of 43_status.md: its decoders as arithmetic on the bytes' values, and what the flags of Register C can
do before, at and after its read. -/

namespace Sys2Proof.Machine

open Sys2Proof.Config

/-! ## Register A decoded (10_state.md R52, R53) -/

/-- The rate table is the formula of 10_state.md R53. -/
theorem rateHz_eq_rateOf : ∀ rs : Nibble, rateHz rs = Spec.rateOf rs.toNat := by decide

/-- The rate of a Register A byte is that of its bits 3:0. -/
theorem rateHz_low (a : Byte) : rateHz (a.extractLsb' 0 4) = Spec.rateOf (a.toNat % 16) := by
  rw [rateHz_eq_rateOf, BitVec.extractLsb'_toNat, Nat.shiftRight_zero]

/-- The divider name by the value of the field. -/
theorem dvName_toNat : ∀ dv : BitVec 3, dvName dv = if dv.toNat = 0 then .tb4194304Hz else if dv.toNat = 1 then .tb1048576Hz
    else if dv.toNat = 2 then .tb32768Hz else if dv.toNat ≤ 5 then .test else .dividerReset := by decide

/-- The divider name of a Register A byte is that of its bits 6:4. -/
theorem dvName_divider (a : Byte) : dvName (a.extractLsb' 4 3) =
    if a.toNat / 16 % 8 = 0 then .tb4194304Hz else if a.toNat / 16 % 8 = 1 then .tb1048576Hz
    else if a.toNat / 16 % 8 = 2 then .tb32768Hz else if a.toNat / 16 % 8 ≤ 5 then .test else .dividerReset := by
  rw [dvName_toNat, BitVec.extractLsb'_toNat, Nat.shiftRight_eq_div_pow]

/-! ## The flags of Register C (10_state.md R60, R85.3) -/

/-- After a clear of Register C, settings of its flags leave bits 3:0 clear. -/
theorem FlagsSet.low_clear {s t : State} (h : FlagsSet s t) (hs : s.x REG_C = 0x00#8) :
    (t.x REG_C).extractLsb' 0 4 = 0x0#4 := by
  obtain ⟨f, hf⟩ := h
  have low : ∀ f : Nibble, (0x00#8 ||| (f.setWidth 8 <<< 4)).extractLsb' 0 4 = 0x0#4 := by decide
  rw [hf, hs, low]

/-- A byte in which every flag set at `t` is set has every flag that was set at `s` before. -/
theorem FlagsSet.covered {s t : State} (h : FlagsSet s t) {c : Byte} (hc : t.x REG_C &&& 0xF0#8 &&& ~~~c = 0x00#8) :
    s.x REG_C &&& 0xF0#8 &&& ~~~c = 0x00#8 := by
  obtain ⟨f, hf⟩ := h
  rw [hf, BitVec.and_assoc, BitVec.and_or_distrib_right, BitVec.or_eq_zero_iff] at hc
  rw [BitVec.and_assoc]
  exact hc.1

/-! ## The reads of READ_STATUS (43_status.md R260, R261) -/

/-- READ_STATUS is four store reads in sequence, and the bytes read give the record. -/
theorem readStatusBody_run (s : State) : ∃ a b c d s1 s2 s3 u,
    (readStatusBody s.params).run s = ((.status (statusRecord a b c d), []), u) ∧
    u.trace = s.trace ++
      readAllEvents s.params [s.params.cellMap.regA, s.params.cellMap.regB, REG_C, REG_D] [a, b, c, d] ∧
    ReadLaw s.params.cellMap.regA s a s1 ∧ ReadLaw s.params.cellMap.regB s1 b s2 ∧ ReadLaw REG_C s2 c s3 ∧
    ReadLaw REG_D s3 d u := by
  obtain ⟨a, s1, hA, lawA⟩ := memRead_law s.params.cellMap.regA s
  obtain ⟨b, s2, hB, lawB⟩ := memRead_law s.params.cellMap.regB s1
  obtain ⟨c, s3, hC, lawC⟩ := memRead_law REG_C s2
  obtain ⟨d, u, hD, lawD⟩ := memRead_law REG_D s3
  refine ⟨a, b, c, d, s1, s2, s3, u, ?_, ?_, lawA, lawB, lawC, lawD⟩
  · simp only [readStatusBody, run_stmt, run_pure, hA, hB, hC, hD]
  · rw [lawD.trace, lawC.trace, lawB.trace, lawA.trace, lawC.params, lawB.params, lawA.params]
    simp [readAllEvents]

section
variable {s s1 s2 s3 u : State} {a b c d : Byte} (lawA : ReadLaw REG_A s a s1) (lawB : ReadLaw REG_B s1 b s2)
  (lawC : ReadLaw REG_C s2 c s3) (lawD : ReadLaw REG_D s3 d u) (hp : s.rtcPresent = true)
include lawA lawB lawC hp

/-- Whatever the clock agent does meanwhile, the reads show Register B, bits 6:0 of Register A, and the flags of Register C that
were set at the start. -/
theorem statusReads_live : b = s.x REG_B ∧ a.extractLsb' 0 7 = (s.x REG_A).extractLsb' 0 7 ∧
    s.x REG_C &&& 0xF0#8 &&& ~~~c = 0x00#8 := by
  have hp1 := lawA.pres hp
  have flags : FlagsSet s s2 := FlagsSet.trans (lawA.flagsKept (by decide)) (lawB.flagsKept (by decide))
  refine ⟨?_, lawA.regAlow rfl hp, flags.covered (lawC.regCflags rfl (lawB.pres hp1))⟩
  exact (lawB.plain regB_not_agent ⟨hp1, by decide⟩).trans (lawA.same _ regB_not_agent)

include lawD

/-- With quiet draws Register C ends clear, and the other bits the reads show are the device's. -/
theorem statusReads_quiet (hq : s.QuietFor 12) : u.x REG_C = 0x00#8 ∧ a.getLsbD 7 = s.uipNow ∧ c = s.x REG_C ∧
    d.extractLsb' 0 7 = (s.x REG_D).extractLsb' 0 7 := by
  have hp2 := lawB.pres (lawA.pres hp)
  obtain ⟨hq1, -, hx1⟩ := lawA.quiet 9 hq
  obtain ⟨hq2, -, hx2⟩ := lawB.quiet 6 hq1
  obtain ⟨hq3, -, hx3⟩ := lawC.quiet 3 hq2
  obtain ⟨-, -, hx4⟩ := lawD.quiet 0 hq3
  refine ⟨?_, lawA.regAtop rfl hp (QuietFor_mono hq (by omega)), ?_, ?_⟩
  · rw [hx4 REG_C (by decide), lawC.regCclr rfl hp2]
    rfl
  · rw [lawC.regC rfl hp2 (QuietFor_mono hq2 (by omega)), hx2 REG_C (by decide), hx1 REG_C (by decide)]
  · rw [lawD.regD rfl (lawC.pres hp2) hq3, hx3 REG_D (by decide), hx2 REG_D (by decide), hx1 REG_D (by decide)]

end

end Sys2Proof.Machine

namespace Sys2Proof.Certificates

open Sys2Proof Sys2Proof.Machine Sys2Proof.Config

/-- Settles O37: four store reads in sequence; the read of Register C clears it, and the read after it sets flags at most. -/
theorem readStatus : Obligations.ReadStatus := by
  rintro s cm hio rfl
  obtain ⟨a, b, c, d, s1, s2, s3, u, hbody, htr, lawA, lawB, lawC, lawD⟩ := readStatusBody_run s.started
  obtain ⟨hexec, hret⟩ := exec_bus (i := .readStatus) (cells := [REG_C]) rfl hio hbody htr fun e he =>
    List.mem_singleton.mpr (by simpa using (List.mem_filter.mp he).2)
  refine ⟨_, a, b, c, d, _, hexec, ?_, dvName_divider a, fun hp => ?_, fun hp hA hB => ?_⟩
  · rw [← rateHz_low]
    exact hret
  · exact FlagsSet.low_clear (lawD.flagsKept (by decide)) (lawC.regCclr rfl (lawB.pres (lawA.pres hp)))
  · replace lawA : ReadLaw REG_A s.started a s1 := hA ▸ lawA
    replace lawB : ReadLaw REG_B s1 b s2 := hB ▸ lawB
    obtain ⟨hb, ha, hc⟩ := statusReads_live lawA lawB lawC hp
    have hquiet := statusReads_quiet lawA lawB lawC lawD hp
    exact ⟨hb, ha, hc, hquiet⟩

end Sys2Proof.Certificates
end

section
/-! SUPPORT. The configuration fields of 44_config_fields.md: operations that read plain cells, the read-modify-write setters, and
what an operation that ends in a checksum update leaves for CK_VERIFY. -/

namespace Sys2Proof.Machine

open Sys2Proof.Config

/-! ## Operations that read plain cells -/

/-- Reads in sequence of plain cells that no agent changes meanwhile give the cells. -/
theorem memReadAll_steady {l : List CellAddr} {s : State} (h0 : s.trace = [])
    (hl : ∀ a ∈ l, s.readsPlain a ∧ s.Steady a ((memReadAll l).run s).2.trace.length) :
    ((memReadAll l).run s).1 = l.map s.x := by
  have hz := memReadAll_later (rd := l) h0 l s (.refl s) fun _ h => h
  refine List.ext_getElem (by simp [memReadAll_length]) fun k hk hk' => ?_
  have hkl : k < l.length := by simpa using hk'
  have he : (l[k], ((memReadAll l).run s).1[k]) ∈ l.zip ((memReadAll l).run s).1 :=
    List.mem_iff_getElem.mpr ⟨k, by simp [hkl, hk], by simp⟩
  obtain ⟨hr, hs⟩ := hl _ (List.getElem_mem hkl)
  rw [List.getElem_map]
  exact hz _ he hr hs

theorem readAllEvents_length (p : Params) : ∀ {l : List CellAddr} {bs : List Byte}, bs.length = l.length →
    (readAllEvents p l bs).length = 3 * l.length
  | [], [], _ => rfl
  | _ :: l, _ :: bs, h => by
    have ih := readAllEvents_length p (l := l) (bs := bs) (by simpa using h)
    simp [readAllEvents, readEvents, ih]
    omega

/-- Reads of cells other than Register C clear none. -/
theorem clearedCells_eq_nil {l : List CellAddr} (h : ∀ a ∈ l, a ≠ REG_C) : clearedCells l = [] :=
  List.filter_eq_nil_iff.mpr fun a ha => by simpa using h a ha

/-- With port access, an operation that reads plain cells, which no agent changes meanwhile, returns what its program gives for
their bytes. -/
theorem exec_reads {i : Instr} {s : State} {b : Bus (Value × List Warning)} {v : Value} (l : List CellAddr)
    (hb : (operation s.params i).comesTo = .bus b) (hio : s.ioPermitted = true)
    (hl : ∀ a ∈ l, s.readsPlain a ∧ s.Steady a (3 * l.length))
    (hst : storedCells s.params i = []) (hC : ∀ a ∈ readCells s.params i, a ≠ REG_C)
    (hrun : ∀ u, (memReadAll l).run s.started = (l.map s.x, u) → b.run s.started = ((v, []), u)) :
    ∃ t, exec i s = .next t ∧ s.Returned t v [] (readAllEvents s.params l (l.map s.x)) [] := by
  have htr := memReadAll_trace l s.started
  rw [started_trace, List.nil_append] at htr
  have hval : ((memReadAll l).run s.started).1 = l.map s.x := memReadAll_steady (started_trace s) fun a ha => by
    rw [htr, readAllEvents_length _ (memReadAll_length l _)]
    exact hl a ha
  rw [hval] at htr
  exact ⟨_, exec_bus hb hio (hrun _ (Prod.ext hval rfl)) htr (by
    rw [hst, clearedCells_eq_nil hC, List.nil_append]
    exact fun _ h => h)⟩

/-- With port access, an operation that reads one plain cell, which no agent changes meanwhile, returns what its program gives
for the byte. -/
theorem exec_read {i : Instr} {s : State} {b : Bus (Value × List Warning)} {v : Value} {a : CellAddr}
    (hb : (operation s.params i).comesTo = .bus b) (hio : s.ioPermitted = true) (hr : s.readsPlain a) (hs : s.Steady a 3)
    (hst : storedCells s.params i = []) (hC : ∀ a ∈ readCells s.params i, a ≠ REG_C)
    (hrun : ∀ u, (memRead a).run s.started = (s.x a, u) → b.run s.started = ((v, []), u)) :
    ∃ t, exec i s = .next t ∧ s.Returned t v [] (readEvents s.params a (s.x a)) [] := by
  have h := exec_reads [a] hb hio (by simpa using ⟨hr, hs⟩) hst hC fun u hu => hrun u (by
    simpa [memReadAll, Prod.ext_iff] using hu)
  simpa [readAllEvents] using h

/-- With an RTC, and maps that are the chip's, a configuration cell is read as it is. -/
theorem alarmConfig_reads {s : State} (hp : s.rtcPresent = true) (hf : fitsChip s.params = true) {a : CellAddr}
    (ha : a ∈ s.params.alarmConfigCells) (n : Nat) : s.readsPlain a ∧ s.Steady a n :=
  have hpl := alarmConfig_plain hf ha
  ⟨readsPlain_of_storesPlain hp hpl.2, .inl hpl.1⟩

/-- No alarm or configuration cell is Register C, where the maps are the chip's. -/
theorem alarmConfig_ne_regC {p : Params} (hf : fitsChip p = true) {a : CellAddr} (ha : a ∈ p.alarmConfigCells) : a ≠ REG_C :=
  (alarmConfig_plain hf ha).2.2.2.1

/-! ## The drive bytes (44_config_fields.md R283-R292) -/

/-- A drive code selects its drive (44_config_fields.md R283). -/
theorem selIndex_driveCode {second : Bool} {d : Byte} (h : Spec.driveCode second d) : selIndex d = some second := by
  cases second <;> rcases h with rfl | rfl <;> rfl

/-- A drive's nibble as a number. -/
theorem driveNibble_toNat (second : Bool) (b : Byte) : (driveNibble second b).toNat = Spec.nibbleOf second b := by
  have := b.isLt
  cases second
  · simp only [driveNibble, Spec.nibbleOf, Bool.false_eq_true, if_false, BitVec.extractLsb'_toNat, Nat.shiftRight_eq_div_pow]
    omega
  · simp [driveNibble, Spec.nibbleOf]

/-- A drive type that fits the nibble, as a nibble and as a byte. -/
theorem driveType_setWidth {n : Nat} (h : n ≤ 15) : (BitVec.ofInt 4 (n : Int)).setWidth 8 = BitVec.ofNat 8 n := by
  apply BitVec.eq_of_toNat_eq
  simp
  omega

/-- One drive's nibble replaced by a type that fits it (44_config_fields.md R287, R292). -/
theorem withDriveNibble_type (second : Bool) (b : Byte) {n : Nat} (h : n ≤ 15) :
    withDriveNibble second b (BitVec.ofInt 4 (n : Int)) = Spec.withNibble second b n := by
  rw [withDriveNibble, Spec.withNibble, driveType_setWidth h]

/-- GET_HARDDISK of another type than 15 is one read (44_config_fields.md R290). -/
theorem getHarddiskBody_run {p : Params} {second : Bool} {s u : State} {b : Byte} (h : Spec.nibbleOf second b ≠ 15)
    (hu : (memRead p.cfgMap.hdd).run s = (b, u)) :
    (getHarddiskBody p second).run s = ((.hardDisk ⟨Spec.nibbleOf second b, none⟩, []), u) := by
  have hn : driveNibble second b ≠ 0xF#4 := fun e => h (by rw [← driveNibble_toNat, e]; rfl)
  simp only [getHarddiskBody, run_stmt, run_step, hu, if_neg hn, run_pure, driveNibble_toNat]

/-- GET_HARDDISK of type 15 is two reads (44_config_fields.md R290). -/
theorem getHarddiskBody_run_extended {p : Params} {second : Bool} {s u : State} {b e : Byte}
    (h : Spec.nibbleOf second b = 15)
    (hu : (memReadAll [p.cfgMap.hdd, if second then p.cfgMap.hddExt1 else p.cfgMap.hddExt0]).run s = ([b, e], u)) :
    (getHarddiskBody p second).run s = ((.hardDisk ⟨15, some e⟩, []), u) := by
  have hn : driveNibble second b = 0xF#4 := BitVec.eq_of_toNat_eq (by rw [driveNibble_toNat, h]; rfl)
  simp only [memReadAll, run_bind, run_pure, Prod.mk.injEq, List.cons.injEq, and_true] at hu
  obtain ⟨⟨hb, he⟩, hu⟩ := hu
  simp only [getHarddiskBody, run_stmt, run_step, hb, if_pos hn, run_pure, he, hu]

/-! ## The setters (44_config_fields.md R280, R281) -/

/-- The program of a setter of one cell: read, modify, write, and the checksum update. -/
def setterBody (p : Params) (a : CellAddr) (g : Byte → Byte) : Bus (Value × List Warning) :=
  (memRead a).stmt fun b => .step <| (memWrite a (g b)).stmt fun _ => (ckUpdate p).stmt fun _ => .pure (.unit, [])

theorem setFloppyBody_eq (p : Params) (second : Bool) (t : Nibble) :
    setFloppyBody p second t = setterBody p p.cfgMap.floppy fun b => withDriveNibble second b t := rfl

theorem setHarddiskBody_eq (p : Params) (second : Bool) (t : Nibble) :
    setHarddiskBody p second t = setterBody p p.cfgMap.hdd fun b => withDriveNibble second b t := rfl

theorem setEquipBody_eq (p : Params) (f : EquipField) (n : Nat) :
    setEquipBody p f n = setterBody p p.cfgMap.equip fun e => withEquipField e f n := rfl

/-- A setter of a plain cell that is no checksum cell: the cell holds its modified byte, and the checksum is right. -/
theorem setterBody_run {s : State} {a : CellAddr} (g : Byte → Byte) (hp : s.rtcPresent = true) (hc : ChecksumPlain s.params)
    (ha : agentCell a = false ∧ storesPlain a) (hck : a ∉ checksumCells s.params) :
    ∃ u, (setterBody s.params a g).run s = ((.unit, []), u) ∧
      u.trace = s.trace ++ (readEvents s.params a (s.x a) ++ (writeEvents s.params a (g (s.x a)) ++ u.ckUpdateEvents)) ∧
      u.x a = g (s.x a) ∧ u.storedSum = u.coveredSum := by
  obtain ⟨b, r, hr, law1⟩ := memRead_law a s
  obtain ⟨q, hq, law2⟩ := memWrite_law a (g b) r
  obtain rfl := law1.plain ha.1 (readsPlain_of_storesPlain hp ha.2)
  have hpar : q.params = s.params := law2.params.trans law1.params
  obtain ⟨v, u, hu, -, law3⟩ := ckUpdate_law q (law2.pres (law1.pres hp)) (hpar ▸ hc)
  rw [hpar] at hu
  refine ⟨u, by simp only [setterBody, run_stmt, run_step, run_pure, hr, hq, hu], ?_, ?_, law3.sums⟩
  · rw [law3.trace, law2.trace, law1.trace, law1.params, List.append_assoc, List.append_assoc]
  · rw [law3.same a ha.1 (hpar ▸ hck), law2.plainStored ha.1 ha.2 (law1.pres hp)]

/-- With port access, an RTC, and valid maps that are the chip's, a setter of a configuration cell reads the cell, writes its
modified byte, and updates the checksum. -/
theorem exec_setter {i : Instr} {s : State} {a : CellAddr} {g : Byte → Byte}
    (hb : (operation s.params i).comesTo = .bus (setterBody s.params a g)) (hio : s.ioPermitted = true)
    (hp : s.rtcPresent = true) (hv : s.params.valid = true) (hf : fitsChip s.params = true)
    (ha : a ∈ s.params.alarmConfigCells) (hrd : readCells s.params i = a :: coveredCells)
    (hst : storedCells s.params i = a :: checksumCells s.params) :
    ∃ t, exec i s = .next t ∧
      s.Returned t .unit [] (readEvents s.params a (s.x a) ++ (writeEvents s.params a (g (s.x a)) ++ t.ckUpdateEvents))
        (a :: checksumCells s.params) ∧
      t.x a = g (s.x a) ∧ t.storedSum = t.coveredSum := by
  obtain ⟨u, hu, htr, hx, hsum⟩ := setterBody_run g (s := s.started) hp (checksumPlain hv hf) (alarmConfig_plain hf ha)
    (alarmConfig_not_checksum hf ha)
  have hclear : clearedCells (a :: coveredCells) = [] :=
    clearedCells_eq_nil (List.forall_mem_cons.mpr ⟨alarmConfig_ne_regC hf ha, fun b hb => (covered_plain b hb).2.2.2.1⟩)
  obtain ⟨hexec, hret⟩ := exec_bus hb hio hu htr (cells := a :: checksumCells s.params) (by
    rw [hrd, hst, hclear, List.append_nil]
    exact fun _ h => h)
  exact ⟨_, hexec, hret, hx, hsum⟩

/-! ## The equipment byte (44_config_fields.md R296, R299) -/

/-- The `field` operand of an equipment field (30_encoding.md R144). -/
def EquipField.code : EquipField → Nat
  | .fpu => 0
  | .video => 1
  | .floppyCount => 2

/-- The greatest value of an equipment field (44_config_fields.md R299). -/
def EquipField.max : EquipField → Nat
  | .fpu => 1
  | .video => 3
  | .floppyCount => 4

theorem equipFieldOf_code (f : EquipField) : equipFieldOf (BitVec.ofNat 8 f.code) = some f := by cases f <;> rfl

theorem withEquipField_eq (e : Byte) (f : EquipField) (n : Nat) : withEquipField e f n = Spec.withEquip e f.code n := by
  cases f <;> rfl

/-- SET_EQUIP of a field and a value in its range comes to a setter of the equipment byte. -/
theorem setEquip_comesTo (p : Params) (f : EquipField) {n : Nat} (h : n ≤ f.max) :
    (setEquipOp p (BitVec.ofNat 8 f.code) n).comesTo = .bus (setEquipBody p f n) := by
  have hr : checkRange .value 0 f.max (n : Int) = none := checkRange_in ⟨by omega, Int.ofNat_le.mpr h⟩
  cases f with
  | fpu => simp [setEquipOp, equipFieldOf_code, checkIf, show checkRange .value 0 1 (n : Int) = none from hr]
  | video => simp [setEquipOp, equipFieldOf_code, checkIf, show checkRange .value 0 3 (n : Int) = none from hr]
  | floppyCount => simp [setEquipOp, equipFieldOf_code, checkIf, show checkRange .value 0 4 (n : Int) = none from hr]

/-- A floppy count set in the equipment byte is the count read from it (44_config_fields.md R300). -/
theorem floppyCount_withEquip (e : Byte) {n : Nat} (h : n ≤ 4) :
    (if (Spec.withEquip e 2 n).getLsbD 0 then (Spec.withEquip e 2 n).toNat / 64 + 1 else 0) = n := by
  have key : ∀ n ≤ 4, ∀ e : Byte,
      (if (Spec.withEquip e 2 n).getLsbD 0 then (Spec.withEquip e 2 n).toNat / 64 + 1 else 0) = n := by decide +kernel
  exact key n h e

/-- Bits 7:6 of the equipment byte as a number. -/
theorem equipCount_toNat (e : Byte) : (e.extractLsb' 6 2).toNat = e.toNat / 64 := by
  have := e.isLt
  rw [BitVec.extractLsb'_toNat, Nat.shiftRight_eq_div_pow]
  omega

/-! ## The diagnostic and shutdown bytes (44_config_fields.md R313-R318) -/

/-- A store write of a plain cell that no agent changes meanwhile leaves the byte written (10_state.md R82). -/
theorem memWrite_x_plain {a : CellAddr} (v : Byte) {s : State} (hp : s.rtcPresent = true) (hpl : storesPlain a)
    (ha : agentCell a = false ∨ s.QuietFor 4) : ((memWrite a v).run s).2.x a = v := by
  rcases ha with ha | ha
  · rw [memWrite_x_same _ _ _ ha hp, storedByte_plain _ _ _ hpl]
  · rw [memWrite_x_quiet _ _ _ hp ha, storedByte_plain _ _ _ hpl]

/-- A code outside the table is given as it is. -/
theorem shutdownCode_raw {table : List (Byte × String)} {c : Byte} (h : ∀ e ∈ table, e.1 ≠ c) :
    shutdownCode table c = .raw c := by
  have hn : table.lookup c = none := List.lookup_eq_none_iff.mpr fun e he => by simpa using (h e he).symm
  rw [shutdownCode, hn]

/-- A code in the table is given with its first meaning. -/
theorem shutdownCode_known {pre post : List (Byte × String)} {c : Byte} {name : String} (h : ∀ e ∈ pre, e.1 ≠ c) :
    shutdownCode (pre ++ (c, name) :: post) c = .known c name := by
  have hn : pre.lookup c = none := List.lookup_eq_none_iff.mpr fun e he => by simpa using (h e he).symm
  rw [shutdownCode, List.lookup_append, hn]
  simp

/-- The default table has no code above 0x0A (44_config_fields.md R318). -/
theorem shutdownCode_default_raw {c : Byte} (h : 0x0A < c.toNat) : shutdownCode defaultShutdownTable c = .raw c :=
  shutdownCode_raw fun e he hc => by
    have hle : ∀ e ∈ defaultShutdownTable, e.1.toNat ≤ 0x0A := by decide
    have := hle e he
    rw [hc] at this
    omega

/-- The default table has every code up to 0x0A (44_config_fields.md R318). -/
theorem shutdownCode_default_known {c : Byte} (h : c.toNat ≤ 0x0A) :
    ∃ name, shutdownCode defaultShutdownTable c = .known c name := by
  have hsome : ∀ c : Byte, c.toNat ≤ 0x0A → (defaultShutdownTable.lookup c).isSome = true := by decide
  obtain ⟨name, hn⟩ := Option.isSome_iff_exists.mp (hsome c h)
  exact ⟨name, by rw [shutdownCode, hn]⟩

/-! ## Operations that end in a checksum update (44_config_fields.md R281, R321) -/

theorem run_sameInputs {α : Type} (b : Bus α) (s : State) : s.SameInputs (b.run s).2 :=
  run_keeps .refl .trans perform_sameInputs b s

/-- The last bus events of a program are a checksum update's. -/
def EndsInUpdate {α : Type} (p : Params) (b : Bus α) : Prop :=
  ∀ s, ∃ r, s.SameInputs r ∧ (b.run s).2 = ((ckUpdate p).run r).2

section
variable {α β : Type} {p : Params}

theorem EndsInUpdate.update (v : β) : EndsInUpdate p ((ckUpdate p).stmt fun _ => .pure v) := fun s =>
  ⟨s, .refl s, by simp only [run_stmt, run_pure]⟩

theorem EndsInUpdate.step {b : Bus α} (h : EndsInUpdate p b) : EndsInUpdate p (.step b) := h

theorem EndsInUpdate.bind {m : Bus α} {f : α → Bus β} (h : ∀ a, EndsInUpdate p (f a)) : EndsInUpdate p (m.bind f) :=
    fun s => by
  obtain ⟨r, hr, hu⟩ := h (m.run s).1 (m.run s).2
  exact ⟨r, (run_sameInputs m s).trans hr, by rw [run_bind, hu]⟩

theorem EndsInUpdate.stmt {m : Bus α} {f : α → Bus β} (h : ∀ a, EndsInUpdate p (f a)) : EndsInUpdate p (m.stmt f) :=
  .bind fun a => .step (h a)

end

theorem setterBody_endsInUpdate (p : Params) (a : CellAddr) (g : Byte → Byte) : EndsInUpdate p (setterBody p a g) :=
  .stmt fun _ => .step <| .stmt fun _ => .update _

theorem setMemwordBody_endsInUpdate (p : Params) (a : CellAddr × CellAddr) (w : Word16) :
    EndsInUpdate p (setMemwordBody p a w) :=
  .step <| .stmt fun _ => .stmt fun _ => .update _

theorem factoryResetBody_endsInUpdate (p : Params) : EndsInUpdate p (factoryResetBody p) :=
  .bind fun _ => .bind fun _ => .update _

theorem ckUpdateBody_endsInUpdate (p : Params) : EndsInUpdate p (ckUpdateBody p) := fun s =>
  ⟨s, .refl s, by rw [run_ckUpdateBody]⟩

/-- An operation that fails, or comes to a program that ends in a checksum update. -/
inductive UpdatesLast (p : Params) : Operation → Prop where
  | step {o : Operation} (h : UpdatesLast p o) : UpdatesLast p (.step o)
  | fails (e : OpError) : UpdatesLast p (.fails e)
  | bus {b : Bus (Value × List Warning)} (h : EndsInUpdate p b) : UpdatesLast p (.bus b)

theorem UpdatesLast.validated {p : Params} {o : Operation} (h : UpdatesLast p o) :
    ∀ checks : List (Option OperandName), UpdatesLast p (validated checks o)
  | [] => h
  | none :: l => .step (UpdatesLast.validated h l)
  | some f :: _ => .fails (.validation f)

theorem UpdatesLast.withOperand {α : Type} {p : Params} {f : OperandName} {o : α → Operation} (h : ∀ v, UpdatesLast p (o v)) :
    ∀ a : Option α, UpdatesLast p (withOperand f a o)
  | none => .fails (.validation f)
  | some v => .step (h v)

/-- Every setter, FACTORY_RESET and CK_UPDATE end in a checksum update (44_config_fields.md R281). -/
theorem operation_updatesLast (p : Params) {i : Instr}
    (hi : (∃ d n, i = .setFloppy d n ∨ i = .setHarddisk d n ∨ i = .setEquip d n ∨ i = .setMemword d n) ∨ i = .factoryReset ∨
      i = .ckUpdate) : UpdatesLast p (operation p i) := by
  rcases hi with ⟨d, n, rfl | rfl | rfl | rfl⟩ | rfl | rfl
  · exact .withOperand (fun _ => .validated (.bus (setterBody_endsInUpdate p _ _)) _) _
  · exact .withOperand (fun _ => .validated (.bus (setterBody_endsInUpdate p _ _)) _) _
  · exact .withOperand (fun _ => .validated (.bus (setterBody_endsInUpdate p _ _)) _) _
  · exact .withOperand (fun _ => .validated (.bus (setMemwordBody_endsInUpdate p _ _)) _) _
  · exact .bus (factoryResetBody_endsInUpdate p)
  · exact .bus (ckUpdateBody_endsInUpdate p)

/-- Where an operation that ends in a checksum update returned a value, it had port access, and the checksum is right. -/
theorem UpdatesLast.sums {o : Operation} {s : State} {v : Value} {ws : List Warning} (h : UpdatesLast s.params o)
    (hp : s.rtcPresent = true) (hc : ChecksumPlain s.params) (ho : (runOperation o s).outcome = some (.ok v ws)) :
    s.ioPermitted = true ∧ (runOperation o s).storedSum = (runOperation o s).coveredSum := by
  induction h with
  | step _ ih => exact ih ho
  | fails e => cases ho
  | @bus b h =>
    cases hio : s.ioPermitted with
    | false =>
      rw [runOperation_denied hio] at ho
      cases ho
    | true =>
      obtain ⟨r, hr, hu⟩ := h s.started
      have hpar : r.params = s.params := hr.params
      obtain ⟨w, u, hrun, -, law⟩ := ckUpdate_law r (hr.rtcPresent.trans hp) (hpar ▸ hc)
      rw [hpar] at hrun
      rw [runOperation_permitted hio, hu, hrun]
      exact ⟨rfl, law.sums⟩

/-! ## CK_VERIFY (45_checksum.md R334) -/

/-- CK_VERIFY compares the sum of the covered cells with the stored one. -/
theorem ckVerifyBody_value {s : State} (hp : s.rtcPresent = true) (hc : ChecksumPlain s.params) :
    ((ckVerifyBody s.params).run s).1 =
      (.bool (s.coveredSum == s.storedSum), if s.coveredSum == s.storedSum then [] else [.checksumMismatch]) := by
  have al := ckSum_along (rd := coveredCells) (wr := []) (fun _ h => h) s
  have hstored := ckStored_value (s := (ckSum.run s).2) (al.same.rtcPresent.trans hp) (by rw [al.same.params]; exact hc)
  have hkept : (ckSum.run s).2.storedSum = s.storedSum := by
    rw [State.storedSum, al.same.params, al.kept _ (by simp) hc.hi.1, al.kept _ (by simp) hc.lo.1, State.storedSum]
  rw [al.same.params, hkept] at hstored
  simp only [ckVerifyBody, run_stmt, run_step, run_pure, ckSum_value hp, hstored]

/-- With port access and an RTC, CK_VERIFY returns true where the checksum is right. -/
theorem exec_ckVerify {s : State} (hio : s.ioPermitted = true) (hp : s.rtcPresent = true) (hc : ChecksumPlain s.params)
    (hsum : s.storedSum = s.coveredSum) : ∃ u, exec .ckVerify s = .next u ∧ u.outcome = some (.ok (.bool true) []) := by
  have hv := ckVerifyBody_value (s := s.started) hp hc
  rcases hrun : (ckVerifyBody s.params).run s.started with ⟨⟨v, ws⟩, u⟩
  have he : (s.started.coveredSum == s.started.storedSum) = true := beq_iff_eq.mpr hsum.symm
  rw [he, show s.started.params = s.params from rfl, hrun] at hv
  cases hv
  exact ⟨_, exec_ran (i := .ckVerify) rfl hio hrun, rfl⟩

end Sys2Proof.Machine

namespace Sys2Proof.Certificates

open Sys2Proof Sys2Proof.Machine Sys2Proof.Config

/-- Settles O38: one store read, or two where the first gives type 15. -/
theorem driveGetters : Obligations.DriveGetters := by
  rintro s second d m hd hio hp hf rfl
  have hsel := selIndex_driveCode hd
  have hfl : s.params.cfgMap.floppy ∈ s.params.alarmConfigCells := by simp [Params.alarmConfigCells]
  have hhd : ∀ a ∈ [s.params.cfgMap.hdd, s.params.cfgMap.hddExt0, s.params.cfgMap.hddExt1], a ∈ s.params.alarmConfigCells := by
    simp [Params.alarmConfigCells]
  have hC := fun a ha => alarmConfig_ne_regC hf (hhd a ha)
  obtain ⟨rf, sf⟩ := alarmConfig_reads hp hf hfl 3
  obtain ⟨rh, sh⟩ := alarmConfig_reads hp hf (hhd _ List.mem_cons_self) 3
  refine ⟨?_, fun hn => ?_, fun hn => ?_⟩
  · refine exec_read (b := getFloppyBody s.params second) (by simp [operation, getFloppyOp, hsel]) hio rf sf rfl
      (by simpa [readCells] using alarmConfig_ne_regC hf hfl) fun u hu => ?_
    simp only [getFloppyBody, run_stmt, run_step, run_pure, hu, driveNibble_toNat, fieldUpTo, Spec.rangeChecked]
  · exact exec_read (b := getHarddiskBody s.params second) (by simp [operation, getHarddiskOp, hsel]) hio rh sh rfl hC
      fun u hu => getHarddiskBody_run hn hu
  · have hext : ∀ a ∈ [s.params.cfgMap.hdd, if second then s.params.cfgMap.hddExt1 else s.params.cfgMap.hddExt0],
        a ∈ s.params.alarmConfigCells := by cases second <;> simp [Params.alarmConfigCells]
    obtain ⟨t, hexec, hret⟩ := exec_reads (i := .getHarddisk d) (b := getHarddiskBody s.params second) _
      (by simp [operation, getHarddiskOp, hsel]) hio (fun a ha => alarmConfig_reads hp hf (hext a ha) _) rfl hC
      fun u hu => getHarddiskBody_run_extended hn hu
    exact ⟨t, _, hexec, rfl, by simpa [readAllEvents] using hret⟩

/-- Settles O39: both operations are setters of the drive byte. -/
theorem driveSetters : Obligations.DriveSetters := by
  rintro s second d n fl hd hcode hio hp hv hf rfl rfl
  have hsel := selIndex_driveCode hcode
  refine ⟨fun hn => ?_, fun hn => ?_⟩
  · have hr := checkRange_in (f := .type) (show (0 : Int) ≤ n ∧ (n : Int) ≤ 4 by omega)
    rw [← withDriveNibble_type second _ (show n ≤ 15 by omega)]
    exact exec_setter (i := .setFloppy d n) (a := s.params.cfgMap.floppy)
      (g := fun b => withDriveNibble second b (BitVec.ofInt 4 (n : Int)))
      (by simp [operation, setFloppyOp, hsel, hr, setFloppyBody_eq]) hio hp hv hf (by simp [Params.alarmConfigCells]) rfl rfl
  · have hr := checkRange_in (f := .type) (show (0 : Int) ≤ n ∧ (n : Int) ≤ 15 by omega)
    rw [← withDriveNibble_type second _ hn]
    exact exec_setter (i := .setHarddisk d n) (a := s.params.cfgMap.hdd)
      (g := fun b => withDriveNibble second b (BitVec.ofInt 4 (n : Int)))
      (by simp [operation, setHarddiskOp, hsel, hr, setHarddiskBody_eq]) hio hp hv hf (by simp [Params.alarmConfigCells]) rfl rfl

/-- Settles O40: one store read of the equipment byte. -/
theorem getEquip : Obligations.GetEquip := by
  rintro s e hio hp hf rfl
  have he : s.params.cfgMap.equip ∈ s.params.alarmConfigCells := by simp [Params.alarmConfigCells]
  obtain ⟨hr, hs⟩ := alarmConfig_reads hp hf he 3
  refine exec_read (b := getEquipBody s.params) rfl hio hr hs rfl
    (by simpa [readCells] using alarmConfig_ne_regC hf he) fun u hu => ?_
  simp only [getEquipBody, run_stmt, run_pure, hu, equipRecord, equipCount_toNat]

/-- Settles O41: a setter of the equipment byte, for each field. -/
theorem setEquip : Obligations.SetEquip := by
  rintro s field n e hfn hio hp hv hf rfl
  obtain ⟨f, rfl, hn⟩ : ∃ f : EquipField, field = f.code ∧ n ≤ f.max := by
    rcases hfn with ⟨rfl, hn⟩ | ⟨rfl, hn⟩ | ⟨rfl, hn⟩
    · exact ⟨.fpu, rfl, hn⟩
    · exact ⟨.video, rfl, hn⟩
    · exact ⟨.floppyCount, rfl, hn⟩
  obtain ⟨t, hexec, hret, hx, hsum⟩ := exec_setter (i := .setEquip (BitVec.ofNat 8 f.code) n) (a := s.params.cfgMap.equip)
    (g := fun e => withEquipField e f n) (setEquip_comesTo s.params f hn) hio hp hv hf
    (by simp [Params.alarmConfigCells]) rfl rfl
  simp only [withEquipField_eq] at hret hx
  refine ⟨t, hexec, hret, hx, hsum, fun h2 => ?_⟩
  rw [hx]
  cases f with
  | fpu => cases h2
  | video => cases h2
  | floppyCount => exact floppyCount_withEquip _ hn

/-- Settles O43: a store read, a store write, and a store read decoded by the table. -/
theorem diagAndShutdown : Obligations.DiagAndShutdown := by
  rintro s d h hio rfl rfl
  refine ⟨fun hr hs => ?_, ?_, fun hr hs => ?_⟩
  · refine exec_read (b := getDiagBody s.params) rfl hio hr hs rfl (by simpa [readCells] using hr.2.2.1) fun u hu => ?_
    simp only [getDiagBody, run_stmt, run_pure, hu]
    rfl
  · obtain ⟨u, hu, law⟩ := memWrite_law s.params.cfgMap.diag 0x00#8 s.started
    obtain ⟨hexec, hret⟩ := exec_bus (i := .clearDiag) (b := clearDiagBody s.params) (cells := [s.params.cfgMap.diag])
      (v := .unit) (ws := []) rfl hio (by simp only [clearDiagBody, run_stmt, run_pure, hu]) law.trace (fun _ h => h)
    exact ⟨_, hexec, hret, fun hp hpl ha => hu ▸ memWrite_x_plain 0x00#8 hp hpl ha⟩
  · obtain ⟨t, hexec, hret⟩ := exec_read (i := .getShutdown) (b := getShutdownBody s.params)
      (v := .shutdown (shutdownCode s.params.shutdownTable (s.x s.params.cfgMap.shutdown))) rfl hio hr hs
      rfl (by simpa [readCells] using hr.2.2.1) fun u hu => by simp only [getShutdownBody, run_stmt, run_pure, hu]
    refine ⟨t, _, hexec, hret, shutdownCode_raw, fun pre name post ht hpre => ?_, fun ht => ?_⟩
    · rw [ht]
      exact shutdownCode_known hpre
    · rw [ht]
      exact ⟨shutdownCode_default_raw, shutdownCode_default_known⟩

/-- Settles O46: each of these operations ends in a checksum update, after which the stored sum is that of the covered cells. -/
theorem setterThenVerify : Obligations.SetterThenVerify := by
  intro i s t v ws hp hv hf hi hexec ho
  have hl := exec_sameLaunch hexec
  obtain rfl : runOperation (operation s.params i) s = t := by simpa [exec_operation] using hexec
  obtain ⟨hio, hsum⟩ := (operation_updatesLast s.params hi).sums hp (checksumPlain hv hf) ho
  exact exec_ckVerify (hl.ioPermitted.trans hio) (hl.rtcPresent.trans hp)
    (by rw [hl.params]; exact checksumPlain hv hf) hsum

end Sys2Proof.Certificates
end

section
/-! SUPPORT. The checksum of 45_checksum.md: the two sums as numbers, and what CK_VERIFY reads and returns. -/

namespace Sys2Proof.Machine

open Sys2Proof.Config

/-! ## The sum of the covered cells (45_checksum.md R330) -/

theorem sumBytes_toNat : ∀ (acc : Word16) (bs : List Byte),
    (sumBytes acc bs).toNat = (acc.toNat + (bs.map BitVec.toNat).sum) % 65536
  | acc, [] => by simp [sumBytes, Nat.mod_eq_of_lt acc.isLt]
  | acc, b :: bs => by
    have hb := b.isLt
    rw [sumBytes, sumBytes_toNat, BitVec.toNat_add, BitVec.toNat_setWidth, List.map_cons, List.sum_cons]
    omega

theorem coveredCells_eq : coveredCells = (List.range' 0x10 30).map (BitVec.ofNat 6) := rfl

theorem coveredCells_nodup : coveredCells.Nodup := by decide

/-- The covered cells cannot sum to 65536 or more, so the sum never wraps. -/
theorem coveredSum_toNat (s : State) : s.coveredSum.toNat = (coveredCells.map fun a => (s.x a).toNat).sum := by
  have hle : ∀ n ∈ coveredCells.map fun a => (s.x a).toNat, n ≤ 255 := by
    intro n hn
    obtain ⟨a, -, rfl⟩ := List.mem_map.mp hn
    exact Nat.le_of_lt_succ (s.x a).isLt
  have hsum := List.sum_le_card_nsmul _ _ hle
  rw [List.length_map, show coveredCells.length = 30 from rfl, smul_eq_mul] at hsum
  rw [State.coveredSum, sumBytes_toNat, List.map_map]
  simp only [Function.comp_def, BitVec.toNat_zero, Nat.zero_add]
  omega

/-- Another byte in one covered cell gives another sum (45_checksum.md R338). -/
theorem coveredSum_ne_of_changed {s u : State} {a : CellAddr} (ha : a ∈ coveredCells) (hx : u.x a ≠ s.x a)
    (hkept : ∀ b ∈ coveredCells, b ≠ a → u.x b = s.x b) : u.coveredSum ≠ s.coveredSum := by
  intro h
  have hrest : (coveredCells.erase a).map (fun b => (u.x b).toNat) = (coveredCells.erase a).map fun b => (s.x b).toNat :=
    List.map_congr_left fun b hb => by
      obtain ⟨hne, hb⟩ := coveredCells_nodup.mem_erase_iff.mp hb
      rw [hkept b hb hne]
  have hsum := congrArg BitVec.toNat h
  rw [coveredSum_toNat, coveredSum_toNat, ← List.sum_map_erase _ ha, ← List.sum_map_erase _ ha, hrest] at hsum
  exact hx (BitVec.eq_of_toNat_eq (Nat.add_right_cancel hsum))

/-! ## The stored sum (45_checksum.md R332) -/

theorem storedSum_toNat (s : State) :
    s.storedSum.toNat = (s.x s.params.ckHiAddr).toNat * 256 + (s.x s.params.ckLoAddr).toNat := by
  rw [State.storedSum, BitVec.toNat_append, ← Nat.shiftLeft_add_eq_or_of_lt (BitVec.isLt _), Nat.shiftLeft_eq]

theorem ChecksumPlain.cells {p : Params} (hc : ChecksumPlain p) :
    ∀ a ∈ checksumCells p, agentCell a = false ∧ storesPlain a :=
  List.forall_mem_cons.mpr ⟨hc.hi, List.forall_mem_singleton.mpr hc.lo⟩

/-- The checksum cells are read high byte first. -/
theorem ckStored_trace {s : State} (hp : s.rtcPresent = true) (hc : ChecksumPlain s.params) :
    ((ckStored s.params).run s).2.trace = s.trace ++ (readEvents s.params s.params.ckHiAddr (s.x s.params.ckHiAddr) ++
      readEvents s.params s.params.ckLoAddr (s.x s.params.ckLoAddr)) := by
  obtain ⟨vh, r, hr, law1⟩ := memRead_law s.params.ckHiAddr s
  obtain ⟨vl, u, hu, law2⟩ := memRead_law s.params.ckLoAddr r
  obtain rfl := law1.plain hc.hi.1 (readsPlain_of_storesPlain hp hc.hi.2)
  obtain rfl := law2.plain hc.lo.1 (readsPlain_of_storesPlain (law1.pres hp) hc.lo.2)
  simp only [ckStored, run_bind, run_pure, hr, hu, law2.trace, law1.trace, law1.params, law1.same _ hc.lo.1, List.append_assoc]

/-! ## CK_VERIFY (45_checksum.md R334-R336) -/

/-- The events of CK_VERIFY over the cells as `s` has them: 30 reads, then the stored sum, high byte first. -/
def State.ckVerifyEvents (s : State) : List BusEvent :=
  readAllEvents s.params coveredCells (coveredCells.map s.x) ++
  (readEvents s.params s.params.ckHiAddr (s.x s.params.ckHiAddr) ++
    readEvents s.params s.params.ckLoAddr (s.x s.params.ckLoAddr))

/-- CK_VERIFY reads the covered cells and then the checksum cells. -/
theorem ckVerifyBody_trace {s : State} (hp : s.rtcPresent = true) (hc : ChecksumPlain s.params) :
    ((ckVerifyBody s.params).run s).2.trace = s.trace ++ s.ckVerifyEvents := by
  have al := ckSum_along (rd := coveredCells) (wr := []) (fun _ h => h) s
  have h := ckStored_trace (s := (ckSum.run s).2) (al.same.rtcPresent.trans hp) (al.same.params.symm ▸ hc)
  rw [al.same.params, al.kept _ (by simp) hc.hi.1, al.kept _ (by simp) hc.lo.1, ckSum_trace hp, List.append_assoc] at h
  simpa only [ckVerifyBody, run_stmt, run_step, run_pure, State.ckVerifyEvents] using h

theorem ckVerify_reads_ne_regC {p : Params} (hc : ChecksumPlain p) : ∀ a ∈ readCells p .ckVerify, a ≠ REG_C :=
  List.forall_mem_append.mpr ⟨fun a ha => (covered_plain a ha).2.2.2.1, fun a ha => (hc.cells a ha).2.2.2.1⟩

/-- With port access and an RTC, CK_VERIFY returns whether the two sums agree, a warning beside `false`, and repairs nothing. -/
theorem exec_ckVerify_returned {s : State} (hio : s.ioPermitted = true) (hp : s.rtcPresent = true)
    (hc : ChecksumPlain s.params) : ∃ t, exec .ckVerify s = .next t ∧
      s.Returned t (.bool (decide (s.coveredSum = s.storedSum)))
        (if s.coveredSum = s.storedSum then [] else [.checksumMismatch]) s.ckVerifyEvents [] := by
  have hval := ckVerifyBody_value (s := s.started) hp hc
  have htr := ckVerifyBody_trace (s := s.started) hp hc
  rcases hrun : (ckVerifyBody s.started.params).run s.started with ⟨r, u⟩
  rw [hrun] at hval htr
  simp only [beq_eq_decide, decide_eq_true_eq] at hval
  subst hval
  obtain ⟨hexec, hret⟩ := exec_bus (i := .ckVerify) (b := ckVerifyBody s.params) (cells := []) rfl hio hrun htr (by
    rw [storedCells, List.nil_append, clearedCells_eq_nil (ckVerify_reads_ne_regC hc)]
    exact fun _ h => h)
  exact ⟨_, hexec, hret⟩

/-! ## After an operation -/

/-- A cell that is not named and not the clock agent's stays. -/
theorem State.Returned.same {s t : State} {v : Value} {ws : List Warning} {tr : List BusEvent} {cells : List CellAddr}
    (h : s.Returned t v ws tr cells) {a : CellAddr} (ha : a ∉ cells) (hag : agentCell a = false) : t.x a = s.x a :=
  h.kept a ha (.inl hag) fun _ => .inl (Bool.or_eq_false_iff.mp hag).1

/-- An operation that does not store to the checksum cells leaves the stored sum. -/
theorem State.Returned.storedSum_eq {s t : State} {v : Value} {ws : List Warning} {tr : List BusEvent} {cells : List CellAddr}
    (h : s.Returned t v ws tr cells) (hc : ChecksumPlain s.params) (hn : ∀ a ∈ checksumCells s.params, a ∉ cells) :
    t.storedSum = s.storedSum := by
  have hsame := fun a ha => h.same (hn a ha) (hc.cells a ha).1
  simp only [checksumCells, List.forall_mem_cons] at hsame
  obtain ⟨hhi, hlo, -⟩ := hsame
  rw [State.storedSum, h.launch.params, hhi, hlo, State.storedSum]

end Sys2Proof.Machine

namespace Sys2Proof.Certificates

open Sys2Proof Sys2Proof.Machine Sys2Proof.Config

/-- Settles O44: the operations read plain cells, and thirty bytes cannot sum to 65536. -/
theorem checksumReads : Obligations.ChecksumReads := by
  intro s hio hp
  refine ⟨?_, ?_, fun hv hf => exec_ckVerify_returned hio hp (checksumPlain hv hf)⟩
  · rw [coveredSum_toNat, coveredCells_eq, List.map_map]
    rfl
  · refine exec_reads (i := .ckCompute) (b := ckComputeBody) coveredCells rfl hio
      (fun a ha => ⟨covered_readsPlain hp ha, .inl (covered_plain a ha).1⟩) rfl (fun a ha => (covered_plain a ha).2.2.2.1)
      fun u hu => ?_
    simp only [ckComputeBody, ckSum, run_bind, run_pure, hu, State.coveredSum]

/-- Settles O45: the operation is one checksum update. -/
theorem ckUpdate : Obligations.CkUpdate := by
  intro s hio hp hv hf
  obtain ⟨v, u, hu, rfl, law⟩ := ckUpdate_law s.started hp (checksumPlain hv hf)
  have hrun : (ckUpdateBody s.params).run s.started = ((.word s.coveredSum, []), u) := by
    rw [run_ckUpdateBody, show s.params = s.started.params from rfl, hu]
    rfl
  have htr : u.trace = s.ckUpdateEvents := by rw [law.trace, law.ev, started_trace]; rfl
  obtain ⟨hexec, hret⟩ := exec_bus (i := .ckUpdate) (cells := checksumCells s.params) rfl hio hrun htr
    (by simp [storedCells, readCells, show clearedCells coveredCells = [] by decide])
  have h := storedSum_toNat u
  rw [law.sums, law.sum, law.params] at h
  exact ⟨_, hexec, hret, h.symm⟩

/-- Settles O47: the write changes the sum of the covered cells and leaves the stored one. -/
theorem changedCellFailsVerify : Obligations.ChangedCellFailsVerify := by
  intro s t u a b hio hp hv hf hlo hhi hb ht hu
  have ha : a ∈ coveredCells := (mem_covered a).mpr ⟨hlo, hhi⟩
  have hc := checksumPlain hv hf
  obtain ⟨hag, hpl⟩ := covered_plain a ha
  obtain ⟨_, ht', updated, hsum⟩ := ckUpdate s hio hp hv hf
  cases ht.symm.trans ht'
  have hiot := updated.launch.ioPermitted.trans hio
  have hpt := updated.launch.rtcPresent.trans hp
  have hpart := updated.launch.params
  obtain ⟨_, hu', written, -, -, hxa⟩ := writeCell t a b hiot hpt
  cases hu.symm.trans hu'
  rw [if_neg (not_or.mpr hpl.2.2)] at written
  have hstored : u.storedSum = s.coveredSum := by
    rw [written.storedSum_eq (hpart ▸ hc) fun c hcc hca =>
      hc.covered a ha (by rwa [hpart, List.mem_singleton.mp hca] at hcc)]
    exact BitVec.eq_of_toNat_eq (by rw [storedSum_toNat, hpart, hsum])
  have hchanged : u.coveredSum ≠ s.coveredSum := by
    refine coveredSum_ne_of_changed ha (by rwa [hxa hpl (.inl hag)]) fun c hcc hne => ?_
    have hcag := (covered_plain c hcc).1
    exact (written.same (List.mem_singleton.not.mpr hne) hcag).trans (updated.same (hc.covered c hcc) hcag)
  obtain ⟨w, hw, verified⟩ := exec_ckVerify_returned (written.launch.ioPermitted.trans hiot)
    (written.launch.rtcPresent.trans hpt) (by rwa [written.launch.params, hpart])
  rw [hstored, if_neg hchanged, decide_eq_false hchanged] at verified
  exact ⟨w, hw, verified.outcome⟩

end Sys2Proof.Certificates
end

section
/-! SUPPORT. LATCH_READ of 46_amstrad_latch.md over both transports: the two nibbles as one byte, the bus events, and the selector
put back. -/

namespace Sys2Proof.Machine

open Sys2Proof.Config

/-! ## The byte of a channel (46_amstrad_latch.md R351, R353) -/

/-- The nibble a channel presents where its selector bit is `k` (10_state.md R89). -/
def nibbleOn (l : Latch) (k : Bool) : Nibble := if k then l.n1 else l.n0

/-- The byte of channel `c`: its nibble for the first value of the selector bit, and that for the other (46_amstrad_latch.md
R353). -/
def State.latchByte (s : State) (c : Channel) : Byte :=
  combineNibbles (s.params.latch c).firstIsHi (nibbleOn (s.latch c) (s.params.latch c).firstSel)
    (nibbleOn (s.latch c) (!(s.params.latch c).firstSel))

/-- The byte of a channel, as the statements write it out. -/
theorem latchByte_eq (s : State) (c : Channel) : s.latchByte c =
    (let first := if (s.params.latch c).firstSel then (s.latch c).n1 else (s.latch c).n0
     let second := if (s.params.latch c).firstSel then (s.latch c).n0 else (s.latch c).n1
     if (s.params.latch c).firstIsHi then first ++ second else second ++ first) := by
  rw [State.latchByte, combineNibbles]
  cases (s.params.latch c).firstSel <;> rfl

/-- The byte depends on the launch inputs alone. -/
theorem State.SameLaunch.latchByte {s t : State} (h : s.SameLaunch t) (c : Channel) : t.latchByte c = s.latchByte c := by
  rw [State.latchByte, h.params, latch_eq_of_fields h.latch0 h.latch1, State.latchByte]

/-- The selector bytes of the two reads differ from the byte read at most in the selector bit (46_amstrad_latch.md R351). -/
theorem selectBytes_bits (v : Byte) (b : Fin 8) (first : Bool) : ∀ k < 8,
    (withBit v b.val first).getLsbD k = (if k = b.val then first else v.getLsbD k) ∧
    (withBit v b.val (!first)).getLsbD k = (if k = b.val then !first else v.getLsbD k) := fun k hk =>
  ⟨withBit_bits v b _ k hk, withBit_bits v b _ k hk⟩

/-! ## The request (46_amstrad_latch.md R351) -/

/-- The `channel` operand of a channel (30_encoding.md R144). -/
def channelCode (c : Channel) : Byte := if c = .c1 then 1#8 else 0#8

theorem channelOf_code (c : Channel) : channelOf (channelCode c) = some c := by cases c <;> rfl

theorem latchRead_comesTo (p : Params) (c : Channel) :
    (operation p (.latchRead (channelCode c))).comesTo = .bus (latchReadBody p c) := by
  simp [operation, latchReadOp, channelOf_code]

/-- LATCH_READ stores to its selector cell, if it has one. -/
theorem latchRead_storedCells (p : Params) (c : Channel) :
    storedCells p (.latchRead (channelCode c)) = selectorCells p c := by
  simp [storedCells, channelOf_code]

/-- LATCH_READ reads its channel's cells, if it has any. -/
theorem latchRead_readCells (p : Params) (c : Channel) : readCells p (.latchRead (channelCode c)) = channelCells p c := by
  simp [readCells, channelOf_code]

/-! ## Over ports (46_amstrad_latch.md R352) -/

/-- A write of a channel's selector port and the read of its nibble port after it: the nibble for the bit written. -/
theorem selWrite_nibRead_port {c : Channel} {sel nib : Port} {p : Params} {s : State} (w : Byte) (hp : s.params = p)
    (ht : (p.latch c).transport = .port sel nib) : ∃ v r t, (selWrite p c w).run s = ((), r) ∧
      (nibRead p c).run r = (nibbleOn (s.latch c) (w.getLsbD (p.latch c).selBit.val), t) ∧
      t.trace = s.trace ++ [.out sel w, .barrier, .inp nib v] ∧ t.params = p ∧ t.latch c = { s.latch c with sel := w } ∧
      t.idx = s.idx := by
  subst hp
  obtain ⟨r, hr, rtrace, rparams, rlatch, ridx⟩ := selPort_ex c sel w s
  obtain ⟨v, t, hv, hn, ttrace, tparams, tlatch, tidx⟩ := nibPort_ex c nib r (by rw [rparams]; exact ht)
  rw [rparams, rlatch] at hn
  refine ⟨v, r, t, ?_, ?_, ?_, tparams.trans rparams, tlatch.trans rlatch, tidx.trans ridx⟩
  · simp only [selWrite, ht, run_ask, perform, hr, run_pure]
  · simp only [nibRead, ht, run_bind, run_request, perform, hv, hn, run_pure]
    rfl
  · rw [ttrace, rtrace, List.append_assoc]
    rfl

/-- The program of LATCH_READ over ports: nine events, the byte of the two nibbles, and the address latch left alone. -/
theorem latchReadBody_port {s : State} {c : Channel} {sel nib : Port} {l : LatchParams} (hl : s.params.latch c = l)
    (ht : l.transport = .port sel nib) : ∃ v1 v2 u,
      (latchReadBody s.params c).run s = ((.byte (s.latchByte c), []), u) ∧
      u.trace = s.trace ++ [.inp sel (s.latch c).sel, .out sel (withBit (s.latch c).sel l.selBit.val l.firstSel), .barrier,
        .inp nib v1, .out sel (withBit (s.latch c).sel l.selBit.val (!l.firstSel)), .barrier, .inp nib v2,
        .out sel (s.latch c).sel, .barrier] ∧
      u.idx = s.idx := by
  subst hl
  obtain ⟨v1, r1, t1, hw1, hn1, trace1, params1, latch1, idx1⟩ := selWrite_nibRead_port
    (withBit (s.latch c).sel (s.params.latch c).selBit.val (s.params.latch c).firstSel) (selPortIn_params c sel s) ht
  obtain ⟨v2, r2, t2, hw2, hn2, trace2, params2, latch2, idx2⟩ := selWrite_nibRead_port
    (withBit (s.latch c).sel (s.params.latch c).selBit.val (!(s.params.latch c).firstSel)) params1 ht
  obtain ⟨u, hu, trace3, -, -, idx3⟩ := selPort_ex c sel (s.latch c).sel t2
  have h0 : (selRead s.params c).run s = ((s.latch c).sel, (selPortIn c sel s).2) := by
    simp only [selRead, ht, run_request, perform]
    exact Prod.ext (selPortIn_value c sel s) rfl
  have h3 : (selWrite s.params c (s.latch c).sel).run t2 = ((), u) := by
    simp only [selWrite, ht, run_ask, perform, hu, run_pure]
  rw [withBit_bit, selPortIn_latch] at hn1
  rw [withBit_bit, latch1, selPortIn_latch] at hn2
  refine ⟨v1, v2, u, ?_, ?_, ?_⟩
  · simp only [latchReadBody, run_step, run_stmt, run_pure, h0, hw1, hn1, hw2, hn2, h3]
    rfl
  · rw [trace3, trace2, trace1, selPortIn_trace]
    simp only [List.append_assoc, List.cons_append, List.nil_append]
  · rw [idx3, idx2, idx1, selPortIn_idx]

/-- With port access, LATCH_READ over ports returns its channel's byte. -/
theorem exec_latchRead_port {s : State} {c : Channel} {sel nib : Port} {l : LatchParams} (hio : s.ioPermitted = true)
    (hl : s.params.latch c = l) (ht : l.transport = .port sel nib) :
    ∃ t v1 v2, exec (.latchRead (channelCode c)) s = .next t ∧
      s.Returned t (.byte (s.latchByte c)) []
        [.inp sel (s.latch c).sel, .out sel (withBit (s.latch c).sel l.selBit.val l.firstSel), .barrier, .inp nib v1,
          .out sel (withBit (s.latch c).sel l.selBit.val (!l.firstSel)), .barrier, .inp nib v2,
          .out sel (s.latch c).sel, .barrier] [] ∧
      t.idx = s.idx := by
  obtain ⟨v1, v2, u, hu, htr, hidx⟩ := latchReadBody_port (s := s.started) hl ht
  have hsel : selectorCells s.params c = [] := by simp only [selectorCells, hl, ht]
  have hcells : channelCells s.params c = [] := by simp only [channelCells, hl, ht]
  obtain ⟨hexec, hret⟩ := exec_bus (latchRead_comesTo s.params c) hio hu htr (cells := []) (by
    simp [latchRead_storedCells, latchRead_readCells, hsel, hcells, clearedCells])
  exact ⟨_, v1, v2, hexec, hret, hidx⟩

/-! ## Over store cells (46_amstrad_latch.md R350) -/

/-- The constraint on each channel's transport, with valid parameters (46_amstrad_latch.md R350). -/
theorem transportOk_of_valid {p : Params} (hv : p.valid = true) (c : Channel) :
    p.transportOk (p.latch c).transport = true := by
  simp only [Params.valid, Bool.and_eq_true, and_assoc] at hv
  obtain ⟨h0, h1, -⟩ := hv
  cases c
  · exact h0
  · exact h1

/-- With valid parameters no cell of a channel is a read-only register (46_amstrad_latch.md R350). -/
theorem channelCells_not_readOnly {p : Params} (hv : p.valid = true) {c : Channel} {a : CellAddr}
    (ha : a ∈ channelCells p c) : a ≠ REG_C ∧ a ≠ REG_D := by
  have hok := transportOk_of_valid hv c
  unfold channelCells at ha
  split at ha
  next => cases ha
  next sel nib ht =>
    simp only [ht, Params.transportOk, latchCellOk, Bool.and_eq_true, bne_iff_ne, and_assoc] at hok
    obtain ⟨-, selC, selD, -, nibC, nibD, -⟩ := hok
    simp only [List.mem_cons, List.not_mem_nil, or_false] at ha
    rcases ha with rfl | rfl
    · exact ⟨selC, selD⟩
    · exact ⟨nibC, nibD⟩

/-- A selector cell that keeps what is written to it: a plain cell that no agent changes, with an RTC. -/
structure SelectorPlain (s : State) (sel : CellAddr) : Prop where
  present : s.rtcPresent = true
  agent : agentCell sel = false
  plain : storesPlain sel

/-- A store write of a channel's selector cell and the read of its nibble cell after it. -/
theorem selWrite_nibRead_store {c : Channel} {sel nib : CellAddr} {p : Params} {s : State} (w : Byte) (hp : s.params = p)
    (ht : (p.latch c).transport = .store sel nib) : ∃ v r t, (selWrite p c w).run s = ((), r) ∧
      (nibRead p c).run r = (nibbleAt v (p.latch c).nibShift.val, t) ∧
      t.trace = s.trace ++ (writeEvents p sel w ++ readEvents p nib v) ∧ t.params = p ∧ t.latch c = s.latch c ∧
      (SelectorPlain s sel → SelectorPlain t sel ∧
        nibbleAt v (p.latch c).nibShift.val = nibbleOn (s.latch c) (w.getLsbD (p.latch c).selBit.val)) := by
  subst hp
  obtain ⟨r, hr, wlaw⟩ := memWrite_law sel w s
  obtain ⟨v, t, hv, nlaw⟩ := memReadNib_law c nib r
  have hlatch : r.latch c = s.latch c := hr ▸ memWrite_latch sel w s c
  refine ⟨v, r, t, ?_, ?_, ?_, nlaw.params.trans wlaw.params, (nlaw.latch c).trans hlatch, fun ⟨hp, ha, hpl⟩ => ?_⟩
  · simp only [selWrite, ht]
    exact Prod.ext rfl hr
  · simp only [nibRead, ht, run_bind, hv, run_pure]
  · rw [nlaw.trace, wlaw.trace, wlaw.params, List.append_assoc]
  · have hn := nlaw.nibble sel nib (wlaw.pres hp) (by rw [wlaw.params]; exact ht) ha
    rw [wlaw.params, wlaw.plainStored ha hpl hp, hlatch] at hn
    exact ⟨⟨nlaw.pres.trans (wlaw.pres hp), ha, hpl⟩, hn⟩

/-- The events of LATCH_READ over store cells: the selector byte `v0`, the answers `v1` and `v2` (46_amstrad_latch.md R351). -/
def latchStoreEvents (p : Params) (c : Channel) (sel nib : CellAddr) (v0 v1 v2 : Byte) : List BusEvent :=
  readEvents p sel v0 ++ (writeEvents p sel (withBit v0 (p.latch c).selBit.val (p.latch c).firstSel) ++
    (readEvents p nib v1 ++ (writeEvents p sel (withBit v0 (p.latch c).selBit.val (!(p.latch c).firstSel)) ++
      (readEvents p nib v2 ++ writeEvents p sel v0))))

/-- The byte of LATCH_READ over store cells, from the answers of its nibble cell. -/
def latchStoreByte (l : LatchParams) (v1 v2 : Byte) : Byte :=
  combineNibbles l.firstIsHi (nibbleAt v1 l.nibShift.val) (nibbleAt v2 l.nibShift.val)

/-- The program of LATCH_READ over store cells; with a plain selector cell, the channel's byte and the cell as it was. -/
theorem latchReadBody_store {s : State} {c : Channel} {sel nib : CellAddr}
    (ht : (s.params.latch c).transport = .store sel nib) : ∃ v0 v1 v2 u,
      (latchReadBody s.params c).run s = ((.byte (latchStoreByte (s.params.latch c) v1 v2), []), u) ∧
      u.trace = s.trace ++ latchStoreEvents s.params c sel nib v0 v1 v2 ∧
      (SelectorPlain s sel → v0 = s.x sel ∧ latchStoreByte (s.params.latch c) v1 v2 = s.latchByte c ∧ u.x sel = s.x sel) := by
  obtain ⟨v0, t0, h0, rlaw⟩ := memRead_law sel s
  obtain ⟨v1, r1, t1, hw1, hn1, trace1, params1, latch1, plain1⟩ := selWrite_nibRead_store
    (withBit v0 (s.params.latch c).selBit.val (s.params.latch c).firstSel) rlaw.params ht
  obtain ⟨v2, r2, t2, hw2, hn2, trace2, params2, latch2, plain2⟩ := selWrite_nibRead_store
    (withBit v0 (s.params.latch c).selBit.val (!(s.params.latch c).firstSel)) params1 ht
  obtain ⟨u, hu, wlaw⟩ := memWrite_law sel v0 t2
  have hr : (selRead s.params c).run s = (v0, t0) := by simp only [selRead, ht, h0]
  have hw : (selWrite s.params c v0).run t2 = ((), u) := by
    simp only [selWrite, ht]
    exact Prod.ext rfl hu
  refine ⟨v0, v1, v2, u, ?_, ?_, fun hs => ?_⟩
  · simp only [latchReadBody, run_step, run_stmt, run_pure, hr, hw1, hn1, hw2, hn2, hw]
    rfl
  · rw [wlaw.trace, params2, trace2, trace1, rlaw.trace, latchStoreEvents]
    simp only [List.append_assoc]
  · obtain ⟨hp, ha, hpl⟩ := hs
    have hv0 := rlaw.plain ha (readsPlain_of_storesPlain hp hpl)
    have hlatch : t0.latch c = s.latch c := by
      simpa [h0] using memRead_latch sel s c
    obtain ⟨hs1, first⟩ := plain1 ⟨rlaw.pres hp, ha, hpl⟩
    obtain ⟨hs2, second⟩ := plain2 hs1
    rw [withBit_bit, hlatch] at first
    rw [withBit_bit, latch1, hlatch] at second
    refine ⟨hv0, ?_, (wlaw.plainStored ha hpl hs2.present).trans hv0⟩
    rw [latchStoreByte, first, second, State.latchByte]

/-- With port access and valid parameters, LATCH_READ over store cells returns the byte of the nibble cell's answers; with a plain
selector cell, its channel's byte, and that cell as it was. -/
theorem exec_latchRead_store {s : State} {c : Channel} {sel nib : CellAddr} (hio : s.ioPermitted = true)
    (hv : s.params.valid = true) (ht : (s.params.latch c).transport = .store sel nib) :
    ∃ t v0 v1 v2, exec (.latchRead (channelCode c)) s = .next t ∧
      s.Returned t (.byte (latchStoreByte (s.params.latch c) v1 v2)) [] (latchStoreEvents s.params c sel nib v0 v1 v2) [sel] ∧
      (SelectorPlain s sel → v0 = s.x sel ∧ latchStoreByte (s.params.latch c) v1 v2 = s.latchByte c ∧ t.x sel = s.x sel) := by
  obtain ⟨v0, v1, v2, u, hu, htr, hs⟩ := latchReadBody_store (s := s.started) ht
  have hsel : selectorCells s.params c = [sel] := by simp only [selectorCells, ht]
  have hclear : clearedCells (channelCells s.params c) = [] :=
    clearedCells_eq_nil fun a ha => (channelCells_not_readOnly hv ha).1
  obtain ⟨hexec, hret⟩ := exec_bus (latchRead_comesTo s.params c) hio hu htr (cells := [sel]) (by
    simp [latchRead_storedCells, latchRead_readCells, hsel, hclear])
  exact ⟨_, v0, v1, v2, hexec, hret, fun ⟨hp, ha, hpl⟩ => hs ⟨hp, ha, hpl⟩⟩

/-! ## Two reads in a row (46_amstrad_latch.md R354) -/

/-- A channel whose selector LATCH_READ puts back: over ports any, over store cells one with valid parameters and a selector cell
that is neither the clock agent's nor a Register. -/
def SelectorRestored (s : State) (c : Channel) : Prop := ∀ sel nib, (s.params.latch c).transport = .store sel nib →
  s.rtcPresent = true ∧ s.params.valid = true ∧ agentCell sel = false ∧ sel ≠ REG_A ∧ sel ≠ REG_B

theorem SelectorRestored.of_sameLaunch {s t : State} {c : Channel} (h : SelectorRestored s c) (hl : s.SameLaunch t) :
    SelectorRestored t c := by
  rw [SelectorRestored, hl.params, hl.rtcPresent]
  exact h

/-- With valid parameters, a selector cell that is neither the clock agent's nor a Register is a plain cell. -/
theorem selectorPlain_of_valid {s : State} {c : Channel} {sel nib : CellAddr} (hp : s.rtcPresent = true)
    (hv : s.params.valid = true) (ht : (s.params.latch c).transport = .store sel nib) (ha : agentCell sel = false)
    (hA : sel ≠ REG_A) (hB : sel ≠ REG_B) : SelectorPlain s sel :=
  have hCD := channelCells_not_readOnly hv (c := c) (a := sel) (by simp only [channelCells, ht, List.mem_cons, true_or])
  ⟨hp, ha, hA, hB, hCD.1, hCD.2⟩

/-- With port access, LATCH_READ of such a channel returns the channel's byte and leaves the selector as it was. -/
theorem latchRead_restores {s t : State} {c : Channel} (hio : s.ioPermitted = true) (hc : SelectorRestored s c)
    (h : exec (.latchRead (channelCode c)) s = .next t) :
    t.outcome = some (.ok (.byte (s.latchByte c)) []) ∧ selectorValue c t = selectorValue c s := by
  have hl := exec_sameLaunch h
  cases ht : (s.params.latch c).transport with
  | port sel nib =>
    obtain ⟨t', v1, v2, hexec, hret, -⟩ := exec_latchRead_port hio rfl ht
    cases h.symm.trans hexec
    refine ⟨hret.outcome, ?_⟩
    simp only [selectorValue, hl.params, ht, latch_eq_of_fields hl.latch0 hl.latch1]
  | store sel nib =>
    obtain ⟨hp, hv, ha, hA, hB⟩ := hc sel nib ht
    obtain ⟨t', v0, v1, v2, hexec, hret, hs⟩ := exec_latchRead_store hio hv ht
    cases h.symm.trans hexec
    obtain ⟨-, hbyte, hx⟩ := hs (selectorPlain_of_valid hp hv ht ha hA hB)
    refine ⟨hbyte ▸ hret.outcome, ?_⟩
    simp only [selectorValue, hl.params, ht, hx]

end Sys2Proof.Machine

namespace Sys2Proof.Certificates

open Sys2Proof Sys2Proof.Machine Sys2Proof.Config

/-- Settles O48: each write of the selector port chooses the nibble that the read after it shows. -/
theorem latchReadPort : Obligations.LatchReadPort := by
  intro s c sel nib hio ht
  obtain ⟨t, v1, v2, hexec, hret, hidx⟩ := exec_latchRead_port hio rfl ht
  rw [latchByte_eq] at hret
  exact ⟨t, _, _, v1, v2, hexec, hret, hidx, selectBytes_bits _ _ _⟩

/-- Settles O49: four store transactions of the selector cell and two of the nibble cell. -/
theorem latchReadStoreEvents : Obligations.LatchReadStoreEvents := by
  intro s c sel nib hio hv ht
  obtain ⟨t, v0, v1, v2, hexec, hret, -⟩ := exec_latchRead_store hio hv ht
  exact ⟨t, v0, _, _, v1, v2, _, _, hexec, hret, rfl, rfl, selectBytes_bits _ _ _⟩

/-- Settles O50: a plain selector cell keeps each byte written, and so chooses the nibbles and ends as it began. -/
theorem latchReadStore : Obligations.LatchReadStore := by
  intro s c sel nib hio hp hv ht ha hA hB
  obtain ⟨t, v0, v1, v2, hexec, hret, hs⟩ := exec_latchRead_store hio hv ht
  obtain ⟨rfl, hbyte, hx⟩ := hs (selectorPlain_of_valid hp hv ht ha hA hB)
  rw [hbyte, latchByte_eq] at hret
  exact ⟨t, _, _, v1, v2, hexec, hret, hx⟩

/-- Settles O51: the byte depends on the launch inputs alone, which the first read leaves as they were. -/
theorem latchReadTwice : Obligations.LatchReadTwice := by
  rintro s t u c i rfl hio hc ht hu
  have hl := exec_sameLaunch ht
  obtain ⟨tbyte, tsel⟩ := latchRead_restores hio hc ht
  obtain ⟨ubyte, usel⟩ := latchRead_restores (hl.ioPermitted.trans hio) (SelectorRestored.of_sameLaunch hc hl) hu
  rw [hl.latchByte] at ubyte
  exact ⟨⟨_, tbyte, ubyte⟩, tsel, usel.trans tsel⟩

end Sys2Proof.Certificates
end

section
/-! SUPPORT. The snapshots of 47_snapshot.md: one read among others, EXPORT_SNAPSHOT, and DIFF. -/

namespace Sys2Proof.Machine

open Sys2Proof.Config

/-! ## One read among others -/

/-- Reads in sequence from `s` to `u`, among them one of cell `a`, from `r` to `r'` with the answer `v`; before it only cells of `pre`
are read, after it only cells of `post`, and nothing is written. -/
structure ReadAmid (pre : List CellAddr) (a : CellAddr) (v : Byte) (post : List CellAddr) (s r r' u : State) : Prop where
  before : ∀ R, OpLaw s.params pre [] [] R → R s r
  law : ReadLaw a r v r'
  after : ∀ R, OpLaw s.params post [] [] R → R r' u

section
variable {pre post : List CellAddr} {a : CellAddr} {v : Byte} {s r r' u : State} (h : ReadAmid pre a v post s r r' u)
include h

theorem ReadAmid.along : Along pre [] s r := h.before _ (Along.law _ _ _ _)

theorem ReadAmid.alongAfter : Along post [] r' u := h.after _ (Along.law _ _ _ _)

theorem ReadAmid.present (hp : s.rtcPresent = true) : r.rtcPresent = true := h.along.same.rtcPresent.trans hp

theorem ReadAmid.same {b : CellAddr} (hb : agentCell b = false) : r.x b = s.x b := h.along.kept b (by simp) hb

/-- Up to a read no flag of Register C is cleared, if that register is not read before. -/
theorem ReadAmid.flagsBefore (hC : REG_C ∉ pre) : FlagsSet s r := h.before _ (flagsSet_law hC)

/-- After a read no flag of Register C is cleared, if that register is not read any more. -/
theorem ReadAmid.flagsAfter (hC : REG_C ∉ post) : FlagsSet r' u := h.after _ (flagsSet_law hC)

/-- A plain cell that the clock agent cannot change meanwhile is read as it was at the start. -/
theorem ReadAmid.steady (h0 : s.trace = []) (hr : s.readsPlain a) (hs : s.Steady a u.trace.length) : v = s.x a := by
  obtain ⟨ev, htr, -⟩ := h.alongAfter.events
  obtain ⟨hst, hx⟩ := h.along.steady_later h0 (fun e => absurd e hr.2.2.1) hs (k := 3) (by
    rw [htr, h.law.trace]
    simp [readEvents])
  rw [← hx]
  exact h.law.steady (h.along.readsPlain hr) hst

/-- With quiet draws the read is quiet, and before and after it Register C alone may change, by a read of it. -/
theorem ReadAmid.quiet (h0 : s.trace = []) (hq : s.QuietFor u.trace.length) : r.QuietFor 3 ∧ r.uipNow = s.uipNow ∧
    (∀ b, (b = REG_C → REG_C ∉ pre) → r.x b = s.x b) ∧ ∀ b, (b = REG_C → REG_C ∉ post) → u.x b = r'.x b := by
  obtain ⟨l, htr, quietBefore⟩ := h.along.events
  obtain ⟨m, htr', quietAfter⟩ := h.alongAfter.events
  have hlen : u.trace.length = l.length + (3 + m.length) := by
    rw [htr', h.law.trace, htr, h0]
    simp [readEvents]
    omega
  rw [hlen] at hq
  obtain ⟨hqr, huip, hxr⟩ := quietBefore _ hq
  obtain ⟨hqr', -⟩ := h.law.quiet _ hqr
  obtain ⟨-, -, hxu⟩ := quietAfter 0 hqr'
  exact ⟨QuietFor_mono hqr (by omega), huip, fun b => hxr b (by simp), fun b => hxu b (by simp)⟩

end

/-! ## EXPORT_SNAPSHOT (47_snapshot.md R371) -/

theorem mem_allCells (a : CellAddr) : a ∈ allCells := by
  revert a; decide +kernel

theorem allCells_eq : allCells = (List.range 64).map (BitVec.ofNat 6) := by decide

/-- The cells before a cell, the cell, and the cells after it. -/
theorem allCells_split (a : CellAddr) : allCells = allCells.take a.toNat ++ a :: allCells.drop (a.toNat + 1) := by
  revert a; decide +kernel

/-- EXPORT_SNAPSHOT is the poll and then the reads of all cells in sequence. -/
theorem exportSnapshotBody_run (p : Params) (s : State) : (exportSnapshotBody p).run s =
    ((.snapshot ((memReadAll allCells).run ((waitUip p).run s).2).1, ((waitUip p).run s).1),
      ((memReadAll allCells).run ((waitUip p).run s).2).2) := by
  simp only [exportSnapshotBody, run_stmt, run_bind, run_pure, run_memReadEach]

/-- Byte `a` of EXPORT_SNAPSHOT's result is the answer of a read of cell `a`, after the poll and the reads of the cells below it. -/
theorem exportSnapshot_readAmid (a : CellAddr) {s u : State} {snap : List Byte}
    (hu : (memReadAll allCells).run ((waitUip s.params).run s).2 = (snap, u)) : ∃ v r r', snap[a.toNat]? = some v ∧
      ReadAmid (s.params.cellMap.regA :: allCells.take a.toNat) a v (allCells.drop (a.toNat + 1)) s r r' u := by
  rw [allCells_split a, memReadAll_append] at hu
  obtain ⟨v, r', hr', law⟩ := memRead_law a ((memReadAll (allCells.take a.toNat)).run ((waitUip s.params).run s).2).2
  simp only [memReadAll, run_bind, run_pure, hr', Prod.mk.injEq] at hu
  obtain ⟨rfl, rfl⟩ := hu
  refine ⟨v, _, r', ?_, ⟨fun R L => ?_, law, fun R L => ?_⟩⟩
  · have hlen : (allCells.take a.toNat).length = a.toNat := List.length_take_of_le (by
      have := a.isLt
      simp [allCells_eq]
      omega)
    rw [List.getElem?_append_right (by rw [memReadAll_length, hlen]), memReadAll_length, hlen, Nat.sub_self]
    rfl
  · obtain ⟨hparams, hpoll⟩ := Keeps.waitUip L (by simp) s rfl
    exact L.trans hpoll (Keeps.readAll L _ (fun _ hb => List.mem_cons_of_mem _ hb) _ hparams).2
  · refine (Keeps.readAll L _ (fun _ hb => hb) r' ?_).2
    rw [law.params, run_params, run_params]

/-! ## DIFF (47_snapshot.md R385) -/

@[simp] theorem comesTo_steps (n : Nat) (o : Operation) : (o.steps n).comesTo = o.comesTo := by
  induction n with
  | zero => rfl
  | succ n ih => exact ih

/-- The differences from `i` on are the entries whose bytes stand at one of the next `n` addresses and differ. -/
theorem mem_diffFrom {n i : Nat} {a b : List Byte} {e : DiffEntry} : e ∈ diffFrom n i a b ↔
    (i ≤ e.addr ∧ e.addr < i + n) ∧ e.a ≠ e.b ∧ a.getD e.addr 0x00#8 = e.a ∧ b.getD e.addr 0x00#8 = e.b := by
  induction n generalizing i with
  | zero => simp [diffFrom]
  | succ n ih =>
    have hrange : (i ≤ e.addr ∧ e.addr < i + (n + 1)) ↔ e.addr = i ∨ (i + 1 ≤ e.addr ∧ e.addr < i + 1 + n) := by omega
    rw [hrange, or_and_right, ← ih, diffFrom]
    split
    next heq =>
      refine ⟨.inr, fun h => h.resolve_left ?_⟩
      rintro ⟨rfl, hne, ha, hb⟩
      exact hne (ha.symm.trans (heq.trans hb))
    next hne =>
      rw [List.mem_cons]
      refine or_congr_left ⟨?_, ?_⟩
      · rintro rfl
        exact ⟨rfl, hne, rfl, rfl⟩
      · rintro ⟨rfl, -, ha, hb⟩
        rw [ha, hb]

/-- The differences stand in strictly ascending order of address. -/
theorem diffFrom_pairwise (n i : Nat) (a b : List Byte) : (diffFrom n i a b).Pairwise fun e f => e.addr < f.addr := by
  induction n generalizing i with
  | zero => exact .nil
  | succ n ih =>
    rw [diffFrom]
    split
    · exact ih (i + 1)
    · exact .cons (fun e he => (mem_diffFrom.mp he).1.1) (ih (i + 1))

/-- Inside a byte string, `getD` gives the byte that is there. -/
theorem getD_eq_iff {l : List Byte} {k : Nat} {v : Byte} (h : k < l.length) : l.getD k 0x00#8 = v ↔ l[k]? = some v := by
  rw [List.getD_eq_getElem?_getD, List.getElem?_eq_getElem h, Option.getD_some, Option.some_inj]

end Sys2Proof.Machine

namespace Sys2Proof.Certificates

open Sys2Proof Sys2Proof.Machine Sys2Proof.Config

/-- Settles O53: the poll and 64 reads; the read of Register C clears it, and only flags are set of it before and after. -/
theorem exportSnapshot : Obligations.ExportSnapshot := by
  intro s hio
  obtain ⟨polls, hpoll, htr, -⟩ := poll_then_read allCells (readCells s.params .exportSnapshot) s.started List.mem_cons_self
    (fun _ h => List.mem_cons_of_mem _ h) (started_trace s)
  have hbody := exportSnapshotBody_run s.params s.started
  have hlen := memReadAll_length allCells ((waitUip s.params).run s.started).2
  rcases hreads : (memReadAll allCells).run ((waitUip s.started.params).run s.started).2 with ⟨snap, u⟩
  rw [hreads] at htr
  rw [show s.params = s.started.params from rfl, hreads] at hbody hlen
  obtain ⟨hexec, hret⟩ := exec_bus (i := .exportSnapshot) (b := exportSnapshotBody s.params) (cells := [REG_C]) rfl hio hbody htr
    fun a ha => List.mem_singleton.mpr (by simpa using (List.mem_filter.mp ha).2)
  rw [allCells_eq] at hret
  obtain ⟨va, _, _, hva, amidA⟩ := exportSnapshot_readAmid REG_A hreads
  obtain ⟨vc, _, _, hvc, amidC⟩ := exportSnapshot_readAmid REG_C hreads
  obtain ⟨vd, _, _, hvd, amidD⟩ := exportSnapshot_readAmid REG_D hreads
  have beforeC : s.params.cellMap.regA ≠ REG_C → REG_C ∉ s.params.cellMap.regA :: allCells.take REG_C.toNat := fun hA =>
    List.not_mem_cons_of_ne_of_not_mem hA.symm (by decide)
  have afterC : REG_C ∉ allCells.drop (REG_C.toNat + 1) := by decide
  refine ⟨_, polls, _, snap, hexec, hpoll, hlen, hret, fun a hr hs => ?_, fun hp => ⟨?_, va, hva, ?_, fun hq => ?_⟩,
    fun hp hA => ⟨vc, hvc, ?_, fun hq => ?_⟩, fun hp hq => ⟨?_, vd, hvd, ?_⟩⟩
  · obtain ⟨v, _, _, hv, amid⟩ := exportSnapshot_readAmid a hreads
    exact hv.trans (congrArg some (amid.steady (started_trace s) hr hs))
  · exact (amidC.flagsAfter afterC).low_clear (amidC.law.regCclr rfl (amidC.present hp))
  · rw [amidA.law.regAlow rfl (amidA.present hp), amidA.same (by decide)]
    rfl
  · obtain ⟨hqr, huip, -⟩ := amidA.quiet (started_trace s) hq
    exact (amidA.law.regAtop rfl (amidA.present hp) hqr).trans huip
  · exact (amidC.flagsBefore (beforeC hA)).covered (amidC.law.regCflags rfl (amidC.present hp))
  · obtain ⟨hqr, -, hx, -⟩ := amidC.quiet (started_trace s) hq
    exact (amidC.law.regC rfl (amidC.present hp) hqr).trans (hx REG_C fun _ => beforeC hA)
  · obtain ⟨-, -, -, hx⟩ := amidC.quiet (started_trace s) hq
    exact (hx REG_C fun _ => afterC).trans (amidC.law.regCclr rfl (amidC.present hp))
  · obtain ⟨hqr, -⟩ := amidD.quiet (started_trace s) hq
    rw [amidD.law.regD rfl (amidD.present hp) hqr, amidD.same (by decide)]
    rfl

/-- Settles O58: the comparison runs over the 64 addresses in ascending order. -/
theorem diff : Obligations.Diff := by
  intro s a b ha hb
  have hmem : ∀ e, e ∈ diffFrom 64 0 a b ↔ e.addr < 64 ∧ e.a ≠ e.b ∧ a[e.addr]? = some e.a ∧ b[e.addr]? = some e.b := by
    intro e
    simp only [mem_diffFrom, Nat.zero_le, Nat.zero_add, true_and]
    exact and_congr_right fun hk => by rw [getD_eq_iff (ha ▸ hk), getD_eq_iff (hb ▸ hk)]
  refine ⟨_, exec_answered (comesTo_steps 65 _), diffFrom_pairwise 64 0 a b, hmem, ?_⟩
  rintro rfl
  refine List.eq_nil_iff_forall_not_mem.mpr fun e he => ?_
  obtain ⟨-, hne, h1, h2⟩ := (hmem e).mp he
  exact hne (Option.some.inj (h1.symm.trans h2))

end Sys2Proof.Certificates
end

section
/-! SUPPORT. IMPORT_SNAPSHOT of 47_snapshot.md, and the round trip (R387). -/

namespace Sys2Proof.Machine

open Sys2Proof.Config

/-! ## Writes in sequence -/

/-- Between two points a cell that is not written stays, if it is not the clock agent's or the draws are quiet. -/
theorem Along.unwritten {rd wr : List CellAddr} {s t : State} (al : Along rd wr s t) {ev : List BusEvent}
    (htr : t.trace = s.trace ++ ev) {a : CellAddr} (hw : a ∉ wr) (hC : a = REG_C → REG_C ∉ rd)
    (h : agentCell a = false ∨ s.QuietFor ev.length) : t.x a = s.x a := by
  rcases h with h | h
  · exact al.kept a hw h
  · obtain ⟨ev', htr', hev⟩ := al.events
    obtain rfl : ev' = ev := List.append_cancel_left (htr'.symm.trans htr)
    exact (hev 0 h).2.2 a hw hC

/-- After writes in sequence, a plain cell to which they all write one byte holds it, however often it is written. -/
theorem memWriteAll_x_repeated {a : CellAddr} {v : Byte} (ha : agentCell a = false) (hpl : storesPlain a) :
    ∀ (l : List (CellAddr × Byte)) (s : State), s.rtcPresent = true → a ∈ l.map Prod.fst → (∀ e ∈ l, e.1 = a → e.2 = v) →
      ((memWriteAll l).run s).2.x a = v
  | [], _, _, hm, _ => absurd hm List.not_mem_nil
  | e :: l, s, hp, hm, hv => by
    obtain ⟨r, hr, law⟩ := memWrite_law e.1 e.2 s
    simp only [memWriteAll, run_stmt, hr]
    by_cases hl : a ∈ l.map Prod.fst
    · exact memWriteAll_x_repeated ha hpl l r (law.pres hp) hl fun f hf => hv f (List.mem_cons_of_mem _ hf)
    · obtain rfl : a = e.1 := (List.mem_cons.mp hm).resolve_right hl
      have al := memWriteAll_along (rd := []) l (fun _ hf => List.mem_map_of_mem hf) r
      rw [al.kept _ hl ha, law.plainStored ha hpl hp]
      exact hv e List.mem_cons_self rfl

/-- All that writes in sequence from `s` to `t` can do. -/
structure WritesLaw (l : List (CellAddr × Byte)) (s t : State) : Prop where
  pres : s.rtcPresent = true → t.rtcPresent = true
  params : t.params = s.params
  trace : t.trace = s.trace ++ writeAllEvents s.params l
  along : Along [] (l.map Prod.fst) s t
  distinct : s.rtcPresent = true → (l.map Prod.fst).Nodup → ∀ e ∈ l,
    agentCell e.1 = false ∨ s.QuietFor (writeAllEvents s.params l).length →
    t.x e.1 = storedByte s.params.setClearsUie e.1 (s.x e.1) e.2
  repeated : s.rtcPresent = true → ∀ a v, agentCell a = false → storesPlain a → a ∈ l.map Prod.fst →
    (∀ e ∈ l, e.1 = a → e.2 = v) → t.x a = v

/-- Writes in sequence, with the state after them named. -/
theorem memWriteAll_law (l : List (CellAddr × Byte)) (s : State) : ∃ t, ((memWriteAll l).run s).2 = t ∧ WritesLaw l s t :=
  have al := memWriteAll_along (rd := []) l (fun _ he => List.mem_map_of_mem he) s
  ⟨_, rfl, al.same.rtcPresent.trans, al.same.params, memWriteAll_trace l s, al, memWriteAll_x_quiet l s,
    fun hp _ _ ha hpl => memWriteAll_x_repeated ha hpl l s hp⟩

/-! ## IMPORT_SNAPSHOT (47_snapshot.md R374-R377) -/

/-- The cells of an import's pass: all but 12 and 13, ascending (47_snapshot.md R374). -/
theorem importCells_eq : (allCells.filter fun a => a != REG_C && a != REG_D) =
    (List.range 12 ++ List.range' 14 50).map (BitVec.ofNat 6) := by decide

theorem importCells_nodup : (allCells.filter fun a => a != REG_C && a != REG_D).Nodup := by decide +kernel

theorem getD_of_getElem? {l : List Byte} {k : Nat} {v : Byte} (h : l[k]? = some v) : l.getD k 0x00#8 = v :=
  (getD_eq_iff (List.getElem?_eq_some_iff.mp h).1).mpr h

/-- The writes of an import's pass, byte by byte of the data. -/
theorem importWrites_eq {p : Params} {data : List Byte} {d : Nat → Byte} (hd : ∀ k < 64, data[k]? = some (d k)) :
    importWrites p data = (List.range 12 ++ List.range' 14 50).map fun k =>
      (BitVec.ofNat 6 k, if k = p.cellMap.regB.toNat then d k ||| 0x80#8 else d k) := by
  rw [importWrites, importCells_eq, List.map_map]
  refine List.map_congr_left fun k hk => ?_
  have hk : k < 64 := by
    simp only [List.mem_append, List.mem_range, List.mem_range'_1] at hk
    omega
  have hn : (BitVec.ofNat 6 k).toNat = k := by simpa using hk
  have hb : BitVec.ofNat 6 k = p.cellMap.regB ↔ k = p.cellMap.regB.toNat := by rw [← BitVec.toNat_inj, hn]
  simp only [Function.comp_apply, importByte, hn, hb, getD_of_getElem? (hd k hk), withSet]

/-- The events of an import, with the Register B value read (47_snapshot.md R374). -/
def importEvents (p : Params) (data : List Byte) (rb : Byte) : List BusEvent :=
  readEvents p p.cellMap.regB rb ++ (writeEvents p p.cellMap.regB (withSet rb) ++ (writeAllEvents p (importWrites p data) ++
    writeEvents p p.cellMap.regB (withoutSet (data.getD p.cellMap.regB.toNat 0x00#8))))

theorem importEvents_length (p : Params) (data : List Byte) (rb : Byte) :
    (importEvents p data rb).length = 7 + ((writeAllEvents p (importWrites p data)).length + 4) := by
  simp [importEvents, readEvents, writeEvents]
  omega

theorem importSnapshotBody_eq (p : Params) (data : List Byte) (s : State) : (importSnapshotBody p data).run s =
    ((.unit, []), ((memWrite p.cellMap.regB (withoutSet (data.getD p.cellMap.regB.toNat 0x00#8))).run
      ((memWriteAll (importWrites p data)).run ((haltBegin p).run s).2).2).2) := by
  simp only [importSnapshotBody, haltBegin, run_step, run_stmt, run_bind, run_pure, run_importPass]

theorem haltBegin_along (s : State) :
    Along [s.params.cellMap.regB] [s.params.cellMap.regB] s ((haltBegin s.params).run s).2 :=
  (Keeps.haltBegin (Along.law _ _ s.params []) (List.mem_singleton_self _) (List.mem_singleton_self _) s rfl).2

/-- IMPORT_SNAPSHOT's events; where the map's Register B is the chip's, it ends as the data's with SET = 0, and each other cell
that is written has its byte as the device rule says. -/
theorem importSnapshotBody_run (data : List Byte) (s : State) : ∃ rb u,
    (importSnapshotBody s.params data).run s = ((.unit, []), u) ∧
    u.trace = s.trace ++ importEvents s.params data rb ∧
    (s.readsPlain s.params.cellMap.regB → s.Steady s.params.cellMap.regB 3 → rb = s.x s.params.cellMap.regB) ∧
    (s.rtcPresent = true → s.params.cellMap.regB = REG_B → u.x REG_B = data.getD 11 0x00#8 &&& 0x7F#8 ∧
      ∀ a, a ≠ REG_B → a ≠ REG_C → a ≠ REG_D →
        agentCell a = false ∨ s.QuietFor (importEvents s.params data rb).length →
        u.x a = storedByte s.params.setClearsUie a (s.x a) (data.getD a.toNat 0x00#8)) := by
  have al := haltBegin_along s
  obtain ⟨rb, r, hr, hpar, htr, hpres, hquiet, hrb⟩ := haltBegin_law s
  rw [hr] at al
  obtain ⟨q, hq, pass⟩ := memWriteAll_law (importWrites s.params data) r
  obtain ⟨u, hu, last⟩ := memWrite_law s.params.cellMap.regB (withoutSet (data.getD s.params.cellMap.regB.toNat 0x00#8)) q
  have hpass := pass.trace
  have hx := pass.distinct
  rw [hpar] at hpass hx
  refine ⟨rb, u, by rw [importSnapshotBody_eq, hr, hq, hu], ?_, hrb, fun hp hB => ⟨?_, fun a hneB hneC hneD h => ?_⟩⟩
  · rw [last.trace, hpass, htr, pass.params, hpar, importEvents]
    simp only [List.append_assoc]
  · rw [hB] at last
    rw [last.stored regB_not_agent (pass.pres (hpres hp)), storedByte_withoutSet]
    rfl
  · rw [importEvents_length] at h
    have hr := h.imp_right (hquiet _)
    have hwrite : (a, importByte s.params data a) ∈ importWrites s.params data :=
      List.mem_map_of_mem (List.mem_filter.mpr ⟨mem_allCells a, by simp [hneC, hneD]⟩)
    have hbyte : importByte s.params data a = data.getD a.toNat 0x00#8 := if_neg (hB ▸ hneB)
    rw [last.along.unwritten last.trace (by simpa [hB] using hneB) (by simp) (hr.imp_right (pass.along.quiet_after hpass)),
      hx (hpres hp) (by rw [importWrites_cells]; exact importCells_nodup) _ hwrite
        (hr.imp_right fun hq => QuietFor_mono hq (by omega)),
      al.unwritten htr (by simpa [hB] using hneB) (fun e => absurd e hneC)
        (h.imp_right fun hq => QuietFor_mono hq (Nat.le_add_right 7 _)), hbyte]

/-- Bits 6:0 of a write of Register A are stored (10_state.md R51). -/
theorem storedA_low (old v : Byte) : (storedA old v).extractLsb' 0 7 = v.extractLsb' 0 7 := by
  apply BitVec.eq_of_getLsbD_eq
  intro i hi
  interval_cases i <;> simp [storedA]

end Sys2Proof.Machine

namespace Sys2Proof.Certificates

open Sys2Proof Sys2Proof.Machine Sys2Proof.Config

/-- Settles O54: a read and a write of Register B, the pass over the other cells, and a last write of Register B. -/
theorem importSnapshot : Obligations.ImportSnapshot := by
  rintro s data d b hlen hd hio rfl
  obtain ⟨rb, u, hu, htr, hrb, hx⟩ := importSnapshotBody_run data s.started
  have hget := fun k hk => getD_of_getElem? (hd k hk)
  rw [importEvents, importWrites_eq hd, hget s.started.params.cellMap.regB.toNat (BitVec.isLt _)] at htr hx
  have hcells : ∀ a ∈ storedCells s.params (.importSnapshot data) ++ clearedCells (readCells s.params (.importSnapshot data)),
      a ∈ s.params.cellMap.regB :: (List.range 12 ++ List.range' 14 50).map (BitVec.ofNat 6) := by
    rw [storedCells, readCells, importWrites_cells, importCells_eq]
    refine List.forall_mem_append.mpr ⟨fun _ h => h, fun a ha => ?_⟩
    obtain rfl := List.mem_singleton.mp (List.mem_filter.mp ha).1
    exact List.mem_cons_self
  obtain ⟨hexec, hret⟩ := exec_bus (b := importSnapshotBody s.params data) (by simp [operation, importSnapshotOp, hlen]) hio hu
    htr hcells
  refine ⟨_, rb, hexec, hret, hrb, fun hp hB => ?_⟩
  obtain ⟨hxB, hxs⟩ := hx hp hB
  have hxA := hxs REG_A (by decide) (by decide) (by decide) (.inl (by decide))
  rw [hget 11 (by omega)] at hxB
  rw [hget REG_A.toNat (by decide)] at hxA
  refine ⟨hxB, hxA, fun a hpl ha => ?_⟩
  rw [hret.trace] at ha
  have hxa := hxs a hpl.2.1 hpl.2.2.1 hpl.2.2.2 ha
  rwa [storedByte_plain _ _ _ hpl, hget _ a.isLt] at hxa

/-- Settles O57: the import writes the bytes of the first snapshot, and those of the second are reads of them. -/
theorem exportImportRoundTrip : Obligations.ExportImportRoundTrip := by
  intro s t u w snap snap' ws ws' hio hp hB hexport hsnap himport hexport' hsnap'
  obtain ⟨_, _, _, _, ht, -, hlen, exported, -⟩ := exportSnapshot s hio
  cases hexport.symm.trans ht
  cases hsnap.symm.trans exported.outcome
  have hget : ∀ k < 64, snap[k]? = some (snap.getD k 0x00#8) := fun k hk => (getD_eq_iff (by omega)).mp rfl
  have hiot := exported.launch.ioPermitted.trans hio
  have hpt := exported.launch.rtcPresent.trans hp
  obtain ⟨_, _, hu, imported, -, hwritten⟩ := importSnapshot t snap (fun k => snap.getD k 0x00#8) REG_B (.inl hlen) hget hiot
    (by rw [exported.launch.params, hB])
  cases himport.symm.trans hu
  obtain ⟨hxB, hxA, hx⟩ := hwritten hpt rfl
  have hpu := imported.launch.rtcPresent.trans hpt
  obtain ⟨_, _, _, _, hw, -, -, exported', hread, hreadA, -⟩ := exportSnapshot u (imported.launch.ioPermitted.trans hiot)
  cases hexport'.symm.trans hw
  cases hsnap'.symm.trans exported'.outcome
  obtain ⟨-, v, hv, hlow, -⟩ := hreadA hpu
  refine ⟨fun a ha hneA hneB hneD => ?_, ⟨_, v, hget 10 (by omega), hv, ?_⟩, _, hget 11 (by omega), ?_⟩
  · have hpl : storesPlain a := ⟨hneA, hneB, (agentCell_false ha).2, hneD⟩
    rw [hread a (readsPlain_of_storesPlain hpu hpl) (.inl ha), hx a hpl (.inl ha), hget a.toNat a.isLt]
  · rw [hlow, hxA]
    exact storedA_low _ _
  · exact (hread REG_B ⟨hpu, by decide⟩ (.inl regB_not_agent)).trans (congrArg some hxB)

end Sys2Proof.Certificates
end

section
/-! SUPPORT. FACTORY_RESET (47_snapshot.md R380-R383): the table, the zero ranges and the checksum, once and again. -/

namespace Sys2Proof.Machine

open Sys2Proof.Config

/-! ## FACTORY_RESET (47_snapshot.md R380-R383) -/

/-- The cells of the two zero ranges, in the order given. -/
def zeroCells (p : Params) : List CellAddr :=
  cellsFromTo p.zeroRange0.lo p.zeroRange0.hi ++ cellsFromTo p.zeroRange1.lo p.zeroRange1.hi

theorem zeroWrites_cells (p : Params) : (zeroWrites p).map Prod.fst = zeroCells p := by
  simp [zeroWrites, zeroCells, Function.comp_def]

/-- With valid parameters a cell of a zero range is reserved and not in the factory table (47_snapshot.md R381.3). -/
theorem zeroCells_valid {p : Params} (hv : p.valid = true) {a : CellAddr} (ha : a ∈ zeroCells p) :
    p.reservedCell a = true ∧ a ∉ p.factoryTable.map Prod.fst := by
  obtain ⟨-, -, h0, h1⟩ := valid_parts hv
  have hok : (p.reservedCell a && p.factoryTable.all fun e => e.1 != a) = true := by
    rcases List.mem_append.mp ha with h | h
    · exact List.all_eq_true.mp h0 a h
    · exact List.all_eq_true.mp h1 a h
  obtain ⟨hres, htab⟩ := Bool.and_eq_true_iff.mp hok
  refine ⟨hres, fun hm => ?_⟩
  obtain ⟨e, he, rfl⟩ := List.mem_map.mp hm
  exact absurd (List.all_eq_true.mp htab e he) (by simp)

/-- A reserved cell is a plain cell that no agent changes, and no checksum cell, where the maps are the chip's. -/
theorem reservedCell_plain {p : Params} (hf : fitsChip p = true) {a : CellAddr} (ha : p.reservedCell a = true) :
    agentCell a = false ∧ storesPlain a ∧ a ∉ checksumCells p := by
  obtain ⟨hA, hB, -, -, ht⟩ := fitsChip_named hf
  simp only [Params.reservedCell, Params.namedCells, Bool.and_eq_true, Bool.not_eq_true', bne_iff_ne, and_assoc,
    ← Bool.not_eq_true, List.contains_iff_mem, List.mem_cons, List.mem_append, not_or] at ha
  obtain ⟨neA, neB, neHi, neLo, -, notTime, -, neC, neD⟩ := ha
  refine ⟨?_, ⟨hA ▸ neA, hB ▸ neB, neC, neD⟩, by simp [checksumCells, neHi, neLo]⟩
  have htime : timeCell a = false := Bool.eq_false_iff.mpr fun h => notTime (ht a h)
  simp [agentCell, htime, neC]

theorem factoryResetBody_eq (p : Params) (s : State) : (factoryResetBody p).run s = ((.unit, []),
    ((ckUpdate p).run ((memWriteAll (zeroWrites p)).run ((memWriteAll (tableWrites p)).run s).2).2).2) := by
  simp only [factoryResetBody, run_stmt, run_bind, run_pure]

/-- FACTORY_RESET's events; each cell of the table that is no agent's and no checksum cell holds what its write left, each cell of
the zero ranges holds zero, and the checksum is right. -/
theorem factoryResetBody_run {s : State} (hp : s.rtcPresent = true) (hv : s.params.valid = true)
    (hf : fitsChip s.params = true) : ∃ u, (factoryResetBody s.params).run s = ((.unit, []), u) ∧
      u.trace = s.trace ++ (writeAllEvents s.params s.params.factoryTable ++
        (writeAllEvents s.params (zeroWrites s.params) ++ u.ckUpdateEvents)) ∧
      (∀ e ∈ s.params.factoryTable, agentCell e.1 = false → e.1 ∉ checksumCells s.params →
        u.x e.1 = storedByte s.params.setClearsUie e.1 (s.x e.1) e.2) ∧
      (∀ a ∈ zeroCells s.params, u.x a = 0x00#8) ∧ u.storedSum = u.coveredSum := by
  have hnodup : (s.params.factoryTable.map Prod.fst).Nodup := (valid_parts hv).1.imp fun h => BitVec.ne_of_lt h
  obtain ⟨r, hr, table⟩ := memWriteAll_law s.params.factoryTable s
  obtain ⟨q, hq, zeros⟩ := memWriteAll_law (zeroWrites s.params) r
  have hpar : q.params = s.params := zeros.params.trans table.params
  obtain ⟨v, u, hu, -, law⟩ := ckUpdate_law q (zeros.pres (table.pres hp)) (hpar ▸ checksumPlain hv hf)
  rw [hpar] at hu
  have kept : ∀ a, agentCell a = false → a ∉ checksumCells s.params → u.x a = q.x a := fun a ha hc => law.same a ha (hpar ▸ hc)
  refine ⟨u, by rw [factoryResetBody_eq, tableWrites_eq hv, hr, hq, hu], ?_, fun e he ha hc => ?_, fun a ha => ?_, law.sums⟩
  · rw [law.trace, zeros.trace, table.trace, table.params, List.append_assoc, List.append_assoc]
  · have hz : e.1 ∉ (zeroWrites s.params).map Prod.fst := fun h =>
      (zeroCells_valid hv (zeroWrites_cells _ ▸ h)).2 (List.mem_map_of_mem he)
    rw [kept _ ha hc, zeros.along.kept _ hz ha, table.distinct hp hnodup e he (.inl ha)]
  · obtain ⟨hag, hpl, hc⟩ := reservedCell_plain hf (zeroCells_valid hv ha).1
    rw [kept a hag hc, zeros.repeated (table.pres hp) a 0x00#8 hag hpl (by rwa [zeroWrites_cells]) fun e he _ => ?_]
    obtain ⟨b, -, rfl⟩ := List.mem_map.mp he
    rfl

/-- A later write of Register A keeps no more of an earlier one than its bit 7 (10_state.md R51). -/
theorem storedA_storedA (old v w : Byte) : storedA (storedA old v) w = storedA old w := by
  simp [storedA, BitVec.and_or_distrib_right, BitVec.and_assoc]

/-- States with the same parameters and the same stored sum hold the same checksum bytes. -/
theorem checksumCells_x_eq {s t : State} (hpar : t.params = s.params) (h : t.storedSum = s.storedSum) :
    ∀ a ∈ checksumCells s.params, t.x a = s.x a := by
  have hn := congrArg BitVec.toNat h
  rw [storedSum_toNat, storedSum_toNat, hpar] at hn
  have := (t.x s.params.ckLoAddr).isLt
  have := (s.x s.params.ckLoAddr).isLt
  refine List.forall_mem_cons.mpr ⟨?_, List.forall_mem_singleton.mpr ?_⟩ <;> exact BitVec.eq_of_toNat_eq (by omega)

end Sys2Proof.Machine

namespace Sys2Proof.Certificates

open Sys2Proof Sys2Proof.Machine Sys2Proof.Config

/-- Settles O55: the writes of the table, then those of the zero ranges, which the table does not name, then a checksum update. -/
theorem factoryReset : Obligations.FactoryReset := by
  intro s hio hp hv hf
  obtain ⟨u, hu, htr, htable, hzero, hsum⟩ := factoryResetBody_run (s := s.started) hp hv hf
  obtain ⟨hexec, hret⟩ := exec_bus (i := .factoryReset) (b := factoryResetBody s.params)
    (cells := s.params.factoryTable.map Prod.fst ++ zeroCells s.params ++ checksumCells s.params) rfl hio hu htr (by
      rw [storedCells, tableWrites_eq hv, zeroWrites_cells, readCells,
        clearedCells_eq_nil fun a ha => (covered_plain a ha).2.2.2.1, List.append_nil]
      exact fun _ h => h)
  refine ⟨_, hexec, hret, fun e he ha hc => ?_, hzero, hsum⟩
  have hx := htable e he ha hc
  have hCD := (valid_parts hv).2.1 e he
  refine ⟨fun hA hB => hx.trans (storedByte_plain _ _ _ ⟨hA, hB, hCD⟩), fun hA => ?_, fun hB => ?_⟩
  · rw [hA] at hx ⊢
    exact hx
  · rw [hB] at hx ⊢
    exact hx.trans (storedB_eq _ _)

/-- Settles O56: what a run leaves in a cell it writes depends on no more than bit 7 of Register A, which it keeps. -/
theorem factoryResetTwice : Obligations.FactoryResetTwice := by
  intro s t u hio hp hv hf ht hu
  obtain ⟨_, ht', first, tableFirst, zeroFirst, sumFirst⟩ := factoryReset s hio hp hv hf
  cases ht.symm.trans ht'
  have hpar := first.launch.params
  obtain ⟨_, hu', second, tableSecond, zeroSecond, sumSecond⟩ := factoryReset t (first.launch.ioPermitted.trans hio)
    (first.launch.rtcPresent.trans hp) (hpar ▸ hv) (hpar ▸ hf)
  cases hu.symm.trans hu'
  rw [hpar] at second tableSecond zeroSecond
  have others : ∀ a, agentCell a = false → a ∉ checksumCells s.params → u.x a = t.x a := by
    intro a ha hc
    by_cases htab : a ∈ s.params.factoryTable.map Prod.fst
    · obtain ⟨e, he, rfl⟩ := List.mem_map.mp htab
      obtain ⟨plain1, regA1, regB1⟩ := tableFirst e he ha hc
      obtain ⟨plain2, regA2, regB2⟩ := tableSecond e he ha hc
      by_cases hA : e.1 = REG_A
      · rw [regA2 hA, regA1 hA]
        exact storedA_storedA _ _ _
      · by_cases hB : e.1 = REG_B
        · rw [regB2 hB, regB1 hB]
        · rw [plain2 hA hB, plain1 hA hB]
    · by_cases hz : a ∈ zeroCells s.params
      · rw [zeroSecond a hz, zeroFirst a hz]
      · exact second.same (List.not_mem_append (List.not_mem_append htab hz) hc) ha
  intro a ha
  by_cases hc : a ∈ checksumCells s.params
  · have hcov : u.coveredSum = t.coveredSum :=
      coveredSum_congr fun b hb => others b (covered_plain b hb).1 ((checksumPlain hv hf).covered b hb)
    exact checksumCells_x_eq second.launch.params (sumSecond.trans (hcov.trans sumFirst.symm)) a (hpar ▸ hc)
  · exact others a ha hc

end Sys2Proof.Certificates
end

section
/-! SUPPORT. How operations end and fail (60_exceptions.md): the byte strings that are no request, the outcome of every step, the
port permission, and the checks of the configuration operations. -/

namespace Sys2Proof

/-! ## Byte strings that are no request (30_encoding.md R143, R154) -/

/-- Whether an operation code is in the map does not depend on the bytes after it. -/
theorem decodeOperands_eq_none (op : Byte) (l : List Byte) : decodeOperands op l = none ↔ op ∉ Spec.operationCodes := by
  rw [← List.mem_map_of_injective BitVec.toNat_injective]
  unfold decodeOperands
  generalize op.toNat = code
  split
  -- a code that is not in the map
  case h_33 => simp_all [Spec.operationCodes]
  -- the 32 codes of the map
  all_goals exact iff_of_false (Option.some_ne_none _) (not_not.mpr (by decide))

theorem decode_unknown {op : Byte} (h : op ∉ Spec.operationCodes) (l : List Byte) :
    decode (op :: l) = .error (.unknownOpcode op) := by
  rw [decode, (decodeOperands_eq_none op l).mpr h]

/-- A byte string that begins with an operation code of the map decodes, or is cut short. -/
theorem decode_known {op : Byte} (h : op ∈ Spec.operationCodes) (l : List Byte) :
    (∃ x, decode (op :: l) = .ok x) ∨ decode (op :: l) = .error (.cutShort op) := by
  rw [decode]
  match hd : decodeOperands op l with
  | none => exact absurd h ((decodeOperands_eq_none op l).mp hd)
  | some none => exact .inr rfl
  | some (some x) => exact .inl ⟨x, rfl⟩

theorem opcode_mem_operationCodes {i : Instr} (h : i.wf = true) : i.opcode ∈ Spec.operationCodes := by
  by_contra hop
  have hn := (decodeOperands_eq_none i.opcode (i.operandBytes ++ [])).mpr hop
  rw [decodeOperands_operandBytes i [] h] at hn
  cases hn

/-- No request's wire form begins another's. -/
theorem eq_nil_of_decode_prefix {i : Instr} {l m : List Byte} {x : Instr × List Byte} (hwf : i.wf = true)
    (hm : l ++ m = encode i) (hd : decode l = .ok x) : m = [] := by
  obtain ⟨hj, rfl⟩ := (decode_eq_ok l x.1 x.2).mp hd
  have hlong := (decode_eq_ok (encode i) x.1 (x.2 ++ m)).mpr ⟨hj, by rw [← hm, List.append_assoc]⟩
  have hwhole := (decode_eq_ok (encode i) i []).mpr ⟨hwf, (List.append_nil _).symm⟩
  have hrest : [] = x.2 ++ m := congrArg Prod.snd (Except.ok.inj (hwhole.symm.trans hlong))
  exact (List.append_eq_nil_iff.mp hrest.symm).2

theorem decode_cutShort {i : Instr} {l : List Byte} (hwf : i.wf = true) (hl : l ≠ []) (hpre : l <+: encode i)
    (hne : l ≠ encode i) : decode l = .error (.cutShort i.opcode) := by
  obtain ⟨m, hm⟩ := hpre
  obtain ⟨op, l, rfl⟩ := List.exists_cons_of_ne_nil hl
  obtain rfl : op = i.opcode := (List.cons.inj hm).1
  refine (decode_known (opcode_mem_operationCodes hwf) l).resolve_left ?_
  rintro ⟨x, hd⟩
  obtain rfl := eq_nil_of_decode_prefix hwf hm hd
  exact hne ((List.append_nil _).symm.trans hm)

end Sys2Proof

namespace Sys2Proof.Machine

open Sys2Proof.Config

/-! ## The end of an operation (60_exceptions.md R400, R408) -/

/-- What is left of an operation, run from any state, ends with an outcome and nothing under way. -/
theorem Operation.run_answers (o : Operation) (s : State) : (o.run s).running = none ∧ ∃ r, (o.run s).outcome = some r := by
  induction o with
  | step o ih => exact ih
  | fails e => exact ⟨rfl, _, rfl⟩
  | value v => exact ⟨rfl, _, rfl⟩
  | bus b =>
    rw [Operation.run]
    split <;> exact ⟨rfl, _, rfl⟩

theorem step_resumes {s : State} {r : Running} (h : s.running = some r) : step s = .next ((s.rest r).run s) := by
  rw [step, h]
  rfl

/-! ## The port permission (60_exceptions.md R404, R409) -/

/-- An operation's first statements come to an error, to a value if it has no bus events, or to a program if it has some. -/
theorem operation_comesTo (i : Instr) (p : Params) : (∃ e, (operation p i).comesTo = .fails e) ∨
    (isPure i = true ∧ ∃ v, (operation p i).comesTo = .value v) ∨
    (isPure i = false ∧ ∃ b, (operation p i).comesTo = .bus b) := by
  have h := operation_shape i p
  generalize operation p i = o at h
  induction h with
  | step o _ ih => exact ih
  | fails e => exact .inl ⟨e, rfl⟩
  | value v hi => exact .inr (.inl ⟨hi, v, rfl⟩)
  | bus b hi _ => exact .inr (.inr ⟨hi, b, rfl⟩)

/-- An operation that comes to a program, with port access, ends with a value. -/
theorem exec_returns {i : Instr} {s : State} {b : Bus (Value × List Warning)} (h : (operation s.params i).comesTo = .bus b)
    (hio : s.ioPermitted = true) : ∃ v ws u, exec i s = .next (finish (.ok v ws) u) :=
  ⟨_, _, _, exec_ran h hio rfl⟩

/-- An operation that comes to a program, without port access, fails before its first bus event. -/
theorem exec_denied {i : Instr} {s : State} {b : Bus (Value × List Warning)} (h : (operation s.params i).comesTo = .bus b)
    (hio : s.ioPermitted = false) : exec i s = .next (s.failed .portAccessDenied) := by
  rw [exec_operation, ← runOperation_comesTo, h, runOperation_denied hio]
  rfl

/-! ## Operands of the configuration operations (44_config_fields.md R283, R299, R305) -/

theorem selIndex_none {d : Byte} (hA : d ≠ 0x41#8) (h0 : d ≠ 0x30#8) (hB : d ≠ 0x42#8) (h1 : d ≠ 0x31#8) :
    selIndex d = none := by
  simp [selIndex, hA, h0, hB, h1]

theorem equipFieldOf_none {f : Byte} (h0 : f ≠ 0#8) (h1 : f ≠ 1#8) (h2 : f ≠ 2#8) : equipFieldOf f = none := by
  simp [equipFieldOf, h0, h1, h2]

theorem memwordOf_none (p : Params) {w : Byte} (h0 : w ≠ 0#8) (h1 : w ≠ 1#8) : memwordOf p w = none := by
  simp [memwordOf, h0, h1]

theorem memwordOf_known (p : Params) {w : Byte} (h : w = 0#8 ∨ w = 1#8) : ∃ a, memwordOf p w = some a := by
  rcases h with rfl | rfl
  · exact ⟨_, memwordOf_code p false⟩
  · exact ⟨_, memwordOf_code p true⟩

theorem importSnapshotOp_size (p : Params) {data : List Byte} (h64 : data.length ≠ 64) (h128 : data.length ≠ 128) :
    importSnapshotOp p data = .fails (.snapshotSize data.length) := by
  rw [importSnapshotOp, if_neg (not_or.mpr ⟨h64, h128⟩)]

end Sys2Proof.Machine

namespace Sys2Proof.Certificates

open Sys2Proof Sys2Proof.Machine Sys2Proof.Config

/-- Settles O3: the map alone says which codes are unknown; what decodes is a whole wire form, so a part of one is cut short. -/
theorem invalidRequests : Obligations.InvalidRequests :=
  ⟨rfl, fun _ l h => decode_unknown h l, fun _ _ hwf hl hpre hne => decode_cutShort hwf hl hpre hne,
    fun _ _ _ _ hr hq hd => step_rejects hr hq hd⟩

/-- Settles O8: a step runs an operation to its end, rejects a request, or is the clock agent's turn. -/
theorem stepAlwaysAnswers : Obligations.StepAlwaysAnswers := by
  intro s
  cases hr : s.running with
  | some r =>
    obtain ⟨hrun, hout⟩ := (s.rest r).run_answers s
    exact ⟨_, step_resumes hr, hrun, fun _ => hout⟩
  | none =>
    cases hq : s.requests with
    | nil => exact ⟨_, step_idle hr hq, by simpa using hr, by simp⟩
    | cons b rest =>
      cases hd : decode b with
      | error e => exact ⟨_, step_rejects hr hq hd, rfl, fun _ => ⟨_, rfl⟩⟩
      | ok x =>
        obtain ⟨hrun, hout⟩ := (operation s.params x.1).run_answers (State.started { s with requests := rest })
        exact ⟨_, (step_accepts hr hq hd).trans (exec_operation x.1 _), hrun, fun _ => hout⟩

/-- Settles O15: of the ways an operation can end, only the one that changes nothing else has an error as its outcome. -/
theorem failureChangesNothing : Obligations.FailureChangesNothing := by
  intro i s t e ht he
  cases ends_of_exec ht with
  | err e' => cases he; rfl
  | value v _ => cases he
  | ran u v ws _ _ _ => cases he

/-- Settles O16: the port permission is looked at only where the operation has come to a program of bus events. -/
theorem portAccessDenied : Obligations.PortAccessDenied := by
  intro i s t ht
  rcases operation_comesTo i s.params with ⟨e, he⟩ | ⟨hi, v, hv⟩ | ⟨hi, b, hb⟩
  · have fails (io : Bool) : exec i { s with ioPermitted := io } = .next (State.failed { s with ioPermitted := io } e) :=
      exec_failed he
    obtain rfl := Host.Outcome.next.inj (ht.symm.trans (fails true))
    exact ⟨fun _ _ hok => (nomatch hok), fun _ => fails false⟩
  · have answers (io : Bool) : exec i { s with ioPermitted := io } = .next (State.answered { s with ioPermitted := io } v) :=
      exec_answered hv
    obtain rfl := Host.Outcome.next.inj (ht.symm.trans (answers true))
    exact ⟨fun _ _ _ hn => (nomatch hi.symm.trans hn), fun _ => answers false⟩
  · obtain ⟨v, ws, u, hu⟩ := exec_returns (s := { s with ioPermitted := true }) hb rfl
    obtain rfl := Host.Outcome.next.inj (ht.symm.trans hu)
    refine ⟨fun _ _ _ _ => exec_denied hb rfl, ?_⟩
    rintro (hp | ⟨e, he⟩)
    · exact nomatch hi.symm.trans hp
    · cases he

/-- Settles O19: each operation comes to the error of its first bad operand. -/
theorem configValidation : Obligations.ConfigValidation := by
  intro s d v second
  refine ⟨fun hA h0 hB h1 => ?_, fun hd hv => exec_failed ?_, fun hd hv => exec_failed ?_,
    fun h0 h1 h2 => exec_failed ?_, fun hv => exec_failed ?_, fun hv => exec_failed ?_, fun hv => exec_failed ?_,
    fun h0 h1 => ?_, fun hd hv => exec_failed ?_, fun data h64 h128 => exec_failed ?_⟩
  · have hsel := selIndex_none hA h0 hB h1
    refine ⟨exec_failed ?_, exec_failed ?_, exec_failed ?_, exec_failed ?_⟩
    · simp [operation, getFloppyOp, hsel]
    · simp [operation, setFloppyOp, hsel]
    · simp [operation, getHarddiskOp, hsel]
    · simp [operation, setHarddiskOp, hsel]
  · simp [operation, setFloppyOp, selIndex_driveCode hd, checkRange_out hv]
  · simp [operation, setHarddiskOp, selIndex_driveCode hd, checkRange_out hv]
  · simp [operation, setEquipOp, equipFieldOf_none h0 h1 h2]
  · simp [operation, setEquipOp, equipFieldOf, checkIf, checkRange_out hv]
  · simp [operation, setEquipOp, equipFieldOf, checkIf, checkRange_out hv]
  · simp [operation, setEquipOp, equipFieldOf, checkIf, checkRange_out hv]
  · have hw := memwordOf_none s.params h0 h1
    refine ⟨exec_failed ?_, exec_failed ?_⟩
    · simp [operation, getMemwordOp, hw]
    · simp [operation, setMemwordOp, hw]
  · obtain ⟨a, ha⟩ := memwordOf_known s.params hd
    simp [operation, setMemwordOp, ha, checkRange_out hv]
  · simp [operation, importSnapshotOp_size s.params h64 h128]

end Sys2Proof.Certificates
end

section
/-! SUPPORT. The canonical form of the store (log entry 15) as an invariant of the machine: every bus primitive keeps it, and so
does every step. -/

namespace Sys2Proof.Machine

open Sys2Proof.Config

theorem perform_wf (q : Request) (s : State) : WfStep s (perform q s).2 := by
  cases q with
  | barrier => exact barrier_wf s
  | select v => exact rtcSelect_wf v s
  | dataIn => exact fun h => deviceRead_wf _ _ (agentTurn_wf s h)
  | dataOut v => exact fun h => deviceWrite_wf _ _ (agentTurn_wf s h)
  | nibDataIn c => exact fun h => agentTurn_wf s h
  | selIn c p => exact selPortIn_wf c p s
  | selOut c p v => exact selPortOut_wf c p v s
  | nibIn c p => exact nibPortIn_wf c p s
  | platIn => exact platPortIn_wf s

theorem Bus.run_wf {α : Type} (b : Bus α) (s : State) : WfStep s (b.run s).2 :=
  run_keeps (R := WfStep) (fun _ h => h) (fun h g hs => g (h hs)) perform_wf b s

/-- What is left of an operation, run from any point, changes the store by its bus events only. -/
theorem Operation.run_inv (o : Operation) {s : State} (h : s.Inv) : (o.run s).Inv := by
  induction o with
  | step o ih => exact ih
  | fails e => exact h
  | value v => exact h
  | bus b =>
    rw [Operation.run]
    split
    · exact b.run_wf s h
    · exact h

theorem steps_inv {s : State} (h : s.Inv) : (blockStep s).Inv ∧ (busStep s).Inv :=
  steps_keep perform_wf (fun _ _ hs => hs) (fun _ _ _ hs => hs) h

/-- A step runs an operation to its end, rejects a request, or is the clock agent's turn. -/
theorem step_inv {s t : State} (h : s.Inv) (ht : step s = .next t) : t.Inv := by
  cases hr : s.running with
  | some r =>
    cases ht.symm.trans (step_resumes hr)
    exact (s.rest r).run_inv h
  | none =>
    cases hq : s.requests with
    | nil =>
      cases ht.symm.trans (step_idle hr hq)
      exact agentTurn_wf s h
    | cons b rest =>
      cases hd : decode b with
      | error e =>
        cases ht.symm.trans (step_rejects hr hq hd)
        exact h
      | ok x =>
        cases ht.symm.trans ((step_accepts hr hq hd).trans (exec_operation x.1 _))
        exact (operation s.params x.1).run_inv (s := State.started { s with requests := rest }) h

end Sys2Proof.Machine

namespace Sys2Proof.Certificates

open Sys2Proof Sys2Proof.Machine

/-- Settles O9: the store changes only by the clock agent's turns and the device's answers, and each is a write in canonical
form. -/
theorem stepKeepsStoreCanonical : Obligations.StepKeepsStoreCanonical := by
  intro s h
  obtain ⟨hblock, hbus⟩ := steps_inv h
  exact ⟨hblock, hbus, fun _ => step_inv h⟩

/-- Settles O10: no cell is listed at reset. -/
theorem resetStoreCanonical : Obligations.ResetStoreCanonical := Memory.wf_nil

end Sys2Proof.Certificates
end
